-- ==== Sys2Proof/Word.lean ====
section
/-! DEFINITION. The word types of the block: every command, operand, phase and result word is 32 bits
(10_state.md R21, 30_encoding.md R60); the 32-bit encoder computes on 64-bit patterns (00_scope.md R10);
a byte lane of a response is 8 bits (20_memory.md R40). -/

namespace Sys2Proof

/-- A 32-bit word; read as a number it is a binary32 pattern (00_scope.md R7). -/
abbrev Word := BitVec 32

/-- A 64-bit binary64 pattern (00_scope.md R7, R10). -/
abbrev DWord := BitVec 64

/-- One byte lane of a response (20_memory.md R40). -/
abbrev Byte := BitVec 8

end Sys2Proof
end

