-- ==== Sys2Proof/Config.lean ====
section
/-! DEFINITION. What the spec leaves to the implementation or to chance (00_scope.md R5, R12, R17;
92_eei_decisions.md, 'Open parameters, in one place'). Every constant here is opaque and has no body, so a
statement about the block holds for every value of it. -/

namespace Sys2Proof

/-- The raw sine parameter (00_scope.md R12, decision D4; 93 U1). FREE VALUE, DESIGN CHOICE, log 4: an arbitrary
function of binary32 patterns. `Machine.sin32` confines it to the functions with properties S1 and S2. -/
opaque Config.sineRaw : Word → Word

/-- `TRI_FIRST_SIGN` = +1 (00_scope.md R5, 41_bandlimited.md R109, decision D14; 93 U2): whether the first term of
the band-limited triangle is added. FREE VALUE, DESIGN CHOICE, log 5. -/
opaque Config.triFirstSignPositive : Bool

/-- What phase register `i` holds after the `n`-th reset, before anything writes it (70_reset_and_hazards.md R181,
R182; 93 U3 'Never model as 0'). FREE VALUE, DESIGN CHOICE, log 3. -/
opaque Config.resetPhase (n : Nat) (i : Fin 16) : Word

/-- `HMAX`, the largest harmonic count (00_scope.md R5, decision D7). -/
def Config.hmax : Nat := 65535

end Sys2Proof
end

