-- ==== Sys2Proof/Syntax.lean ====
section
/-! DEFINITION. The commands of DSYN-1 (30_encoding.md R60, R62, R63, R65): one constructor per row of the opcode map,
with the fields and operand words the row uses, and the command triple that carries one on the interface. -/

namespace Sys2Proof

/-- A command as it crosses the interface (30_encoding.md R60): the command word and the two operand words. -/
structure Command where
  cw  : Word
  opa : Word
  opb : Word
deriving DecidableEq, Repr

/-- The thirteen commands (30_encoding.md R65). `pr` is the phase-register index `PR`, `hc` the harmonics count `HC`
(0 is auto mode), `f` the frequency, `r` the sample rate, `x` a sample, `v` a new phase. An operand word that a
command ignores (R63) is no part of it. -/
inductive Instr where
  | advsin   (pr : Fin 16) (f r : Word)
  | advsqr   (pr : Fin 16) (f r : Word)
  | advsaw   (pr : Fin 16) (f r : Word)
  | advtri   (pr : Fin 16) (f r : Word)
  | advblsqr (pr : Fin 16) (hc : Nat) (f r : Word)
  | advblsaw (pr : Fin 16) (hc : Nat) (f r : Word)
  | advbltri (pr : Fin 16) (hc : Nat) (f r : Word)
  | enc8     (x : Word)
  | enc16    (x : Word)
  | enc32    (x : Word)
  | phwr     (pr : Fin 16) (v : Word)
  | phrd     (pr : Fin 16)
  | rdfs
deriving DecidableEq, Repr

/-- Why a command word is illegal (30_encoding.md R66). -/
inductive Illegal where
  /-- `OP` is 0x0, 0xE or 0xF. -/
  | reservedOpcode
  /-- `RSV` is not zero. -/
  | reservedField
  /-- `HC` is not zero in a command of class A or E. -/
  | unusedCount
  /-- `PR` is not zero in a command of class E. -/
  | unusedRegister
deriving DecidableEq, Repr

end Sys2Proof
end

