-- ==== Sys2Proof/WellFormed.lean ====
section
/-! DEFINITION. Which terms of `Instr` stand for a command: the harmonics count is a 16-bit field, 0 to 65535
(30_encoding.md R61, R64; 00_scope.md R5). The register index is in range by its type. -/

namespace Sys2Proof

/-- A harmonics count that the field `HC` can carry. -/
def countFits (hc : Nat) : Bool := decide (hc ≤ Config.hmax)

/-- The instruction has an encoding: one check for each of the three commands of class B (30_encoding.md R62). -/
def Instr.wellFormed : Instr → Bool
  | .advsin _ _ _ => true
  | .advsqr _ _ _ => true
  | .advsaw _ _ _ => true
  | .advtri _ _ _ => true
  | .advblsqr _ hc _ _ => countFits hc
  | .advblsaw _ hc _ _ => countFits hc
  | .advbltri _ hc _ _ => countFits hc
  | .enc8 _ => true
  | .enc16 _ => true
  | .enc32 _ => true
  | .phwr _ _ => true
  | .phrd _ => true
  | .rdfs => true

end Sys2Proof
end

