-- ==== Sys2Proof/Decode.lean ====
section
/-! DEFINITION. The decoder (30_encoding.md R61, R65, R66, R72), total on every command word and rejecting by name, and after
it the encoder (R61, R62, R65, R70), written from the same table. -/

namespace Sys2Proof

/-- `OP` = CW[3:0] (30_encoding.md R61). -/
def fieldOp (w : Word) : BitVec 4 := w.extractLsb' 0 4

/-- `PR` = CW[7:4] (30_encoding.md R61), used as the register index as it stands (R64). -/
def fieldPr (w : Word) : Fin 16 := (w.extractLsb' 4 4).toFin

/-- `RSV` = CW[15:8] (30_encoding.md R61). -/
def fieldRsv (w : Word) : BitVec 8 := w.extractLsb' 8 8

/-- `HC` = CW[31:16] (30_encoding.md R61), zero-extended and used as the count as it stands (R64). -/
def fieldHc (w : Word) : Nat := (w.extractLsb' 16 16).toNat

/-- A command of class A: `HC` must be zero (30_encoding.md R62). -/
def decodeA (w : Word) (i : Instr) : Except Illegal Instr :=
  if fieldHc w = 0 then .ok i else .error .unusedCount

/-- A command of class E: `PR` and `HC` must be zero (30_encoding.md R62). -/
def decodeE (w : Word) (i : Instr) : Except Illegal Instr :=
  if fieldHc w ≠ 0 then .error .unusedCount
  else if fieldPr w ≠ 0 then .error .unusedRegister
  else .ok i

/-- The decoding procedure (30_encoding.md R72). Whether a word is illegal depends on `CW` alone (60_exceptions.md R153);
where several reasons hold, `RSV` is named first, then the opcode's own (log 19). -/
def decode (c : Command) : Except Illegal Instr :=
  if fieldRsv c.cw ≠ 0 then .error .reservedField
  else match (fieldOp c.cw).toNat with
    | 1 => decodeA c.cw (.advsin (fieldPr c.cw) c.opa c.opb)
    | 2 => decodeA c.cw (.advsqr (fieldPr c.cw) c.opa c.opb)
    | 3 => decodeA c.cw (.advsaw (fieldPr c.cw) c.opa c.opb)
    | 4 => decodeA c.cw (.advtri (fieldPr c.cw) c.opa c.opb)
    | 5 => .ok (.advblsqr (fieldPr c.cw) (fieldHc c.cw) c.opa c.opb)
    | 6 => .ok (.advblsaw (fieldPr c.cw) (fieldHc c.cw) c.opa c.opb)
    | 7 => .ok (.advbltri (fieldPr c.cw) (fieldHc c.cw) c.opa c.opb)
    | 8 => decodeE c.cw (.enc8 c.opa)
    | 9 => decodeE c.cw (.enc16 c.opa)
    | 10 => decodeE c.cw (.enc32 c.opa)
    | 11 => decodeA c.cw (.phwr (fieldPr c.cw) c.opa)
    | 12 => decodeA c.cw (.phrd (fieldPr c.cw))
    | 13 => decodeE c.cw .rdfs
    | _ => .error .reservedOpcode

/-- The command triple whose bits are `w`: bits 31:0 are `CW`, as spec/opcode_table.json numbers them, and the operand
words follow as bits 63:32 (`OPA`) and 95:64 (`OPB`) (log 12). -/
def commandOfBits (w : Nat) : Command :=
  ⟨BitVec.ofNat 32 w, BitVec.ofNat 32 (w / 2 ^ 32), BitVec.ofNat 32 (w / 2 ^ 64)⟩

/-- What the decoder reads from an instruction of `nbits` bits `w`, the bits above `nbits` being zero. -/
def decodeTableWord (nbits w : Nat) : Option Instr :=
  match decode (commandOfBits (w % 2 ^ nbits)) with
  | .ok i => some i
  | .error _ => none

/-! The encoder. -/

/-- The command word of the four fields (30_encoding.md R61): `HC`, `RSV` = 0, `PR`, `OP`, most significant first. -/
def packCw (hc : Nat) (pr : Fin 16) (op : BitVec 4) : Word :=
  BitVec.ofNat 16 hc ++ 0#8 ++ (BitVec.ofFin pr : BitVec 4) ++ op

/-- The triple the assembler emits (30_encoding.md R70): `OPA` the first operand or 0, `OPB` the second or 0. -/
def encode : Instr → Command
  | .advsin pr f r => ⟨packCw 0 pr 0x1, f, r⟩
  | .advsqr pr f r => ⟨packCw 0 pr 0x2, f, r⟩
  | .advsaw pr f r => ⟨packCw 0 pr 0x3, f, r⟩
  | .advtri pr f r => ⟨packCw 0 pr 0x4, f, r⟩
  | .advblsqr pr hc f r => ⟨packCw hc pr 0x5, f, r⟩
  | .advblsaw pr hc f r => ⟨packCw hc pr 0x6, f, r⟩
  | .advbltri pr hc f r => ⟨packCw hc pr 0x7, f, r⟩
  | .enc8 x => ⟨packCw 0 0 0x8, x, 0⟩
  | .enc16 x => ⟨packCw 0 0 0x9, x, 0⟩
  | .enc32 x => ⟨packCw 0 0 0xA, x, 0⟩
  | .phwr pr v => ⟨packCw 0 pr 0xB, v, 0⟩
  | .phrd pr => ⟨packCw 0 pr 0xC, 0, 0⟩
  | .rdfs => ⟨packCw 0 0 0xD, 0, 0⟩

/-- The `match` column of the opcode map (30_encoding.md R65). -/
def Instr.rowMatch : Instr → Word
  | .advsin _ _ _ => 0x00000001
  | .advsqr _ _ _ => 0x00000002
  | .advsaw _ _ _ => 0x00000003
  | .advtri _ _ _ => 0x00000004
  | .advblsqr _ _ _ _ => 0x00000005
  | .advblsaw _ _ _ _ => 0x00000006
  | .advbltri _ _ _ _ => 0x00000007
  | .enc8 _ => 0x00000008
  | .enc16 _ => 0x00000009
  | .enc32 _ => 0x0000000A
  | .phwr _ _ => 0x0000000B
  | .phrd _ => 0x0000000C
  | .rdfs => 0x0000000D

/-- The `mask` column of the opcode map (30_encoding.md R65). -/
def Instr.rowMask : Instr → Word
  | .advsin _ _ _ => 0xFFFFFF0F
  | .advsqr _ _ _ => 0xFFFFFF0F
  | .advsaw _ _ _ => 0xFFFFFF0F
  | .advtri _ _ _ => 0xFFFFFF0F
  | .advblsqr _ _ _ _ => 0x0000FF0F
  | .advblsaw _ _ _ _ => 0x0000FF0F
  | .advbltri _ _ _ _ => 0x0000FF0F
  | .enc8 _ => 0xFFFFFFFF
  | .enc16 _ => 0xFFFFFFFF
  | .enc32 _ => 0xFFFFFFFF
  | .phwr _ _ => 0xFFFFFF0F
  | .phrd _ => 0xFFFFFF0F
  | .rdfs => 0xFFFFFFFF

/-- The rows of the opcode map as (`match`, `mask`) pairs (30_encoding.md R65). -/
def opcodeRows : List (Word × Word) :=
  [(0x00000001, 0xFFFFFF0F), (0x00000002, 0xFFFFFF0F), (0x00000003, 0xFFFFFF0F), (0x00000004, 0xFFFFFF0F),
   (0x00000005, 0x0000FF0F), (0x00000006, 0x0000FF0F), (0x00000007, 0x0000FF0F),
   (0x00000008, 0xFFFFFFFF), (0x00000009, 0xFFFFFFFF), (0x0000000A, 0xFFFFFFFF),
   (0x0000000B, 0xFFFFFF0F), (0x0000000C, 0xFFFFFF0F), (0x0000000D, 0xFFFFFFFF)]

/-- The word selects a row of the opcode map (30_encoding.md R65). -/
def selectsRow (w : Word) : Bool := opcodeRows.any fun row => (w &&& row.2) == row.1

/-- The pseudo-instruction `phclr pN` (30_encoding.md R71). -/
def pseudoPhclr (pr : Fin 16) : Instr := .phwr pr 0

/-- The pseudo-instruction `enc <bits>, <sample>` (30_encoding.md R71); another width is an assembly error. -/
def pseudoEnc (bits : Nat) (x : Word) : Option Instr :=
  match bits with
  | 8 => some (.enc8 x)
  | 16 => some (.enc16 x)
  | 32 => some (.enc32 x)
  | _ => none

end Sys2Proof
end

