-- ==== Sys2Proof/Machine/State.lean ====
section
/-! DEFINITION. The state of the block (10_state.md R20, R21, R25, R27), the command and response words
(30_encoding.md R60, R69), the inputs of the host (70_reset_and_hazards.md R180, R194) and the state after reset (R181). -/

namespace Sys2Proof.Machine

/-- The reasons for which a step could stop the machine. There is none: the block has no trap and no final state, each of
its four faults is a response after which it goes on (60_exceptions.md R150, R151, R155, R159), and a hang is an infinite
run, not a stop (R158). So nothing raises one, which is safe (log 15). -/
inductive Fault
deriving DecidableEq, Repr

/-- Why a step could answer nothing. -/
inductive Refusal where
  /-- An instruction with no meaning yet, raised by an arm of `exec` only; safe, since nothing can be proved of a next
  state that is not given. No arm raises it. -/
  | notModelled (mnemonic : String)
deriving DecidableEq, Repr

/-- The four faults of a command (60_exceptions.md R150). -/
inductive FaultCause where
  /-- The word is no row of the opcode map (R153). -/
  | illegalCommand
  /-- Frequency, rate or stored phase outside the defined domain (R152). -/
  | operandFault
  /-- Auto mode without a count in 0 … 65535 (R154). -/
  | harmonicRange
  /-- The sample to encode is a NaN (R156). -/
  | encodeNaN
deriving DecidableEq, Repr

/-- A response (30_encoding.md R60, R69): status, number of meaningful byte lanes, result word. -/
structure Response where
  st  : BitVec 4
  nb  : BitVec 3
  res : Word
deriving DecidableEq, Repr

/-- The block and what the host has sent it. `p`, `fstat` and `busy` are the whole of 10_state.md R20; the rest are the
words and wires of the interface, and one counter of the model's own. -/
structure State where
  /-- `P[0]` … `P[15]` (10_state.md R21). -/
  p      : Vector Word 16
  /-- `FSTAT` (10_state.md R25): bit 0 `ILL`, 1 `OPD`, 2 `HRG`, 3 `ENN`. -/
  fstat  : BitVec 4
  /-- `BUSY` (10_state.md R27): a command has been accepted and has not responded. -/
  busy   : Bool
  /-- `CW`, `OPA`, `OPB` of the command being executed (00_scope.md R15); meaningful while `busy` (log 11). -/
  cmd    : Command
  /-- Commands presented and held by the handshake, in the order of acceptance (10_state.md R27, 20_memory.md R47; log 9). -/
  held   : List Command
  /-- The reset input is asserted (70_reset_and_hazards.md R180; log 10). -/
  rst    : Bool
  /-- The response of the latest command, absent from its acceptance until it responds (30_encoding.md R69; log 8). -/
  resp   : Option Response
  /-- The model's own: how many resets there have been, which selects the draws of the next one (R181; log 3). -/
  resets : Nat
deriving DecidableEq, Repr

/-- The unspecified contents of the sixteen phase registers after the `n`-th reset (70_reset_and_hazards.md R181, R182). -/
def resetPhases (n : Nat) : Vector Word 16 :=
  #v[Config.resetPhase n 0, Config.resetPhase n 1, Config.resetPhase n 2, Config.resetPhase n 3,
     Config.resetPhase n 4, Config.resetPhase n 5, Config.resetPhase n 6, Config.resetPhase n 7,
     Config.resetPhase n 8, Config.resetPhase n 9, Config.resetPhase n 10, Config.resetPhase n 11,
     Config.resetPhase n 12, Config.resetPhase n 13, Config.resetPhase n 14, Config.resetPhase n 15]

/-- The state after the `n`-th reset (70_reset_and_hazards.md R180, R181): phases unspecified, `FSTAT` and `BUSY` zero, no command
in progress, none held, no response. -/
def State.afterReset (n : Nat) : State where
  p := resetPhases n
  fstat := 0
  busy := false
  cmd := ⟨0, 0, 0⟩
  held := []
  rst := false
  resp := none
  resets := n

/-- The machine right after reset (70_reset_and_hazards.md R181). -/
def State.reset : State := State.afterReset 0

end Sys2Proof.Machine
end

