-- ==== Sys2Proof/Machine/Flags.lean ====
section
/-! DEFINITION. `FSTAT`, the block's only flags (10_state.md R25), and the codes of the faults (60_exceptions.md R150). -/

namespace Sys2Proof.Machine

/-- The status `ST` of a fault (60_exceptions.md R150, 30_encoding.md R69). -/
def FaultCause.code : FaultCause → BitVec 4
  | .illegalCommand => 1
  | .operandFault => 2
  | .harmonicRange => 3
  | .encodeNaN => 4

/-- Which bit of `FSTAT` a fault sets (10_state.md R25). -/
def FaultCause.bitIndex : FaultCause → Nat
  | .illegalCommand => 0
  | .operandFault => 1
  | .harmonicRange => 2
  | .encodeNaN => 3

/-- The `FSTAT` bit of a fault, as a mask. -/
def FaultCause.mask (c : FaultCause) : BitVec 4 := 1 <<< c.bitIndex

/-- `FSTAT` after a fault: its bit is set, and no bit is ever cleared (10_state.md R25). -/
def recordFault (fstat : BitVec 4) (c : FaultCause) : BitVec 4 := fstat ||| c.mask

/-- The fault is recorded in `FSTAT`. -/
def State.recorded (s : State) (c : FaultCause) : Bool := s.fstat.getLsbD c.bitIndex

end Sys2Proof.Machine
end

