-- ==== Sys2Proof/Machine/Float.lean ====
section
/-! DEFINITION. IEEE 754 arithmetic as 00_scope.md R7 to R14 gives it: each operation computes the exact result on
integers and rounds once, to nearest, ties to even. A finite pattern of a format is an integer multiple of that
format's smallest subnormal, so every exact value below is an `Int` or a quotient of `Nat`s in that unit. -/

namespace Sys2Proof.Machine

/-- An IEEE 754 binary format: how many exponent and fraction bits it has (00_scope.md R7). -/
structure FloatFormat where
  expBits  : Nat
  fracBits : Nat
deriving DecidableEq, Repr

/-- A pattern taken apart: the sign bit, and the other bits read as one number (exponent above fraction). -/
structure FloatBits where
  neg : Bool
  mag : Nat
deriving DecidableEq, Repr

/-- binary32 (00_scope.md R7). -/
def binary32 : FloatFormat := ⟨8, 23⟩

/-- binary64 (00_scope.md R7). -/
def binary64 : FloatFormat := ⟨11, 52⟩

/-! ### Reading a pattern -/

/-- The magnitude of an infinity: exponent all ones, fraction 0 (00_scope.md R7). -/
def infMag (F : FloatFormat) : Nat := (2 ^ F.expBits - 1) * 2 ^ F.fracBits

/-- The smallest subnormal of the format is 2 to the power −`unitExp` (149 for binary32, 1074 for binary64). -/
def unitExp (F : FloatFormat) : Nat := 2 ^ (F.expBits - 1) + F.fracBits - 2

/-- Exponent all ones and fraction nonzero (00_scope.md R7, R9). -/
def isNaNBits (F : FloatFormat) (x : FloatBits) : Bool := decide (infMag F < x.mag)

/-- Exponent all ones and fraction zero (00_scope.md R7). -/
def isInfBits (F : FloatFormat) (x : FloatBits) : Bool := decide (x.mag = infMag F)

/-- Exponent not all ones (00_scope.md R9). -/
def isFiniteBits (F : FloatFormat) (x : FloatBits) : Bool := decide (x.mag < infMag F)

/-- The value of a finite magnitude in units of the smallest subnormal (00_scope.md R7: exponent 0 is zero or
subnormal, otherwise the leading 1 is implicit). An infinity reads as the power of two above every finite value. -/
def magValue (F : FloatFormat) (mag : Nat) : Nat :=
  if mag / 2 ^ F.fracBits = 0 then mag
  else (2 ^ F.fracBits + mag % 2 ^ F.fracBits) * 2 ^ (mag / 2 ^ F.fracBits - 1)

/-- The signed value in units of the smallest subnormal. -/
def bitsValue (F : FloatFormat) (x : FloatBits) : Int :=
  if x.neg then -(magValue F x.mag : Int) else (magValue F x.mag : Int)

/-! ### Rounding -/

/-- The integer nearest `num / den`, ties to even (00_scope.md R8). -/
def roundNearestEven (num den : Nat) : Nat :=
  if 2 * (num % den) < den then num / den
  else if den < 2 * (num % den) then num / den + 1
  else if num / den % 2 = 0 then num / den
  else num / den + 1

/-- The exponent above the subnormal one at which `num / den` has its leading bit in the format's precision. -/
def roundShift (F : FloatFormat) (num den : Nat) : Nat := Nat.log2 (num / den) - F.fracBits

/-- The magnitude nearest `num / den` units, ties to even; past the largest finite value it is the infinity, and
subnormal results are kept (00_scope.md R8). The significand is added into the exponent field, so that a carry out of
it moves to the next exponent. -/
def roundMag (F : FloatFormat) (num den : Nat) : Nat :=
  min (roundShift F num den * 2 ^ F.fracBits + roundNearestEven num (den * 2 ^ roundShift F num den)) (infMag F)

/-! ### Operations on patterns taken apart -/

/-- The NaN an operation returns; which one is never observable (00_scope.md R8, 93 U8; log 7). -/
def quietNaN (F : FloatFormat) : FloatBits := ⟨false, infMag F + 2 ^ (F.fracBits - 1)⟩

/-- Addition (00_scope.md R8): `inf − inf` is a NaN; an exact zero of operands of opposite signs is `+0`. -/
def addBits (F : FloatFormat) (x y : FloatBits) : FloatBits :=
  if isNaNBits F x || isNaNBits F y then quietNaN F
  else if isInfBits F x then (if isInfBits F y && (x.neg != y.neg) then quietNaN F else x)
  else if isInfBits F y then y
  else if bitsValue F x + bitsValue F y = 0 then ⟨x.neg && y.neg, 0⟩
  else ⟨decide (bitsValue F x + bitsValue F y < 0), roundMag F (bitsValue F x + bitsValue F y).natAbs 1⟩

/-- Multiplication (00_scope.md R8): `0 · inf` is a NaN. The product of two values in units is in squared units. -/
def mulBits (F : FloatFormat) (x y : FloatBits) : FloatBits :=
  if isNaNBits F x || isNaNBits F y then quietNaN F
  else if isInfBits F x || isInfBits F y then
    (if x.mag = 0 ∨ y.mag = 0 then quietNaN F else ⟨x.neg != y.neg, infMag F⟩)
  else ⟨x.neg != y.neg, roundMag F (magValue F x.mag * magValue F y.mag) (2 ^ unitExp F)⟩

/-- Division (00_scope.md R8): `0 / 0` and `inf / inf` are NaNs, `x / 0` is an infinity of sign `sign(x) xor sign(0)`. -/
def divBits (F : FloatFormat) (x y : FloatBits) : FloatBits :=
  if isNaNBits F x || isNaNBits F y then quietNaN F
  else if isInfBits F x then (if isInfBits F y then quietNaN F else ⟨x.neg != y.neg, infMag F⟩)
  else if isInfBits F y then ⟨x.neg != y.neg, 0⟩
  else if y.mag = 0 then (if x.mag = 0 then quietNaN F else ⟨x.neg != y.neg, infMag F⟩)
  else ⟨x.neg != y.neg, roundMag F (magValue F x.mag * 2 ^ unitExp F) (magValue F y.mag)⟩

/-- Quiet less-than (00_scope.md R9): false on a NaN, `−0` equals `+0`, infinities at the ends. -/
def ltBits (F : FloatFormat) (x y : FloatBits) : Bool :=
  !isNaNBits F x && !isNaNBits F y && decide (bitsValue F x < bitsValue F y)

/-- Quiet less-or-equal (00_scope.md R9). -/
def leBits (F : FloatFormat) (x y : FloatBits) : Bool :=
  !isNaNBits F x && !isNaNBits F y && decide (bitsValue F x ≤ bitsValue F y)

/-- Quiet equality (00_scope.md R9). -/
def eqBits (F : FloatFormat) (x y : FloatBits) : Bool :=
  !isNaNBits F x && !isNaNBits F y && decide (bitsValue F x = bitsValue F y)

/-- The integer nearest the exact value of a finite pattern, ties to the larger magnitude (00_scope.md R14). -/
def rhaBits (F : FloatFormat) (x : FloatBits) : Int :=
  if x.neg then -((2 * magValue F x.mag + 2 ^ unitExp F) / 2 ^ (unitExp F + 1) : Nat)
  else ((2 * magValue F x.mag + 2 ^ unitExp F) / 2 ^ (unitExp F + 1) : Nat)

/-! ### binary32 on words -/

/-- A word taken apart: bit 31 is the sign (00_scope.md R7). -/
def unpack32 (a : Word) : FloatBits := ⟨a.getLsbD 31, a.toNat % 2 ^ 31⟩

/-- The word of a sign and a magnitude. -/
def pack32 (x : FloatBits) : Word := BitVec.ofNat 32 ((if x.neg then 2 ^ 31 else 0) + x.mag)

/-- `isNaN32` (00_scope.md R9). -/
def isNaN32 (a : Word) : Bool := isNaNBits binary32 (unpack32 a)

/-- `isFinite32` (00_scope.md R9). -/
def isFinite32 (a : Word) : Bool := isFiniteBits binary32 (unpack32 a)

/-- The exact value of a finite word in units of 2 to the power −149 (00_scope.md R7). -/
def value32 (a : Word) : Int := bitsValue binary32 (unpack32 a)

/-- `fadd32` (00_scope.md R8). -/
def fadd32 (a b : Word) : Word := pack32 (addBits binary32 (unpack32 a) (unpack32 b))

/-- `fneg32` flips bit 31 and changes nothing else (00_scope.md R8). -/
def fneg32 (a : Word) : Word := a ^^^ 0x80000000

/-- `fsub32` (00_scope.md R8): the sum with the negated operand, exact result and sign of zero alike. -/
def fsub32 (a b : Word) : Word := fadd32 a (fneg32 b)

/-- `fmul32` (00_scope.md R8). -/
def fmul32 (a b : Word) : Word := pack32 (mulBits binary32 (unpack32 a) (unpack32 b))

/-- `fdiv32` (00_scope.md R8). -/
def fdiv32 (a b : Word) : Word := pack32 (divBits binary32 (unpack32 a) (unpack32 b))

/-- `flt32` (00_scope.md R9). -/
def flt32 (a b : Word) : Bool := ltBits binary32 (unpack32 a) (unpack32 b)

/-- `fle32` (00_scope.md R9). -/
def fle32 (a b : Word) : Bool := leBits binary32 (unpack32 a) (unpack32 b)

/-- `feq32` (00_scope.md R9). -/
def feq32 (a b : Word) : Bool := eqBits binary32 (unpack32 a) (unpack32 b)

/-- `i2f32` (00_scope.md R11): the binary32 value nearest the integer, ties to even. -/
def i2f32 (n : Int) : Word := pack32 ⟨decide (n < 0), roundMag binary32 (n.natAbs * 2 ^ unitExp binary32) 1⟩

/-- `clamp32` (00_scope.md R14). -/
def clamp32 (v lo hi : Word) : Word := if flt32 v lo then lo else if flt32 hi v then hi else v

/-- `rha` at binary32 (00_scope.md R14). -/
def rha32 (v : Word) : Int := rhaBits binary32 (unpack32 v)

/-! ### binary64 on double words (00_scope.md R10) -/

/-- A double word taken apart: bit 63 is the sign (00_scope.md R7). -/
def unpack64 (a : DWord) : FloatBits := ⟨a.getLsbD 63, a.toNat % 2 ^ 63⟩

/-- The double word of a sign and a magnitude. -/
def pack64 (x : FloatBits) : DWord := BitVec.ofNat 64 ((if x.neg then 2 ^ 63 else 0) + x.mag)

/-- `isNaN32` at binary64. -/
def isNaN64 (a : DWord) : Bool := isNaNBits binary64 (unpack64 a)

/-- `isFinite32` at binary64. -/
def isFinite64 (a : DWord) : Bool := isFiniteBits binary64 (unpack64 a)

/-- The exact value of a finite double word in units of 2 to the power −1074 (00_scope.md R7). -/
def value64 (a : DWord) : Int := bitsValue binary64 (unpack64 a)

/-- The binary64 pattern equal to a binary32 one: its value in the smaller unit, always exact (00_scope.md R10). -/
def widenBits (x : FloatBits) : FloatBits :=
  if isNaNBits binary32 x then quietNaN binary64
  else if isInfBits binary32 x then ⟨x.neg, infMag binary64⟩
  else ⟨x.neg, roundMag binary64 (magValue binary32 x.mag * 2 ^ (unitExp binary64 - unitExp binary32)) 1⟩

/-- `f32to64` (00_scope.md R10). -/
def f32to64 (a : Word) : DWord := pack64 (widenBits (unpack32 a))

/-- `fmul64` (00_scope.md R10). -/
def fmul64 (a b : DWord) : DWord := pack64 (mulBits binary64 (unpack64 a) (unpack64 b))

/-- `flt64` (00_scope.md R10). -/
def flt64 (a b : DWord) : Bool := ltBits binary64 (unpack64 a) (unpack64 b)

/-- `fle64` (00_scope.md R10). -/
def fle64 (a b : DWord) : Bool := leBits binary64 (unpack64 a) (unpack64 b)

/-- `clamp64` (00_scope.md R14). -/
def clamp64 (v lo hi : DWord) : DWord := if flt64 v lo then lo else if flt64 hi v then hi else v

/-- `rha` at binary64 (00_scope.md R14). -/
def rha64 (v : DWord) : Int := rhaBits binary64 (unpack64 v)

/-! ### Constants (00_scope.md R13) -/

/-- `TWO_PI`. -/
def twoPi : Word := 0x40C90FDB
/-- `K_SAW`, 2/π. -/
def kSaw : Word := 0x3F22F983
/-- `K_SQR`, 4/π. -/
def kSqr : Word := 0x3FA2F983
/-- `K_TRI`, 8/π². -/
def kTri : Word := 0x3F4F817B
/-- `+0`. -/
def fZero : Word := 0x00000000
/-- `0.5`. -/
def fHalf : Word := 0x3F000000
/-- `1.0`. -/
def fOne : Word := 0x3F800000
/-- `−1.0`. -/
def fNegOne : Word := 0xBF800000
/-- `2.0`. -/
def fTwo : Word := 0x40000000
/-- `4.0`. -/
def fFour : Word := 0x40800000
/-- `127.5`. -/
def f127p5 : Word := 0x42FF0000
/-- `255.0`. -/
def f255 : Word := 0x437F0000
/-- `32767.0`. -/
def f32767 : Word := 0x46FFFE00
/-- `32768.0`. -/
def f32768 : Word := 0x47000000
/-- `−32768.0`. -/
def fNeg32768 : Word := 0xC7000000
/-- `2147483647.0` in binary64. -/
def d2147483647 : DWord := 0x41DFFFFFFFC00000
/-- `2147483648.0` in binary64. -/
def d2147483648 : DWord := 0x41E0000000000000
/-- `−2147483648.0` in binary64. -/
def dNeg2147483648 : DWord := 0xC1E0000000000000

/-! ### The sine -/

/-- Property S1 of 00_scope.md R12 for one result: finite and in [−1, 1]. -/
def inUnitBall (y : Word) : Bool := isFinite32 y && fle32 fNegOne y && fle32 y fOne

/-- `SIN32` (00_scope.md R12): the open parameter, confined to properties S1 and S2. Every function with S1 and S2 is this
one for some `Config.sineRaw` (itself), and this one has S1 and S2 for every `Config.sineRaw`; on a NaN or an infinity it
is the parameter, never applied there (log 4). -/
def sin32 (x : Word) : Word :=
  if x = 0x00000000 ∨ x = 0x80000000 then x
  else if isFinite32 x && !inUnitBall (Config.sineRaw x) then fZero
  else Config.sineRaw x

end Sys2Proof.Machine
end

