-- ==== Sys2Proof/Machine/Operands.lean ====
section
/-! DEFINITION. What the commands compute from their operands before and besides the wrap loop: the defined domain
(60_exceptions.md R152), the phase increments (40_nco_sine_naive.md R81), the harmonic count (41_bandlimited.md R101 to
R106), the naive and band-limited samples (R84 to R88, R107 to R110) and the PCM codes (42_pcm_encoder.md R120 to R126). -/

namespace Sys2Proof.Machine

/-- `P[pr]` (10_state.md R21). -/
def State.phase (s : State) (pr : Fin 16) : Word := s.p[pr]

/-- `DomainOK` (60_exceptions.md R152). -/
def domainOK (f r p0 : Word) : Bool :=
  isFinite32 f && (isFinite32 r && flt32 fZero r) && isFinite32 p0

/-- The increment of the radian family: product first, then quotient (40_nco_sine_naive.md R81). -/
def radianInc (f r : Word) : Word := fdiv32 (fmul32 twoPi f) r

/-- The increment of the unit family (40_nco_sine_naive.md R81). -/
def unitInc (f r : Word) : Word := fdiv32 f r

/-! ### The harmonic count -/

/-- The Nyquist frequency (41_bandlimited.md R102). -/
def nyquist (r : Word) : Word := fdiv32 r fTwo

/-- The search loop of 41_bandlimited.md R104 and R106 from the count `h`, which stops at the first count whose candidate
partial is not below Nyquist; `none` is the fault HarmonicRange, when the count would pass `h + left`. -/
def harmonicSearch (below : Nat → Bool) : (left h : Nat) → Option Nat
  | 0, h => if below h then none else some h
  | left + 1, h => if below h then harmonicSearch below left (h + 1) else some h

/-- `AUTOH_SAW` (41_bandlimited.md R103, R104; conflict C1): `none` is HarmonicRange. -/
def autohSaw (f r : Word) : Option Nat :=
  if feq32 f fZero then some 0
  else if flt32 f fZero then none
  else harmonicSearch (fun h => flt32 (fmul32 f (i2f32 (h + 1))) (nyquist r)) Config.hmax 0

/-- `AUTOH_ODD` (41_bandlimited.md R103, R106): the factor at `H` = 0 is −1.0. -/
def autohOdd (f r : Word) : Option Nat :=
  if feq32 f fZero then some 0
  else if flt32 f fZero then none
  else (harmonicSearch (fun h => flt32 (fmul32 f (i2f32 (2 * (h : Int) - 1))) (nyquist r)) Config.hmax 0).map
    (fun h => h - 1)

/-- The choice of the count (41_bandlimited.md R101): an explicit nonzero count verbatim, otherwise auto mode. -/
def harmonicCount (hc : Nat) (auto : Option Nat) : Option Nat := if hc ≠ 0 then some hc else auto

/-! ### Samples from the updated phase -/

/-- `ADVSQR` (40_nco_sine_naive.md R86). -/
def squareSample (p1 : Word) : Word := if fle32 p1 fHalf then fOne else fNegOne

/-- `ADVSAW` (40_nco_sine_naive.md R87). -/
def sawSample (p1 : Word) : Word := fneg32 (fsub32 (fmul32 fTwo p1) fOne)

/-- `ADVTRI` (40_nco_sine_naive.md R88). -/
def triangleSample (p1 : Word) : Word :=
  if fle32 p1 fHalf then fsub32 (fmul32 fFour p1) fOne
  else fsub32 (fmul32 fFour (fsub32 fOne p1)) fOne

/-- The harmonic sum (41_bandlimited.md R110): from `+0`, the terms `i` = 1 … `h` in ascending order, each taken into the
accumulator by one rounded operation. -/
def harmonicSum (addTerm : Nat → Word → Word) : Nat → Word
  | 0 => fZero
  | i + 1 => addTerm (i + 1) (harmonicSum addTerm i)

/-- One term of the saw (41_bandlimited.md R107): SIN32(n · p1) / n. -/
def sawTerm (p1 : Word) (i : Nat) : Word := fdiv32 (sin32 (fmul32 (i2f32 i) p1)) (i2f32 i)

/-- The odd harmonic number 2i − 1 as a float (41_bandlimited.md R108, R109). -/
def oddHarmonic (i : Nat) : Word := i2f32 (2 * (i : Int) - 1)

/-- One term of the square (41_bandlimited.md R108): SIN32(k · p1) / k. -/
def squareTerm (p1 : Word) (i : Nat) : Word := fdiv32 (sin32 (fmul32 (oddHarmonic i) p1)) (oddHarmonic i)

/-- One term of the triangle (41_bandlimited.md R109): SIN32(k · p1) / (k · k). -/
def triangleTerm (p1 : Word) (i : Nat) : Word :=
  fdiv32 (sin32 (fmul32 (oddHarmonic i) p1)) (fmul32 (oddHarmonic i) (oddHarmonic i))

/-- Whether term `i` of the triangle is added (41_bandlimited.md R109): (i is odd) = (TRI_FIRST_SIGN = +1). -/
def triangleTermPositive (i : Nat) : Bool := decide (i % 2 = 1) == Config.triFirstSignPositive

/-- `ADVBLSAW` (41_bandlimited.md R107). -/
def blSawSample (h : Nat) (p1 : Word) : Word :=
  fmul32 (harmonicSum (fun i acc => fadd32 acc (sawTerm p1 i)) h) kSaw

/-- `ADVBLSQR` (41_bandlimited.md R108). -/
def blSquareSample (h : Nat) (p1 : Word) : Word :=
  fmul32 (harmonicSum (fun i acc => fadd32 acc (squareTerm p1 i)) h) kSqr

/-- `ADVBLTRI` (41_bandlimited.md R109). -/
def blTriangleSample (h : Nat) (p1 : Word) : Word :=
  fmul32 (harmonicSum (fun i acc =>
    if triangleTermPositive i then fadd32 acc (triangleTerm p1 i) else fsub32 acc (triangleTerm p1 i)) h) kTri

/-! ### PCM codes of a sample that is no NaN -/

/-- The 8-bit code (42_pcm_encoder.md R122): unsigned, offset. -/
def code8 (x : Word) : Int := rha32 (clamp32 (fmul32 (fadd32 x fOne) f127p5) fZero f255)

/-- The 16-bit code (42_pcm_encoder.md R124, R125): the negative scale exactly when `x` is below zero. -/
def code16 (x : Word) : Int :=
  rha32 (clamp32 (if flt32 x fZero then fmul32 x f32768 else fmul32 x f32767) fNeg32768 f32767)

/-- The 32-bit code (42_pcm_encoder.md R126): scale, clamp and rounding in binary64, the sign test in binary32. -/
def code32 (x : Word) : Int :=
  rha64 (clamp64 (if flt32 x fZero then fmul64 (f32to64 x) d2147483648 else fmul64 (f32to64 x) d2147483647)
    dNeg2147483648 d2147483647)

end Sys2Proof.Machine
end

