-- ==== Sys2Proof/Machine/Ops.lean ====
section
/-! DEFINITION. The named operations on the state: register write, response, fault, commit, hang (10_state.md R26;
60_exceptions.md R151, R158), the wrap loop (40_nco_sine_naive.md R82, R85), acceptance and reset (10_state.md R27;
70_reset_and_hazards.md R180), and what the host may do (R194). -/

namespace Sys2Proof.Machine

/-- The outcome of one step of the block. -/
abbrev StepOutcome := Host.Outcome State Fault Refusal

/-- `P[pr] <- v` (10_state.md R21, R23). -/
def State.setPhase (s : State) (pr : Fin 16) (v : Word) : State := { s with p := s.p.set pr v }

/-- `respond(ST, NB, RES)` (00_scope.md R15): the response appears and `BUSY` falls (10_state.md R27). -/
def State.respond (s : State) (r : Response) : State := { s with busy := false, resp := some r }

/-- TAKING A FAULT, `raise <Fault>` (60_exceptions.md R150, R151): the fault response, one `FSTAT` bit, nothing else. There is
no return from it: the next command is a fresh start (R155, R159). -/
def State.raise (s : State) (c : FaultCause) : State :=
  { s with fstat := recordFault s.fstat c }.respond ⟨c.code, 0, 0⟩

/-- The commit of an advance command (40_nco_sine_naive.md R80 step 7): the phase and the sample appear together. -/
def State.commit (s : State) (pr : Fin 16) (p1 sample : Word) : State :=
  (s.setPhase pr p1).respond ⟨0, 4, sample⟩

/-- A command that never responds (60_exceptions.md R158): nothing is written, `BUSY` stays 1, no response. -/
def State.hang (s : State) : State := { s with busy := true, resp := none }

/-! ### The wrap loop -/

/-- What one pass of the loop of 40_nco_sine_naive.md R82 does. -/
inductive WrapPass where
  /-- Neither bound is violated: the loop returns. -/
  | done
  /-- The loop goes on with this phase. -/
  | again (p : Word)
deriving DecidableEq, Repr

/-- One pass of the loop (40_nco_sine_naive.md R82; conflict C5): below zero add, otherwise at or above `m` subtract. -/
def wrapPass (m p : Word) : WrapPass :=
  if flt32 p fZero then .again (fadd32 p m)
  else if fle32 m p then .again (fsub32 p m)
  else .done

/-- At most `fuel` passes of the loop; `none` where it has not returned, at once after an absorbed step (R85: from there on
the phase never changes). -/
def wrapLoop (m : Word) : (fuel : Nat) → (p : Word) → Option Word
  | 0, _ => none
  | fuel + 1, p =>
    match wrapPass m p with
    | .done => some p
    | .again q => if q = p then none else wrapLoop m fuel q

/-- `WRAP(p, m)` (40_nco_sine_naive.md R82, R85): `none` is the hang. A pass depends on the phase alone and there are 2^32 phases,
so a loop that has not returned after 2^32 passes has met a phase twice and never returns (log 6). -/
def wrap (p m : Word) : Option Word := wrapLoop m 4294967296 p

/-- The end of an advance command (40_nco_sine_naive.md R80, steps 5 to 7): wrap, sample, commit; or the hang of R85. -/
def finishAdvance (pr : Fin 16) (start m : Word) (sample : Word → Word) (s : State) : StepOutcome :=
  match wrap start m with
  | some p1 => .next (s.commit pr p1 (sample p1))
  | none => .next s.hang

/-- An advance command without harmonics (40_nco_sine_naive.md R80, R83): operand check, then phase, sample, commit. -/
def advance (pr : Fin 16) (f r inc m : Word) (sample : Word → Word) (s : State) : StepOutcome :=
  if domainOK f r (s.phase pr) then finishAdvance pr (fadd32 (s.phase pr) inc) m sample s
  else .next (s.raise .operandFault)

/-- A band-limited advance command (41_bandlimited.md R100): operand check, harmonic count, then phase, sum, commit. -/
def advanceBandlimited (pr : Fin 16) (f r : Word) (count : Option Nat) (sample : Nat → Word → Word) (s : State) :
    StepOutcome :=
  if domainOK f r (s.phase pr) then
    match count with
    | some h => finishAdvance pr (fadd32 (s.phase pr) (radianInc f r)) twoPi (sample h) s
    | none => .next (s.raise .harmonicRange)
  else .next (s.raise .operandFault)

/-- An encode command (42_pcm_encoder.md R120, R123): a NaN faults before any arithmetic, otherwise the code is the result. -/
def encodeSample (x : Word) (nb : BitVec 3) (code : Word → Word) (s : State) : StepOutcome :=
  if isNaN32 x then .next (s.raise .encodeNaN) else .next (s.respond ⟨0, nb, code x⟩)

/-! ### Acceptance, reset, and the host -/

/-- The block accepts a command (10_state.md R27): `BUSY` rises, and the response of the previous command is over. -/
def State.accept (s : State) (c : Command) (rest : List Command) : State :=
  { s with busy := true, cmd := c, held := rest, resp := none }

/-- Reset is asserted (70_reset_and_hazards.md R180, R181): the command in progress is abandoned without response or writes,
held commands are dropped, and the phases are drawn anew. -/
def State.takeReset (s : State) : State := State.afterReset (s.resets + 1)

/-- The host presents a command (70_reset_and_hazards.md R194). -/
def State.present (s : State) (c : Command) : State := { s with held := s.held ++ [c] }

/-- The host asserts reset, at any time (70_reset_and_hazards.md R180, R194). -/
def State.assertReset (s : State) : State := { s with rst := true }

/-- Byte lane `k` of a response, `RES[8k+7:8k]` (20_memory.md R40). -/
def Response.lane (r : Response) (k : Nat) : Byte := r.res.extractLsb' (8 * k) 8

/-- The bytes a response carries into the PCM stream: lanes 0 to `NB` − 1 in that order (20_memory.md R40). -/
def Response.bytes (r : Response) : List Byte := (List.range r.nb.toNat).map r.lane

end Sys2Proof.Machine
end

