-- ==== Sys2Proof/Machine/Access.lean ====
section
/-! DEFINITION. The register-access commands (43_register_access.md). -/

namespace Sys2Proof.Machine

/-- `PHWR` (43_register_access.md R140): all 32 bits as they stand, no check. -/
def execPhwr (pr : Fin 16) (v : Word) (s : State) : StepOutcome :=
  .next ((s.setPhase pr v).respond ⟨0, 0, 0⟩)

/-- `PHRD` (43_register_access.md R141). -/
def execPhrd (pr : Fin 16) (s : State) : StepOutcome := .next (s.respond ⟨0, 4, s.phase pr⟩)

/-- `RDFS` (43_register_access.md R142). -/
def execRdfs (s : State) : StepOutcome := .next (s.respond ⟨0, 4, s.fstat.setWidth 32⟩)

end Sys2Proof.Machine
end

