-- ==== Sys2Proof/Machine/Bandlimited.lean ====
section
/-! DEFINITION. The three band-limited commands (41_bandlimited.md). -/

namespace Sys2Proof.Machine

/-- `ADVBLSQR` (41_bandlimited.md R108). -/
def execAdvblsqr (pr : Fin 16) (hc : Nat) (f r : Word) (s : State) : StepOutcome :=
  advanceBandlimited pr f r (harmonicCount hc (autohOdd f r)) blSquareSample s

/-- `ADVBLSAW` (41_bandlimited.md R107). -/
def execAdvblsaw (pr : Fin 16) (hc : Nat) (f r : Word) (s : State) : StepOutcome :=
  advanceBandlimited pr f r (harmonicCount hc (autohSaw f r)) blSawSample s

/-- `ADVBLTRI` (41_bandlimited.md R109). -/
def execAdvbltri (pr : Fin 16) (hc : Nat) (f r : Word) (s : State) : StepOutcome :=
  advanceBandlimited pr f r (harmonicCount hc (autohOdd f r)) blTriangleSample s

end Sys2Proof.Machine
end

