-- ==== Sys2Proof/Machine/Encoder.lean ====
section
/-! DEFINITION. The three encode commands (42_pcm_encoder.md); the codes are zero-extended into `RES` (30_encoding.md R69). -/

namespace Sys2Proof.Machine

/-- `ENC8` (42_pcm_encoder.md R122). -/
def execEnc8 (x : Word) (s : State) : StepOutcome :=
  encodeSample x 1 (fun x => (BitVec.ofInt 8 (code8 x)).setWidth 32) s

/-- `ENC16` (42_pcm_encoder.md R124). -/
def execEnc16 (x : Word) (s : State) : StepOutcome :=
  encodeSample x 2 (fun x => (BitVec.ofInt 16 (code16 x)).setWidth 32) s

/-- `ENC32` (42_pcm_encoder.md R126). -/
def execEnc32 (x : Word) (s : State) : StepOutcome :=
  encodeSample x 4 (fun x => BitVec.ofInt 32 (code32 x)) s

end Sys2Proof.Machine
end

