-- ==== Sys2Proof/Machine/Nco.lean ====
section
/-! DEFINITION. The four NCO commands that are not band-limited (40_nco_sine_naive.md). -/

namespace Sys2Proof.Machine

/-- `ADVSIN` (40_nco_sine_naive.md R84). -/
def execAdvsin (pr : Fin 16) (f r : Word) (s : State) : StepOutcome :=
  advance pr f r (radianInc f r) twoPi sin32 s

/-- `ADVSQR` (40_nco_sine_naive.md R86). -/
def execAdvsqr (pr : Fin 16) (f r : Word) (s : State) : StepOutcome :=
  advance pr f r (unitInc f r) fOne squareSample s

/-- `ADVSAW` (40_nco_sine_naive.md R87). -/
def execAdvsaw (pr : Fin 16) (f r : Word) (s : State) : StepOutcome :=
  advance pr f r (unitInc f r) fOne sawSample s

/-- `ADVTRI` (40_nco_sine_naive.md R88). -/
def execAdvtri (pr : Fin 16) (f r : Word) (s : State) : StepOutcome :=
  advance pr f r (unitInc f r) fOne triangleSample s

end Sys2Proof.Machine
end

