-- ==== Sys2Proof/Machine/Dispatch.lean ====
section
/-! DEFINITION. The dispatch: one arm per command of the opcode map (30_encoding.md R65). -/

namespace Sys2Proof.Machine

def exec (i : Instr) (s : State) : Host.Outcome State Fault Refusal :=
  match i with
  | .advsin pr f r => Sys2Proof.Machine.execAdvsin pr f r s
  | .advsqr pr f r => Sys2Proof.Machine.execAdvsqr pr f r s
  | .advsaw pr f r => Sys2Proof.Machine.execAdvsaw pr f r s
  | .advtri pr f r => Sys2Proof.Machine.execAdvtri pr f r s
  | .advblsqr pr hc f r => Sys2Proof.Machine.execAdvblsqr pr hc f r s
  | .advblsaw pr hc f r => Sys2Proof.Machine.execAdvblsaw pr hc f r s
  | .advbltri pr hc f r => Sys2Proof.Machine.execAdvbltri pr hc f r s
  | .enc8 x => Sys2Proof.Machine.execEnc8 x s
  | .enc16 x => Sys2Proof.Machine.execEnc16 x s
  | .enc32 x => Sys2Proof.Machine.execEnc32 x s
  | .phwr pr v => Sys2Proof.Machine.execPhwr pr v s
  | .phrd pr => Sys2Proof.Machine.execPhrd pr s
  | .rdfs => Sys2Proof.Machine.execRdfs s

end Sys2Proof.Machine
end

