-- ==== Sys2Proof/Machine/Step.lean ====
section
/-! DEFINITION. One step of the block. The reset input comes first (70_reset_and_hazards.md R180); then the accepted command is
executed whole (00_scope.md R16, 10_state.md R26); an idle block accepts the next command the handshake holds (R27), or
stays idle (60_exceptions.md R169). -/

namespace Sys2Proof.Machine

/-- The accepted command runs: decoded by `CW` alone (60_exceptions.md R153), executed, or ended with IllegalCommand. -/
def runCommand (s : State) : Host.Outcome State Fault Refusal :=
  match decode s.cmd with
  | .ok i => exec i s
  | .error _ => .next (s.raise .illegalCommand)

/-- One step. -/
def step (s : State) : Host.Outcome State Fault Refusal :=
  if s.rst then .next s.takeReset
  else if s.busy then runCommand s
  else match s.held with
    | [] => .next s
    | c :: rest => .next (s.accept c rest)

/-- The state in which the command whose bits are `w` has been accepted, so that the next step executes it (log 2): the triple
stands in `cmd`, `BUSY` is 1, and the reset input is not asserted. -/
def State.withFetchWord (s : State) (nbits w : Nat) : State :=
  { s with busy := true, cmd := commandOfBits (w % 2 ^ nbits), rst := false }

end Sys2Proof.Machine
end

