-- ==== Sys2Proof/Machine/Assembler.lean ====
section
/-! DEFINITION. The assembler of one line (30_encoding.md R70, R71): not hardware, but the notation in which the spec writes its
programs. The line's meaning is the command it stands for; `encode` emits the triple. -/

namespace Sys2Proof.Machine

/-- What a line of source is (30_encoding.md R70, R71). -/
inductive AsmLine where
  /-- Only blanks or a comment. -/
  | blank
  /-- One command. -/
  | command (i : Instr)
  /-- An assembly error: the line stands for no command. -/
  | error
deriving DecidableEq, Repr

/-- White space between the words of a line. -/
def isBlankChar (c : Char) : Bool := c == ' ' || c == '\t' || c == '\r'

/-- A word without the blanks around it. -/
def trimBlanks (l : List Char) : List Char := ((l.dropWhile isBlankChar).reverse.dropWhile isBlankChar).reverse

/-- The operands of a line, separated by commas. -/
def splitCommas : List Char → List (List Char)
  | [] => [[]]
  | c :: cs =>
    match splitCommas cs with
    | [] => [[c]]
    | w :: ws => if c == ',' then [] :: w :: ws else (c :: w) :: ws

/-- A digit of a base up to 16. -/
def digitOf (base : Nat) (c : Char) : Option Nat :=
  let v := if '0' ≤ c ∧ c ≤ '9' then c.toNat - '0'.toNat
    else if 'a' ≤ c ∧ c ≤ 'f' then c.toNat - 'a'.toNat + 10
    else if 'A' ≤ c ∧ c ≤ 'F' then c.toNat - 'A'.toNat + 10
    else base
  if v < base then some v else none

/-- The number that digits continue from `n`. -/
def digitsFrom (base : Nat) : Nat → List Char → Option Nat
  | n, [] => some n
  | n, c :: cs => match digitOf base c with
    | some d => digitsFrom base (base * n + d) cs
    | none => none

/-- An unsigned decimal number: at least one digit. -/
def parseNat (l : List Char) : Option Nat := if l.isEmpty then none else digitsFrom 10 0 l

/-- A decimal number with an optional sign. -/
def parseInt : List Char → Option Int
  | '-' :: l => (parseNat l).map fun n => -(n : Int)
  | '+' :: l => (parseNat l).map fun n => (n : Int)
  | l => (parseNat l).map fun n => (n : Int)

/-- The binary32 value nearest `digits · 10^e`, ties to even (30_encoding.md R70). -/
def decimalMag (digits : Nat) (e : Int) : Nat :=
  roundMag binary32 (digits * 10 ^ e.toNat * 2 ^ unitExp binary32) (10 ^ (-e).toNat)

/-- An unsigned decimal literal: digits, an optional fraction, an optional decimal exponent (log 14). -/
def parseDecimal (neg : Bool) (l : List Char) : Option Word :=
  let isExpMark := fun c => c == 'e' || c == 'E'
  let mantissa := l.takeWhile (fun c => !isExpMark c)
  let fraction := (mantissa.dropWhile (· != '.')).drop 1
  let exponent := match l.dropWhile (fun c => !isExpMark c) with
    | [] => some 0
    | _ :: e => parseInt e
  match parseNat (mantissa.takeWhile (· != '.') ++ fraction), exponent with
  | some digits, some e => some (pack32 ⟨neg, decimalMag digits (e - fraction.length)⟩)
  | _, _ => none

/-- A float operand (30_encoding.md R70): `0x` and 8 hex digits taken as they stand, or a decimal literal. -/
def parseFloat : List Char → Option Word
  | '0' :: 'x' :: l => if l.length = 8 then (digitsFrom 16 0 l).map (BitVec.ofNat 32) else none
  | '-' :: l => parseDecimal true l
  | '+' :: l => parseDecimal false l
  | l => parseDecimal false l

/-- A register operand `pN`, 0 ≤ N ≤ 15 decimal (30_encoding.md R70). -/
def parseReg : List Char → Option (Fin 16)
  | 'p' :: l => match parseNat l with
    | some n => if h : n < 16 then some ⟨n, h⟩ else none
    | none => none
  | _ => none

/-- The count operand `h=<count>`, 0 to 65535 decimal (30_encoding.md R70). -/
def parseCount : List Char → Option Nat
  | 'h' :: '=' :: l => match parseNat l with
    | some n => if n ≤ Config.hmax then some n else none
    | none => none
  | _ => none

/-- The operands `pN, <freq>, <rate>`. -/
def asmAdvance (mk : Fin 16 → Word → Word → Instr) : List (List Char) → Option Instr
  | [reg, f, r] => match parseReg reg, parseFloat f, parseFloat r with
    | some pr, some f, some r => some (mk pr f r)
    | _, _, _ => none
  | _ => none

/-- The operands `pN, <freq>, <rate> [, h=<count>]`; without a count it is 0, auto mode. -/
def asmBandlimited (mk : Fin 16 → Nat → Word → Word → Instr) : List (List Char) → Option Instr
  | [reg, f, r] => match parseReg reg, parseFloat f, parseFloat r with
    | some pr, some f, some r => some (mk pr 0 f r)
    | _, _, _ => none
  | [reg, f, r, h] => match parseReg reg, parseFloat f, parseFloat r, parseCount h with
    | some pr, some f, some r, some hc => some (mk pr hc f r)
    | _, _, _, _ => none
  | _ => none

/-- The operand `<sample>`. -/
def asmSample (mk : Word → Instr) : List (List Char) → Option Instr
  | [x] => (parseFloat x).map mk
  | _ => none

/-- The operands `pN, <phase>`. -/
def asmPhwr : List (List Char) → Option Instr
  | [reg, v] => match parseReg reg, parseFloat v with
    | some pr, some v => some (.phwr pr v)
    | _, _ => none
  | _ => none

/-- The operand `pN`. -/
def asmReg (mk : Fin 16 → Instr) : List (List Char) → Option Instr
  | [reg] => (parseReg reg).map mk
  | _ => none

/-- The operands `<bits>, <sample>` of the pseudo-instruction `enc` (30_encoding.md R71). -/
def asmEnc : List (List Char) → Option Instr
  | [bits, x] => match parseNat bits, parseFloat x with
    | some bits, some x => pseudoEnc bits x
    | _, _ => none
  | _ => none

/-- No operand. -/
def asmNone (i : Instr) (operands : List (List Char)) : Option Instr := if operands = [[]] then some i else none

/-- The mnemonics and the shape of their operands (30_encoding.md R70, R71). -/
def mnemonics : List (String × (List (List Char) → Option Instr)) :=
  [("advsin", asmAdvance .advsin), ("advsqr", asmAdvance .advsqr), ("advsaw", asmAdvance .advsaw),
   ("advtri", asmAdvance .advtri), ("advblsqr", asmBandlimited .advblsqr), ("advblsaw", asmBandlimited .advblsaw),
   ("advbltri", asmBandlimited .advbltri), ("enc8", asmSample .enc8), ("enc16", asmSample .enc16),
   ("enc32", asmSample .enc32), ("phwr", asmPhwr), ("phrd", asmReg .phrd), ("rdfs", asmNone .rdfs),
   ("phclr", asmReg pseudoPhclr), ("enc", asmEnc)]

/-- The word is the mnemonic, in lower or upper case (30_encoding.md R70). -/
def isMnemonic (word : List Char) (name : String) : Bool :=
  word == name.toList || word == name.toList.map Char.toUpper

/-- One line of source (30_encoding.md R70): a `;` starts a comment, one command a line, operands separated by commas. -/
def assembleLine (line : List Char) : AsmLine :=
  let text := trimBlanks (line.takeWhile (· != ';'))
  if text.isEmpty then .blank
  else
    match mnemonics.find? (fun m => isMnemonic (text.takeWhile (fun c => !isBlankChar c)) m.1) with
    | none => .error
    | some m =>
      match m.2 ((splitCommas (text.dropWhile (fun c => !isBlankChar c))).map trimBlanks) with
      | some i => .command i
      | none => .error

end Sys2Proof.Machine
end

