-- ==== Sys2Proof/Safety.lean ====
section
/-! DEFINITION. The terms in which claims about the block are stated: the wrap loop as the spec writes it, what a valid
response is, the invariant of the response, rounding as the spec words it, and the runs of the block with its host. -/

namespace Sys2Proof.Machine

/-- The loop of 40_nco_sine_naive.md R82 with no bound on its passes: `WrapsTo m p q` says that it returns `q` from `p`. A loop
that never ends returns nothing (R85). -/
inductive WrapsTo (m : Word) : Word → Word → Prop where
  | done (p : Word) : flt32 p fZero = false → fle32 m p = false → WrapsTo m p p
  | add (p q : Word) : flt32 p fZero = true → WrapsTo m (fadd32 p m) q → WrapsTo m p q
  | sub (p q : Word) : flt32 p fZero = false → fle32 m p = true → WrapsTo m (fsub32 p m) q → WrapsTo m p q

/-- The phase is in `[0, m)` in the sense of the comparisons of 00_scope.md R9 (10_state.md R24). -/
def InRange (m p : Word) : Prop := fle32 fZero p = true ∧ flt32 p m = true

/-- `n` is the integer nearest `v / 2^unit`, and of larger magnitude when `v` lies half-way (00_scope.md R14). -/
def NearestAwayFromZero (unit : Nat) (v n : Int) : Prop :=
  2 * |v - n * 2 ^ unit| ≤ 2 ^ unit ∧ (2 * |v - n * 2 ^ unit| = 2 ^ unit → |v| < |n| * 2 ^ unit)

/-- The phase register a command names in `PR`; none for the commands of class E (30_encoding.md R62). -/
def instrRegister : Instr → Option (Fin 16)
  | .advsin pr _ _ => some pr
  | .advsqr pr _ _ => some pr
  | .advsaw pr _ _ => some pr
  | .advtri pr _ _ => some pr
  | .advblsqr pr _ _ _ => some pr
  | .advblsaw pr _ _ _ => some pr
  | .advbltri pr _ _ _ => some pr
  | .enc8 _ => none
  | .enc16 _ => none
  | .enc32 _ => none
  | .phwr pr _ => some pr
  | .phrd pr => some pr
  | .rdfs => none

/-- The seven advance commands (00_scope.md R19). -/
def isAdvance : Instr → Bool
  | .advsin _ _ _ => true
  | .advsqr _ _ _ => true
  | .advsaw _ _ _ => true
  | .advtri _ _ _ => true
  | .advblsqr _ _ _ _ => true
  | .advblsaw _ _ _ _ => true
  | .advbltri _ _ _ _ => true
  | .enc8 _ => false
  | .enc16 _ => false
  | .enc32 _ => false
  | .phwr _ _ => false
  | .phrd _ => false
  | .rdfs => false

/-- The period of the family an advance command belongs to (00_scope.md R19, 40_nco_sine_naive.md R82); `1.0` is also given to the
commands that have none, for which nothing is stated. -/
def period : Instr → Word
  | .advsin _ _ _ => twoPi
  | .advsqr _ _ _ => fOne
  | .advsaw _ _ _ => fOne
  | .advtri _ _ _ => fOne
  | .advblsqr _ _ _ _ => twoPi
  | .advblsaw _ _ _ _ => twoPi
  | .advbltri _ _ _ _ => twoPi
  | .enc8 _ => fOne
  | .enc16 _ => fOne
  | .enc32 _ => fOne
  | .phwr _ _ => fOne
  | .phrd _ => fOne
  | .rdfs => fOne

/-- A response the encoding of 30_encoding.md R69 allows: status 0 to 4, `NB` in 0, 1, 2, 4, a fault with `NB` = 0 and `RES` = 0, and
an encode response with its lanes from `NB` on zero (20_memory.md R40). -/
def Response.Valid (r : Response) : Prop :=
  r.st.toNat ≤ 4 ∧ (r.nb = 0 ∨ r.nb = 1 ∨ r.nb = 2 ∨ r.nb = 4) ∧ (r.st ≠ 0 → r.nb = 0 ∧ r.res = 0) ∧
  ∀ k, r.nb.toNat ≤ k → k < 4 → r.lane k = 0

/-- The invariant of the response (30_encoding.md R69, 60_exceptions.md R150, R151): while a command is in progress there is no
response; a response is valid; and a fault that is reported is recorded in `FSTAT`. -/
def State.ResponseInv (s : State) : Prop :=
  (s.busy = true → s.resp = none) ∧
  ∀ r, s.resp = some r → r.Valid ∧ ∀ c : FaultCause, r.st = c.code → s.recorded c = true

/-- No fault recorded since reset (60_exceptions.md R159). -/
def State.NoFaultRecorded (s : State) : Prop := s.fstat = 0

/-- A block whose command never responds (60_exceptions.md R158): `BUSY` is 1 and a step changes nothing. -/
def State.Hung (s : State) : Prop := s.busy = true ∧ s.resp = none ∧ step s = .next s

/-- What the block and its host can make of a state (70_reset_and_hazards.md R194): steps of the block, and between them commands
presented and reset asserted at any time. -/
inductive Reaches (s : State) : State → Prop where
  | refl : Reaches s s
  | step {t u : State} : Reaches s t → Machine.step t = .next u → Reaches s u
  | present {t : State} (c : Command) : Reaches s t → Reaches s (t.present c)
  | assertReset {t : State} : Reaches s t → Reaches s t.assertReset

end Sys2Proof.Machine
end

