-- ==== Sys2Proof/Certificates/Slice0/Obligations.lean ====
section
/-! DEFINITION. The statements about the block. Numbers are written as the bit patterns of 00_scope.md R13; an exact value is an
integer in units of 2 to the power −149 (binary32) or −1074 (binary64). -/

open Sys2Proof Sys2Proof.Machine

/-! ### Encoding -/

/-- Decoding the triple the encoder emits gives the instruction back, every field at every value (30_encoding.md R61, R65, R70). -/
def Obligations.DecodeEncodeAgree : Prop :=
  ∀ i : Instr, i.wellFormed = true → decode (encode i) = .ok i

/-- Every legal word is the word of exactly the instruction it decodes to, and that instruction is well formed (30_encoding.md R66:
'Every 32-bit word is either exactly one legal command or illegal'). -/
def Obligations.DecodedWordIsItsEncoding : Prop :=
  ∀ (c : Command) (i : Instr), decode c = .ok i →
    i.wellFormed = true ∧ (encode i).cw = c.cw ∧ decode ⟨c.cw, (encode i).opa, (encode i).opb⟩ = .ok i

/-- The decoding procedure (30_encoding.md R72), in the numbers of its four fields. -/
def Obligations.DecodingProcedure : Prop :=
  ∀ w a b : Word,
    let op := w.toNat % 16
    let pr := w.toNat / 16 % 16
    let rsv := w.toNat / 256 % 256
    let hc := w.toNat / 65536
    let reg : Fin 16 := Fin.ofNat 16 pr
    let illegal := ∃ e, decode ⟨w, a, b⟩ = .error e
    (rsv ≠ 0 → illegal) ∧
    (rsv = 0 →
      (op ∈ [1, 2, 3, 4, 11, 12] → hc ≠ 0 → illegal) ∧
      (op ∈ [8, 9, 10, 13] → (pr ≠ 0 ∨ hc ≠ 0) → illegal) ∧
      (op ∈ [0, 14, 15] → illegal) ∧
      (hc = 0 →
        (op = 1 → decode ⟨w, a, b⟩ = .ok (.advsin reg a b)) ∧ (op = 2 → decode ⟨w, a, b⟩ = .ok (.advsqr reg a b)) ∧
        (op = 3 → decode ⟨w, a, b⟩ = .ok (.advsaw reg a b)) ∧ (op = 4 → decode ⟨w, a, b⟩ = .ok (.advtri reg a b)) ∧
        (op = 11 → decode ⟨w, a, b⟩ = .ok (.phwr reg a)) ∧ (op = 12 → decode ⟨w, a, b⟩ = .ok (.phrd reg))) ∧
      (op = 5 → decode ⟨w, a, b⟩ = .ok (.advblsqr reg hc a b)) ∧
      (op = 6 → decode ⟨w, a, b⟩ = .ok (.advblsaw reg hc a b)) ∧
      (op = 7 → decode ⟨w, a, b⟩ = .ok (.advbltri reg hc a b)) ∧
      (pr = 0 → hc = 0 →
        (op = 8 → decode ⟨w, a, b⟩ = .ok (.enc8 a)) ∧ (op = 9 → decode ⟨w, a, b⟩ = .ok (.enc16 a)) ∧
        (op = 10 → decode ⟨w, a, b⟩ = .ok (.enc32 a)) ∧ (op = 13 → decode ⟨w, a, b⟩ = .ok .rdfs)))

/-- A word is legal exactly when it selects a row of the opcode map, and no word selects two (30_encoding.md R65, R66). -/
def Obligations.LegalExactlyWhenOneRowIsSelected : Prop :=
  (∀ c : Command, (∃ i, decode c = .ok i) ↔ selectsRow c.cw = true) ∧
  ∀ w : Word, (opcodeRows.filter fun row => (w &&& row.2) == row.1).length ≤ 1

/-- Words written out from the encoding tables decode to the instructions they stand for (95_test_vectors.md 2.1; 30_encoding.md R65). -/
def Obligations.SampleWordsDecode : Prop :=
  ∀ a b : Word,
    decode ⟨0x000000F1, a, b⟩ = .ok (.advsin 15 a b) ∧ decode ⟨0x00160036, a, b⟩ = .ok (.advblsaw 3 22 a b) ∧
    decode ⟨0xFFFF00F5, a, b⟩ = .ok (.advblsqr 15 65535 a b) ∧ decode ⟨0x00000007, a, b⟩ = .ok (.advbltri 0 0 a b) ∧
    decode ⟨0x00000009, a, b⟩ = .ok (.enc16 a) ∧ decode ⟨0x0000005B, a, b⟩ = .ok (.phwr 5 a) ∧
    decode ⟨0x0000005C, a, b⟩ = .ok (.phrd 5) ∧ decode ⟨0x0000000D, a, b⟩ = .ok .rdfs ∧
    decode ⟨0x00000000, a, b⟩ = .error .reservedOpcode ∧ decode ⟨0x00000101, a, b⟩ = .error .reservedField ∧
    decode ⟨0x00010041, a, b⟩ = .error .unusedCount ∧ decode ⟨0x0000001D, a, b⟩ = .error .unusedRegister

/-! ### The step -/

/-- While a command is in progress and reset is not asserted, a step executes the instruction its word decodes to, and adds nothing
around it (00_scope.md R16; the two-step transaction is the model's, log 1). -/
def Obligations.StepRunsTheAcceptedCommand : Prop :=
  ∀ (s : State) (i : Instr), s.rst = false → s.busy = true → decode s.cmd = .ok i → step s = exec i s

/-- An idle block accepts the first command held; with none held it stays as it is; a busy block accepts nothing
(10_state.md R27, 60_exceptions.md R169). That acceptance is a step of its own is the model's choice (log 1). -/
def Obligations.CommandsAreAcceptedOneAtATime : Prop :=
  ∀ s : State, s.rst = false →
    (s.busy = false → s.held = [] → step s = .next s) ∧
    (∀ c rest, s.busy = false → s.held = c :: rest →
      step s = .next { s with busy := true, cmd := c, held := rest, resp := none }) ∧
    (∀ t, s.busy = true → step s = .next t → t.held = s.held ∧ t.cmd = s.cmd)

/-- No step stops the machine: every one answers a next state (60_exceptions.md R150, R155, R159). -/
def Obligations.EveryStepAnswersANextState : Prop :=
  ∀ s : State, ∃ t, step s = .next t

/-- The illegal words are those of the four cases of 30_encoding.md R66; one of them ends with IllegalCommand, decided from `CW`
alone, and no other word does (60_exceptions.md R153). -/
def Obligations.IllegalWordFaults : Prop :=
  ∀ s : State, s.rst = false → s.busy = true →
    let w := s.cmd.cw.toNat
    let illegal :=
      w % 16 ∈ [0, 14, 15] ∨ w / 256 % 256 ≠ 0 ∨
      (w % 16 ∈ [1, 2, 3, 4, 8, 9, 10, 11, 12, 13] ∧ w / 65536 ≠ 0) ∨ (w % 16 ∈ [8, 9, 10, 13] ∧ w / 16 % 16 ≠ 0)
    (illegal → step s = .next { s with fstat := s.fstat ||| 0b0001, busy := false, resp := some ⟨1, 0, 0⟩ }) ∧
    (¬ illegal → ∀ t a, step s = .next t → t.resp = some a → a.st ≠ 1)

/-! ### The NCO commands -/

/-- `ADVSIN` (40_nco_sine_naive.md R84): the wrapped phase and its sine, and nothing else, wherever the operands are in the
defined domain and the loop of R82 ends. -/
def Obligations.AdvsinResult : Prop :=
  ∀ (pr : Fin 16) (f r : Word) (s : State) (p1 : Word),
    isFinite32 f = true → isFinite32 r = true → flt32 0x00000000 r = true → isFinite32 (s.phase pr) = true →
    WrapsTo 0x40C90FDB (fadd32 (s.phase pr) (fdiv32 (fmul32 0x40C90FDB f) r)) p1 →
    exec (.advsin pr f r) s = .next { s with p := s.p.set pr p1, busy := false, resp := some ⟨0, 4, sin32 p1⟩ }

/-- `ADVSQR` (40_nco_sine_naive.md R86). -/
def Obligations.AdvsqrResult : Prop :=
  ∀ (pr : Fin 16) (f r : Word) (s : State) (p1 : Word),
    isFinite32 f = true → isFinite32 r = true → flt32 0x00000000 r = true → isFinite32 (s.phase pr) = true →
    WrapsTo 0x3F800000 (fadd32 (s.phase pr) (fdiv32 f r)) p1 →
    exec (.advsqr pr f r) s = .next { s with
      p := s.p.set pr p1, busy := false,
      resp := some ⟨0, 4, if fle32 p1 0x3F000000 then 0x3F800000 else 0xBF800000⟩ }

/-- `ADVSAW` (40_nco_sine_naive.md R87). -/
def Obligations.AdvsawResult : Prop :=
  ∀ (pr : Fin 16) (f r : Word) (s : State) (p1 : Word),
    isFinite32 f = true → isFinite32 r = true → flt32 0x00000000 r = true → isFinite32 (s.phase pr) = true →
    WrapsTo 0x3F800000 (fadd32 (s.phase pr) (fdiv32 f r)) p1 →
    exec (.advsaw pr f r) s = .next { s with
      p := s.p.set pr p1, busy := false,
      resp := some ⟨0, 4, fneg32 (fsub32 (fmul32 0x40000000 p1) 0x3F800000)⟩ }

/-- `ADVTRI` (40_nco_sine_naive.md R88). -/
def Obligations.AdvtriResult : Prop :=
  ∀ (pr : Fin 16) (f r : Word) (s : State) (p1 : Word),
    isFinite32 f = true → isFinite32 r = true → flt32 0x00000000 r = true → isFinite32 (s.phase pr) = true →
    WrapsTo 0x3F800000 (fadd32 (s.phase pr) (fdiv32 f r)) p1 →
    exec (.advtri pr f r) s = .next { s with
      p := s.p.set pr p1, busy := false,
      resp := some ⟨0, 4,
        if fle32 p1 0x3F000000 then fsub32 (fmul32 0x40800000 p1) 0x3F800000
        else fsub32 (fmul32 0x40800000 (fsub32 0x3F800000 p1)) 0x3F800000⟩ }

/-- The naive samples lie where 40_nco_sine_naive.md R90 says, and the sine in [−1, +1]. -/
def Obligations.NaiveSampleRanges : Prop :=
  ∀ (pr : Fin 16) (f r : Word) (s t : State) (x : Response), t.resp = some x → x.st = 0 →
    (exec (.advsqr pr f r) s = .next t → x.res = 0x3F800000 ∨ x.res = 0xBF800000) ∧
    (exec (.advsaw pr f r) s = .next t → flt32 0xBF800000 x.res = true ∧ fle32 x.res 0x3F800000 = true) ∧
    (exec (.advtri pr f r) s = .next t → fle32 0xBF800000 x.res = true ∧ fle32 x.res 0x3F800000 = true) ∧
    (exec (.advsin pr f r) s = .next t → fle32 0xBF800000 x.res = true ∧ fle32 x.res 0x3F800000 = true)

/-- A zero frequency holds a phase that is in the range of its family, for each of the seven advance commands: the register keeps
its pattern, but for −0 under an increment of +0, which becomes +0 (−0 under −0 stays); the sample is that of the held
phase, `+0` in auto mode; and the same command issued again repeats it (40_nco_sine_naive.md R89, corner cases of R84). -/
def Obligations.ZeroFrequencyHoldsThePhase : Prop :=
  ∀ (pr : Fin 16) (hc : Nat) (f r : Word) (s : State),
    feq32 f 0x00000000 = true → isFinite32 r = true → flt32 0x00000000 r = true →
    let p0 := s.phase pr
    let p1 := if f = 0x00000000 ∧ p0 = 0x80000000 then 0x00000000 else p0
    let kept := if f = 0x00000000 ∧ p0 = 0x80000000 then s.p.set pr 0x00000000 else s.p
    let done := fun sample : Word => { s with p := kept, busy := false, resp := some ⟨0, 4, sample⟩ }
    (p0 = 0x80000000 → sin32 p1 = p1) ∧
    (InRange 0x40C90FDB p0 →
      exec (.advsin pr f r) s = .next (done (sin32 p1)) ∧
      (hc = 0 → ∀ i ∈ [Instr.advblsqr pr hc f r, .advblsaw pr hc f r, .advbltri pr hc f r],
        exec i s = .next (done 0x00000000)) ∧
      (hc ≠ 0 →
        exec (.advblsqr pr hc f r) s = .next (done (blSquareSample hc p1)) ∧
        exec (.advblsaw pr hc f r) s = .next (done (blSawSample hc p1)) ∧
        exec (.advbltri pr hc f r) s = .next (done (blTriangleSample hc p1)))) ∧
    (InRange 0x3F800000 p0 →
      exec (.advsqr pr f r) s = .next (done (if fle32 p1 0x3F000000 then 0x3F800000 else 0xBF800000)) ∧
      exec (.advsaw pr f r) s = .next (done (fneg32 (fsub32 (fmul32 0x40000000 p1) 0x3F800000))) ∧
      exec (.advtri pr f r) s = .next (done (
        if fle32 p1 0x3F000000 then fsub32 (fmul32 0x40800000 p1) 0x3F800000
        else fsub32 (fmul32 0x40800000 (fsub32 0x3F800000 p1)) 0x3F800000))) ∧
    ∀ i ∈ [Instr.advsin pr f r, .advsqr pr f r, .advsaw pr f r, .advtri pr f r, .advblsqr pr hc f r, .advblsaw pr hc f r,
        .advbltri pr hc f r],
      ∀ t, InRange (period i) p0 → exec i s = .next t → exec i t = .next t

/-! ### The band-limited commands -/

/-- `ADVBLSAW` (41_bandlimited.md R107): `acc` is the accumulator of its loop, `h` the count of R101. -/
def Obligations.AdvblsawResult : Prop :=
  ∀ (pr : Fin 16) (hc : Nat) (f r : Word) (s : State) (h : Nat) (p1 : Word) (acc : Nat → Word),
    isFinite32 f = true → isFinite32 r = true → flt32 0x00000000 r = true → isFinite32 (s.phase pr) = true →
    (hc ≠ 0 ∧ h = hc ∨ hc = 0 ∧ autohSaw f r = some h) →
    WrapsTo 0x40C90FDB (fadd32 (s.phase pr) (fdiv32 (fmul32 0x40C90FDB f) r)) p1 →
    acc 0 = 0x00000000 →
    (∀ i : Nat, acc (i + 1) =
      fadd32 (acc i) (fdiv32 (sin32 (fmul32 (i2f32 ((i : Int) + 1)) p1)) (i2f32 ((i : Int) + 1)))) →
    exec (.advblsaw pr hc f r) s = .next { s with
      p := s.p.set pr p1, busy := false, resp := some ⟨0, 4, fmul32 (acc h) 0x3F22F983⟩ }

/-- `ADVBLSQR` (41_bandlimited.md R108): the odd harmonics k = 2i − 1. -/
def Obligations.AdvblsqrResult : Prop :=
  ∀ (pr : Fin 16) (hc : Nat) (f r : Word) (s : State) (h : Nat) (p1 : Word) (acc : Nat → Word),
    isFinite32 f = true → isFinite32 r = true → flt32 0x00000000 r = true → isFinite32 (s.phase pr) = true →
    (hc ≠ 0 ∧ h = hc ∨ hc = 0 ∧ autohOdd f r = some h) →
    WrapsTo 0x40C90FDB (fadd32 (s.phase pr) (fdiv32 (fmul32 0x40C90FDB f) r)) p1 →
    acc 0 = 0x00000000 →
    (∀ i : Nat, acc (i + 1) =
      fadd32 (acc i) (fdiv32 (sin32 (fmul32 (i2f32 (2 * (i : Int) + 1)) p1)) (i2f32 (2 * (i : Int) + 1)))) →
    exec (.advblsqr pr hc f r) s = .next { s with
      p := s.p.set pr p1, busy := false, resp := some ⟨0, 4, fmul32 (acc h) 0x3FA2F983⟩ }

/-- `ADVBLTRI` (41_bandlimited.md R109): weights 1/k², the sign alternating from TRI_FIRST_SIGN on. -/
def Obligations.AdvbltriResult : Prop :=
  ∀ (pr : Fin 16) (hc : Nat) (f r : Word) (s : State) (h : Nat) (p1 : Word) (acc : Nat → Word),
    isFinite32 f = true → isFinite32 r = true → flt32 0x00000000 r = true → isFinite32 (s.phase pr) = true →
    (hc ≠ 0 ∧ h = hc ∨ hc = 0 ∧ autohOdd f r = some h) →
    WrapsTo 0x40C90FDB (fadd32 (s.phase pr) (fdiv32 (fmul32 0x40C90FDB f) r)) p1 →
    acc 0 = 0x00000000 →
    (∀ i : Nat,
      let k := i2f32 (2 * (i : Int) + 1)
      let term := fdiv32 (sin32 (fmul32 k p1)) (fmul32 k k)
      acc (i + 1) =
        if decide ((i + 1) % 2 = 1) = Config.triFirstSignPositive then fadd32 (acc i) term else fsub32 (acc i) term) →
    exec (.advbltri pr hc f r) s = .next { s with
      p := s.p.set pr p1, busy := false, resp := some ⟨0, 4, fmul32 (acc h) 0x3F4F817B⟩ }

/-- `AUTOH_SAW` is the largest count in 0 … 65535 whose highest partial is below Nyquist, and it faults exactly when harmonic 65536
would still be below (41_bandlimited.md R104, R105; conflict C1). -/
def Obligations.SawCountIsTheLargest : Prop :=
  ∀ f r : Word, isFinite32 f = true → flt32 0x00000000 f = true → isFinite32 r = true → flt32 0x00000000 r = true →
    (∀ h, autohSaw f r = some h →
      h ≤ 65535 ∧ (h ≠ 0 → flt32 (fmul32 f (i2f32 h)) (fdiv32 r 0x40000000) = true) ∧
      ∀ k : Nat, h < k → k ≤ 65536 → flt32 (fmul32 f (i2f32 k)) (fdiv32 r 0x40000000) = false) ∧
    (autohSaw f r = none ↔ flt32 (fmul32 f (i2f32 65536)) (fdiv32 r 0x40000000) = true)

/-- `AUTOH_ODD` satisfies the odd-harmonic bound and is at most 65534, and it faults exactly when odd harmonic 131069 would still be
below Nyquist (41_bandlimited.md R106, 60_exceptions.md R154). -/
def Obligations.OddCountBounds : Prop :=
  ∀ f r : Word, isFinite32 f = true → flt32 0x00000000 f = true → isFinite32 r = true → flt32 0x00000000 r = true →
    (∀ h, autohOdd f r = some h →
      h ≤ 65534 ∧ (h ≠ 0 → flt32 (fmul32 f (i2f32 (2 * (h : Int) - 1))) (fdiv32 r 0x40000000) = true) ∧
      flt32 (fmul32 f (i2f32 (2 * (h : Int) + 1))) (fdiv32 r 0x40000000) = false) ∧
    (autohOdd f r = none ↔ flt32 (fmul32 f (i2f32 131069)) (fdiv32 r 0x40000000) = true)

/-- Auto mode at a zero and at a negative frequency, and explicit mode, where neither test is made and a command never raises
HarmonicRange (41_bandlimited.md R103). -/
def Obligations.AutoModeZeroAndNegative : Prop :=
  (∀ f r : Word,
    (feq32 f 0x00000000 = true → autohSaw f r = some 0 ∧ autohOdd f r = some 0) ∧
    (flt32 f 0x00000000 = true → autohSaw f r = none ∧ autohOdd f r = none) ∧
    ∀ hc : Nat, hc ≠ 0 → harmonicCount hc (autohSaw f r) = some hc ∧ harmonicCount hc (autohOdd f r) = some hc) ∧
  (∀ (pr : Fin 16) (f r : Word) (s : State),
    isFinite32 f = true → isFinite32 r = true → flt32 0x00000000 r = true → isFinite32 (s.phase pr) = true →
    flt32 f 0x00000000 = true →
    ∀ i ∈ [Instr.advblsqr pr 0 f r, .advblsaw pr 0 f r, .advbltri pr 0 f r],
      exec i s = .next { s with fstat := s.fstat ||| 0b0100, busy := false, resp := some ⟨3, 0, 0⟩ }) ∧
  ∀ (pr : Fin 16) (hc : Nat) (f r : Word) (s t : State) (a : Response), hc ≠ 0 →
    ∀ i ∈ [Instr.advblsqr pr hc f r, .advblsaw pr hc f r, .advbltri pr hc f r],
      exec i s = .next t → t.resp = some a → a.st ≠ 3

/-- 41_bandlimited.md R102, word for word: the Nyquist frequency is `fdiv32(r, 2.0)`, finite, at least +0, and exactly r/2 except
at the smallest subnormal. EXPECTED TO FAIL: an odd subnormal such as 0x00000003 has no exact half either. -/
def Obligations.NyquistIsExactHalf : Prop :=
  ∀ r : Word, isFinite32 r = true → flt32 0x00000000 r = true →
    nyquist r = fdiv32 r 0x40000000 ∧ isFinite32 (nyquist r) = true ∧ fle32 0x00000000 (nyquist r) = true ∧
    (2 * value32 (nyquist r) = value32 r ∨ r = 0x00000001 ∧ nyquist r = 0x00000000)

/-! ### Phases, the wrap loop and hangs -/

/-- `WRAP` returns exactly what the loop returns, and nothing exactly where the loop never ends; its corner cases
(40_nco_sine_naive.md R82). That `wrap` stops at an absorbed step or after 2^32 passes is the model's deduction (log 6), which the
first clause discharges. -/
def Obligations.WrapIsTheLoop : Prop :=
  (∀ m p q : Word, wrap p m = some q ↔ WrapsTo m p q) ∧
  ∀ m : Word, m = 0x40C90FDB ∨ m = 0x3F800000 →
    wrap 0x80000000 m = some 0x80000000 ∧ wrap m m = some 0x00000000 ∧
    (∀ p, isNaN32 p = true → wrap p m = some p) ∧ wrap 0x7F800000 m = none ∧ wrap 0xFF800000 m = none

/-- After an advance command that responds OK its register is in its family's range, whatever it held before; −0 is in both ranges
(10_state.md R24). -/
def Obligations.PhaseInRangeAfterAdvance : Prop :=
  (∀ (i : Instr) (pr : Fin 16) (s t : State) (x : Response),
    isAdvance i = true → instrRegister i = some pr → exec i s = .next t → t.resp = some x → x.st = 0 →
    InRange (period i) (t.phase pr)) ∧
  InRange 0x40C90FDB 0x80000000 ∧ InRange 0x3F800000 0x80000000

/-- The radian loop ends exactly from the phases of magnitude at most 2^27 (40_nco_sine_naive.md R85 (a)). -/
def Obligations.RadianLoopEndsExactlyUpTo2Pow27 : Prop :=
  ∀ p : Word, isNaN32 p = false → ((∃ q, WrapsTo 0x40C90FDB p q) ↔ |value32 p| ≤ 2 ^ 27 * 2 ^ 149)

/-- The unit loop ends exactly from the phases of magnitude below 16777220, the smallest absorbed magnitude
(40_nco_sine_naive.md R85 (b)). -/
def Obligations.UnitLoopEndsExactlyBelow16777220 : Prop :=
  ∀ p : Word, isNaN32 p = false → ((∃ q, WrapsTo 0x3F800000 p q) ↔ |value32 p| < 16777220 * 2 ^ 149)

/-- From a phase in range and an increment of at most one period the loop makes at most two steps: its third pass returns at the
latest (40_nco_sine_naive.md R85 (d), 70_reset_and_hazards.md R185). -/
def Obligations.AtMostTwoWrapSteps : Prop :=
  ∀ m p0 inc : Word, m = 0x40C90FDB ∨ m = 0x3F800000 → InRange m p0 → isNaN32 inc = false →
    |value32 inc| ≤ value32 m → ∃ q, wrapLoop m 3 (fadd32 p0 inc) = some q

/-- Inside the defined domain neither increment is a NaN, and an advance command whose increment is infinite hangs, a band-limited
one where it has a count (40_nco_sine_naive.md R81, R85; 60_exceptions.md R158). That a hang is a next state with `BUSY` 1 and no
response is the model's representation (log 6). -/
def Obligations.IncrementIsNoNaNAndInfinityHangs : Prop :=
  ∀ (pr : Fin 16) (hc : Nat) (f r : Word) (s : State),
    isFinite32 f = true → isFinite32 r = true → flt32 0x00000000 r = true → isFinite32 (s.phase pr) = true →
    isNaN32 (fdiv32 (fmul32 0x40C90FDB f) r) = false ∧ isNaN32 (fdiv32 f r) = false ∧
    (isFinite32 (fdiv32 (fmul32 0x40C90FDB f) r) = false →
      exec (.advsin pr f r) s = .next { s with busy := true, resp := none } ∧
      (hc ≠ 0 ∨ autohSaw f r ≠ none →
        exec (.advblsaw pr hc f r) s = .next { s with busy := true, resp := none }) ∧
      (hc ≠ 0 ∨ autohOdd f r ≠ none →
        exec (.advblsqr pr hc f r) s = .next { s with busy := true, resp := none } ∧
        exec (.advbltri pr hc f r) s = .next { s with busy := true, resp := none })) ∧
    (isFinite32 (fdiv32 f r) = false →
      exec (.advsqr pr f r) s = .next { s with busy := true, resp := none } ∧
      exec (.advsaw pr f r) s = .next { s with busy := true, resp := none } ∧
      exec (.advtri pr f r) s = .next { s with busy := true, resp := none })

/-- An advance command whose checks pass and whose loop never ends writes nothing and does not respond: `BUSY` stays 1
(60_exceptions.md R158). That this is a next state is the model's representation (log 6). -/
def Obligations.AdvanceHangsWhenTheLoopNeverEnds : Prop :=
  ∀ (pr : Fin 16) (hc : Nat) (f r : Word) (s : State),
    isFinite32 f = true → isFinite32 r = true → flt32 0x00000000 r = true → isFinite32 (s.phase pr) = true →
    ((∀ q, ¬ WrapsTo 0x3F800000 (fadd32 (s.phase pr) (fdiv32 f r)) q) →
      exec (.advsqr pr f r) s = .next { s with busy := true, resp := none } ∧
      exec (.advsaw pr f r) s = .next { s with busy := true, resp := none } ∧
      exec (.advtri pr f r) s = .next { s with busy := true, resp := none }) ∧
    ((∀ q, ¬ WrapsTo 0x40C90FDB (fadd32 (s.phase pr) (fdiv32 (fmul32 0x40C90FDB f) r)) q) →
      exec (.advsin pr f r) s = .next { s with busy := true, resp := none } ∧
      (hc ≠ 0 ∨ autohSaw f r ≠ none →
        exec (.advblsaw pr hc f r) s = .next { s with busy := true, resp := none }) ∧
      (hc ≠ 0 ∨ autohOdd f r ≠ none →
        exec (.advblsqr pr hc f r) s = .next { s with busy := true, resp := none } ∧
        exec (.advbltri pr hc f r) s = .next { s with busy := true, resp := none }))

/-- A hung block stays as it is for every number of steps, also behind a command presented to it, and only reset ends it
(60_exceptions.md R158, 70_reset_and_hazards.md R180). The representation of a hang and of what waits is the model's (log 6,
log 9). -/
def Obligations.HungBlockStaysHung : Prop :=
  ∀ (s : State) (i : Instr), s.rst = false → s.busy = true → s.resp = none → decode s.cmd = .ok i →
    exec i s = .next { s with busy := true, resp := none } →
    (∀ n, Sys2Proof.core.run n s = .next s) ∧
    (∀ c n, Sys2Proof.core.run n (s.present c) = .next (s.present c)) ∧
    ∃ t, step s.assertReset = .next t ∧ t.busy = false

/-! ### The encoder -/

/-- `ENC8` (42_pcm_encoder.md R122): scale, clamp, round half away from zero, one byte. -/
def Obligations.Enc8Result : Prop :=
  ∀ (x : Word) (s : State) (n : Int), isNaN32 x = false →
    NearestAwayFromZero 149
      (value32 (clamp32 (fmul32 (fadd32 x 0x3F800000) 0x42FF0000) 0x00000000 0x437F0000)) n →
    exec (.enc8 x) s = .next { s with busy := false, resp := some ⟨0, 1, BitVec.ofInt 32 n⟩ } ∧ 0 ≤ n ∧ n ≤ 255

/-- `ENC16` (42_pcm_encoder.md R124, R125). -/
def Obligations.Enc16Result : Prop :=
  ∀ (x : Word) (s : State) (n : Int), isNaN32 x = false →
    NearestAwayFromZero 149
      (value32 (clamp32 (if flt32 x 0x00000000 then fmul32 x 0x47000000 else fmul32 x 0x46FFFE00)
        0xC7000000 0x46FFFE00)) n →
    exec (.enc16 x) s =
      .next { s with busy := false, resp := some ⟨0, 2, (BitVec.ofInt 16 n).setWidth 32⟩ } ∧ -32768 ≤ n ∧ n ≤ 32767

/-- `ENC32` (42_pcm_encoder.md R126): scale, clamp and rounding in binary64. -/
def Obligations.Enc32Result : Prop :=
  ∀ (x : Word) (s : State) (n : Int), isNaN32 x = false →
    NearestAwayFromZero 1074
      (value64 (clamp64
        (if flt32 x 0x00000000 then fmul64 (f32to64 x) 0x41E0000000000000 else fmul64 (f32to64 x) 0x41DFFFFFFFC00000)
        0xC1E0000000000000 0x41DFFFFFFFC00000)) n →
    exec (.enc32 x) s = .next { s with busy := false, resp := some ⟨0, 4, BitVec.ofInt 32 n⟩ } ∧
    -2147483648 ≤ n ∧ n ≤ 2147483647

/-- The boundary property of the source (42_pcm_encoder.md R128). -/
def Obligations.EncoderBoundaries : Prop :=
  ∀ s : State,
    exec (.enc8 0xBF800000) s = .next { s with busy := false, resp := some ⟨0, 1, 0x00⟩ } ∧
    exec (.enc8 0x00000000) s = .next { s with busy := false, resp := some ⟨0, 1, 0x80⟩ } ∧
    exec (.enc8 0x3F800000) s = .next { s with busy := false, resp := some ⟨0, 1, 0xFF⟩ } ∧
    exec (.enc16 0xBF800000) s = .next { s with busy := false, resp := some ⟨0, 2, 0x8000⟩ } ∧
    exec (.enc16 0x00000000) s = .next { s with busy := false, resp := some ⟨0, 2, 0x0000⟩ } ∧
    exec (.enc16 0x3F800000) s = .next { s with busy := false, resp := some ⟨0, 2, 0x7FFF⟩ } ∧
    exec (.enc32 0xBF800000) s = .next { s with busy := false, resp := some ⟨0, 4, 0x80000000⟩ } ∧
    exec (.enc32 0x00000000) s = .next { s with busy := false, resp := some ⟨0, 4, 0x00000000⟩ } ∧
    exec (.enc32 0x3F800000) s = .next { s with busy := false, resp := some ⟨0, 4, 0x7FFFFFFF⟩ }

/-- Each encoder is monotone in the sample (42_pcm_encoder.md R127 (c)). -/
def Obligations.EncodersAreMonotone : Prop :=
  ∀ (x y : Word) (s t u : State) (a b : Response), fle32 x y = true → t.resp = some a → u.resp = some b →
    (exec (.enc8 x) s = .next t → exec (.enc8 y) s = .next u → a.res.toNat ≤ b.res.toNat) ∧
    (exec (.enc16 x) s = .next t → exec (.enc16 y) s = .next u →
      (a.res.setWidth 16).toInt ≤ (b.res.setWidth 16).toInt) ∧
    (exec (.enc32 x) s = .next t → exec (.enc32 y) s = .next u → a.res.toInt ≤ b.res.toInt)

/-- Samples from 1 up take the maximum code and samples from −1 down the minimum code, infinities among them, silently
(42_pcm_encoder.md R127 (d), R121). -/
def Obligations.EncodersSaturate : Prop :=
  ∀ (x : Word) (s : State),
    (fle32 0x3F800000 x = true →
      exec (.enc8 x) s = .next { s with busy := false, resp := some ⟨0, 1, 0xFF⟩ } ∧
      exec (.enc16 x) s = .next { s with busy := false, resp := some ⟨0, 2, 0x7FFF⟩ } ∧
      exec (.enc32 x) s = .next { s with busy := false, resp := some ⟨0, 4, 0x7FFFFFFF⟩ }) ∧
    (fle32 x 0xBF800000 = true →
      exec (.enc8 x) s = .next { s with busy := false, resp := some ⟨0, 1, 0x00⟩ } ∧
      exec (.enc16 x) s = .next { s with busy := false, resp := some ⟨0, 2, 0x8000⟩ } ∧
      exec (.enc32 x) s = .next { s with busy := false, resp := some ⟨0, 4, 0x80000000⟩ })

/-- The byte lanes of an encode response (20_memory.md R40): the lanes from `NB` on are zero, and the stream is the result word in
little-endian order; the example of −1.0 in 16 bits. -/
def Obligations.PcmLanesAreLittleEndian : Prop :=
  (∀ (i : Instr) (x : Word) (s t : State) (a : Response), i = .enc8 x ∨ i = .enc16 x ∨ i = .enc32 x →
    exec i s = .next t → t.resp = some a → a.st = 0 →
    (a.nb = 1 ∨ a.nb = 2 ∨ a.nb = 4) ∧ a.bytes.length = a.nb.toNat ∧ (∀ k, a.nb.toNat ≤ k → k < 4 → a.lane k = 0) ∧
    (∀ k, (h : k < a.bytes.length) → a.bytes[k] = a.res.extractLsb' (8 * k) 8) ∧
    a.res.toNat = a.bytes.foldr (fun byte rest => byte.toNat + 256 * rest) 0) ∧
  ∀ (s t : State) (a : Response), exec (.enc16 0xBF800000) s = .next t → t.resp = some a →
    a.res = 0x00008000 ∧ a.nb = 2 ∧ a.bytes = [0x00, 0x80]

/-! ### Register access -/

/-- `PHWR` (43_register_access.md R140): all 32 bits, unchecked; its worked example. -/
def Obligations.PhwrResult : Prop :=
  (∀ (pr : Fin 16) (v : Word) (s : State),
    exec (.phwr pr v) s = .next { s with p := s.p.set pr v, busy := false, resp := some ⟨0, 0, 0x00000000⟩ }) ∧
  ∀ v b : Word, decode ⟨0x0000005B, v, b⟩ = .ok (.phwr 5 v)

/-- `PHRD` (43_register_access.md R141): whatever pattern is there, and no register changes; its worked example. -/
def Obligations.PhrdResult : Prop :=
  (∀ (pr : Fin 16) (s : State),
    exec (.phrd pr) s = .next { s with busy := false, resp := some ⟨0, 4, s.p[pr]⟩ }) ∧
  (∀ a b : Word, decode ⟨0x0000005C, a, b⟩ = .ok (.phrd 5)) ∧
  ∀ s t : State, exec (.phwr 5 0x3F800000) s = .next t →
    exec (.phrd 5) t = .next { t with busy := false, resp := some ⟨0, 4, 0x3F800000⟩ }

/-- `RDFS` (43_register_access.md R142): the register zero-extended, not cleared; its worked example. -/
def Obligations.RdfsResult : Prop :=
  (∀ s : State, exec .rdfs s = .next { s with busy := false, resp := some ⟨0, 4, s.fstat.setWidth 32⟩ } ∧
    (s.fstat.setWidth 32).extractLsb' 4 28 = 0) ∧
  (∀ a b : Word, decode ⟨0x0000000D, a, b⟩ = .ok .rdfs) ∧
  ∀ s t : State, s.fstat = 0 → exec (.enc16 0x7FC00000) s = .next t →
    t.resp = some ⟨4, 0, 0⟩ ∧ exec .rdfs t = .next { t with busy := false, resp := some ⟨0, 4, 0x00000008⟩ }

/-- `PHRD`, `RDFS` and the encode commands have no side effect when they respond OK, so issuing one twice gives the same response
twice; `PHWR` twice leaves the same state as once (20_memory.md R44). -/
def Obligations.ReadsAndEncodesHaveNoSideEffect : Prop :=
  (∀ (i : Instr) (s t : State) (a : Response), isAdvance i = false → (∀ pr v, i ≠ .phwr pr v) →
    exec i s = .next t → t.resp = some a → a.st = 0 →
    t = { s with busy := false, resp := some a } ∧ exec i t = .next t) ∧
  ∀ (pr : Fin 16) (v : Word) (s t : State), exec (.phwr pr v) s = .next t → exec (.phwr pr v) t = .next t

/-! ### Faults -/

/-- A response with a nonzero status is a fault response, and the state is the state before with one `FSTAT` bit set: no phase
register changes (60_exceptions.md R151, R150). -/
def Obligations.FaultResponseIsPrecise : Prop :=
  ∀ (s t : State) (a : Response), s.rst = false → s.busy = true → step s = .next t → t.resp = some a → a.st ≠ 0 →
    ∃ c : FaultCause, a = ⟨c.code, 0, 0⟩ ∧ c.code.toNat = c.bitIndex + 1 ∧
      t = { s with fstat := s.fstat ||| (1 <<< c.bitIndex), busy := false, resp := some a }

/-- Outside the defined domain each of the seven advance commands raises OperandFault, before any count or loop
(60_exceptions.md R152). -/
def Obligations.OperandFaultOutsideTheDomain : Prop :=
  ∀ (pr : Fin 16) (hc : Nat) (f r : Word) (s : State),
    ¬ (isFinite32 f = true ∧ isFinite32 r = true ∧ flt32 0x00000000 r = true ∧ isFinite32 (s.phase pr) = true) →
    ∀ i ∈ [Instr.advsin pr f r, .advsqr pr f r, .advsaw pr f r, .advtri pr f r, .advblsqr pr hc f r, .advblsaw pr hc f r,
        .advbltri pr hc f r],
      exec i s = .next { s with fstat := s.fstat ||| 0b0010, busy := false, resp := some ⟨2, 0, 0⟩ }

/-- HarmonicRange in auto mode: a negative frequency, or one so low that the search passes 65535; and no other command raises it
(60_exceptions.md R154; 41_bandlimited.md R103, R104, R106). -/
def Obligations.HarmonicRangeFault : Prop :=
  (∀ (pr : Fin 16) (f r : Word) (s : State),
    isFinite32 f = true → isFinite32 r = true → flt32 0x00000000 r = true → isFinite32 (s.phase pr) = true →
    (flt32 f 0x00000000 = true ∨
      flt32 0x00000000 f = true ∧ flt32 (fmul32 f (i2f32 65536)) (fdiv32 r 0x40000000) = true →
      exec (.advblsaw pr 0 f r) s =
        .next { s with fstat := s.fstat ||| 0b0100, busy := false, resp := some ⟨3, 0, 0⟩ }) ∧
    (flt32 f 0x00000000 = true ∨
      flt32 0x00000000 f = true ∧ flt32 (fmul32 f (i2f32 131069)) (fdiv32 r 0x40000000) = true →
      exec (.advblsqr pr 0 f r) s =
        .next { s with fstat := s.fstat ||| 0b0100, busy := false, resp := some ⟨3, 0, 0⟩ } ∧
      exec (.advbltri pr 0 f r) s =
        .next { s with fstat := s.fstat ||| 0b0100, busy := false, resp := some ⟨3, 0, 0⟩ })) ∧
  ∀ (i : Instr) (s t : State) (a : Response), exec i s = .next t → t.resp = some a → a.st = 3 →
    ∃ pr f r, i = .advblsaw pr 0 f r ∨ i = .advblsqr pr 0 f r ∨ i = .advbltri pr 0 f r

/-- An encode command faults with EncodeNaN exactly when its sample is a NaN (42_pcm_encoder.md R123, 60_exceptions.md R156). -/
def Obligations.EncodeNanFault : Prop :=
  ∀ (x : Word) (s : State), ∀ i ∈ [Instr.enc8 x, .enc16 x, .enc32 x],
    (isNaN32 x = true →
      exec i s = .next { s with fstat := s.fstat ||| 0b1000, busy := false, resp := some ⟨4, 0, 0⟩ }) ∧
    (isNaN32 x = false →
      ∃ a : Response, a.st = 0 ∧ exec i s = .next { s with busy := false, resp := some a })

/-- No fault inside the source's domain (60_exceptions.md R162). -/
def Obligations.NoFaultInsideTheDomain : Prop :=
  (∀ (i : Instr) (pr : Fin 16) (hc : Nat) (f r : Word) (s t : State) (a : Response),
    i ∈ [Instr.advsin pr f r, .advsqr pr f r, .advsaw pr f r, .advtri pr f r, .advblsqr pr hc f r, .advblsaw pr hc f r,
      .advbltri pr hc f r] →
    isFinite32 f = true → isFinite32 r = true → flt32 0x00000000 r = true → isFinite32 (s.phase pr) = true →
    exec i s = .next t → t.resp = some a →
    a.st ≠ 1 ∧ a.st ≠ 2 ∧ a.st ≠ 4 ∧
    (hc ≠ 0 → a.st = 0) ∧
    (i = .advblsaw pr hc f r →
      autohSaw f r ≠ none ∨ feq32 f 0x00000000 = true ∨
        (flt32 0x00000000 f = true ∧ fle32 (fdiv32 r 0x40000000) (fmul32 f (i2f32 65536)) = true) → a.st = 0) ∧
    (i = .advblsqr pr hc f r ∨ i = .advbltri pr hc f r →
      autohOdd f r ≠ none ∨ feq32 f 0x00000000 = true → a.st = 0)) ∧
  ∀ (x : Word) (s t : State) (a : Response), ∀ i ∈ [Instr.enc8 x, .enc16 x, .enc32 x],
    isNaN32 x = false → exec i s = .next t → t.resp = some a → a.st = 0

/-- The order of the checks (60_exceptions.md R157): the illegal word first, then the operand, then the count, and all of them
before the wrap loop; only the first failure's bit is set. -/
def Obligations.FaultPriority : Prop :=
  (∀ s : State, s.rst = false → s.busy = true → selectsRow s.cmd.cw = false →
    step s = .next { s with fstat := s.fstat ||| 0b0001, busy := false, resp := some ⟨1, 0, 0⟩ }) ∧
  ∀ (pr : Fin 16) (hc : Nat) (f r : Word) (s : State),
    let auto := [Instr.advblsqr pr 0 f r, .advblsaw pr 0 f r, .advbltri pr 0 f r]
    (isFinite32 f = false ∨ isFinite32 r = false ∨ flt32 0x00000000 r = false ∨ isFinite32 (s.phase pr) = false →
      ∀ i ∈ auto ++ [.advsin pr f r, .advsqr pr f r, .advsaw pr f r, .advtri pr f r, .advblsqr pr hc f r, .advblsaw pr hc f r,
          .advbltri pr hc f r],
        exec i s = .next { s with fstat := s.fstat ||| 0b0010, busy := false, resp := some ⟨2, 0, 0⟩ }) ∧
    (isFinite32 f = true → isFinite32 r = true → flt32 0x00000000 r = true → isFinite32 (s.phase pr) = true →
      flt32 f 0x00000000 = true →
      (∀ q, ¬ WrapsTo 0x40C90FDB (fadd32 (s.phase pr) (fdiv32 (fmul32 0x40C90FDB f) r)) q) →
      ∀ i ∈ auto, exec i s = .next { s with fstat := s.fstat ||| 0b0100, busy := false, resp := some ⟨3, 0, 0⟩ })

/-- A fault bit is cleared by nothing but reset, and is set only by a command that responds with its fault (10_state.md R25). -/
def Obligations.FaultBitsAreSticky : Prop :=
  ∀ s t : State, step s = .next t →
    (s.rst = false → ∀ c : FaultCause, s.recorded c = true → t.recorded c = true) ∧
    (s.rst = false → ∀ c : FaultCause, s.recorded c = false → t.recorded c = true → t.resp = some ⟨c.code, 0, 0⟩) ∧
    (s.rst = true → t.fstat = 0)

/-! ### Isolation, reset, invariants -/

/-- A phase register changes only as the effect of an advance command or a `PHWR` that names it (10_state.md R23). -/
def Obligations.OnlyTheNamedRegisterChanges : Prop :=
  ∀ (s t : State) (j : Fin 16), s.rst = false → step s = .next t → t.phase j ≠ s.phase j →
    s.busy = true ∧ ∃ i, decode s.cmd = .ok i ∧ instrRegister i = some j ∧ (isAdvance i = true ∨ ∃ v, i = .phwr j v)

/-- The result of a command is a function of the triple, of the one register it names, and (for `RDFS` only) of `FSTAT`
(10_state.md R28): two states that agree on those give the same response, the same register and the same new fault bits,
whatever else differs. -/
def Obligations.ResultDependsOnlyOnNamedState : Prop :=
  ∀ s s' t t' : State, s.rst = false → s'.rst = false → s.busy = true → s'.busy = true → s.cmd = s'.cmd →
    (∀ i pr, decode s.cmd = .ok i → instrRegister i = some pr → s.phase pr = s'.phase pr) →
    (decode s.cmd = .ok .rdfs → s.fstat = s'.fstat) →
    step s = .next t → step s' = .next t' →
    t.resp = t'.resp ∧ t.busy = t'.busy ∧
    (∀ i pr, decode s.cmd = .ok i → instrRegister i = some pr → t.phase pr = t'.phase pr) ∧
    ∃ bits, t.fstat = s.fstat ||| bits ∧ t'.fstat = s'.fstat ||| bits

/-- The values reset gives (70_reset_and_hazards.md R181), from every state, also in mid-command, and at `State.reset`. -/
def Obligations.ResetTakesTheResetState : Prop :=
  (∀ s : State, ∃ t, step s.assertReset = .next t ∧ t.fstat = 0 ∧ t.busy = false ∧ t.resp = none ∧ t.held = [] ∧
    t.rst = false) ∧
  State.reset.fstat = 0 ∧ State.reset.busy = false

/-- Every step keeps the invariant of the response, and so does everything the host may do (30_encoding.md R69,
60_exceptions.md R150, R151): no response while busy, every response valid, every reported fault recorded. -/
def Obligations.StepKeepsTheResponseInvariant : Prop :=
  ∀ s : State, s.ResponseInv →
    (∀ t, step s = .next t → t.ResponseInv) ∧ (∀ c, (s.present c).ResponseInv) ∧ s.assertReset.ResponseInv

/-- The invariant of the response holds after reset. -/
def Obligations.ResponseInvariantAtReset : Prop := State.reset.ResponseInv

/-! ### Arithmetic -/

/-- Rounding gives the nearest magnitude of the format, the even one at a tie, and overflows exactly from half-way past the largest
finite value on (00_scope.md R8). -/
def Obligations.RoundingIsNearestEven : Prop :=
  ∀ (F : FloatFormat), F = binary32 ∨ F = binary64 → ∀ num den : Nat, 0 < den →
    (roundMag F num den < infMag F → ∀ k, k < infMag F →
      |(magValue F (roundMag F num den) : Int) * den - num| ≤ |(magValue F k : Int) * den - num| ∧
      (k ≠ roundMag F num den →
        |(magValue F (roundMag F num den) : Int) * den - num| = |(magValue F k : Int) * den - num| →
        roundMag F num den % 2 = 0)) ∧
    (roundMag F num den = infMag F ↔ (magValue F (infMag F - 1) + magValue F (infMag F)) * den ≤ 2 * num)

/-- Every integer the rules convert is converted exactly (00_scope.md R11). -/
def Obligations.IntegersConvertExactly : Prop :=
  ∀ n : Int, -1 ≤ n → n ≤ 131071 → isFinite32 (i2f32 n) = true ∧ value32 (i2f32 n) = n * 2 ^ 149

/-- Widening a binary32 value to binary64 is always exact (00_scope.md R10). -/
def Obligations.WideningIsExact : Prop :=
  ∀ a : Word, isFinite32 a = true → isFinite64 (f32to64 a) = true ∧ value64 (f32to64 a) = value32 a * 2 ^ 925

/-- Properties S1 and S2 of the sine (00_scope.md R12). -/
def Obligations.SineHasS1AndS2 : Prop :=
  (∀ x : Word, isFinite32 x = true →
    isFinite32 (sin32 x) = true ∧ fle32 0xBF800000 (sin32 x) = true ∧ fle32 (sin32 x) 0x3F800000 = true) ∧
  sin32 0x00000000 = 0x00000000 ∧ sin32 0x80000000 = 0x80000000

/-- Every sample an advance command delivers is finite (60_exceptions.md R152, 41_bandlimited.md R111). -/
def Obligations.EverySampleIsFinite : Prop :=
  ∀ (i : Instr) (s t : State) (a : Response), i.wellFormed = true → isAdvance i = true →
    exec i s = .next t → t.resp = some a → a.st = 0 → isFinite32 a.res = true
end

