-- ==== Sys2Proof/Laws/Float.lean ====
section
/-! SUPPORT. The small laws of the arithmetic: taking patterns apart and putting them together, what a magnitude is worth, and that
rounding keeps order and leaves representable values alone. -/

namespace Sys2Proof.Machine

/-! ### Patterns -/

theorem unpack32_mag_lt (a : Word) : (unpack32 a).mag < 2 ^ 31 := Nat.mod_lt _ (by decide)

theorem unpack64_mag_lt (a : DWord) : (unpack64 a).mag < 2 ^ 63 := Nat.mod_lt _ (by decide)

/-- The pattern of a sign and a magnitude reads back as them. -/
theorem unpack32_pack32 (x : FloatBits) (h : x.mag < 2 ^ 31) : unpack32 (pack32 x) = x := by
  obtain ⟨neg, mag⟩ := x
  simp only at h
  have hn : ∀ n : Nat, (BitVec.ofNat 32 n).getLsbD 31 = n.testBit 31 := fun n => by
    rw [BitVec.getLsbD_ofNat]; rfl
  simp only [unpack32, pack32, hn, BitVec.toNat_ofNat, FloatBits.mk.injEq]
  cases neg
  · refine ⟨?_, ?_⟩
    · simpa using Nat.testBit_lt_two_pow h
    · simp only [Bool.false_eq_true, if_false]; omega
  · refine ⟨?_, ?_⟩
    · simp only [if_true]
      rw [Nat.testBit_two_pow_add_eq, Nat.testBit_lt_two_pow h]; rfl
    · simp only [if_true]; omega

/-- A word is the pattern of its own sign and magnitude. -/
theorem pack32_unpack32 (a : Word) : pack32 (unpack32 a) = a := by
  apply BitVec.eq_of_toNat_eq
  have hlt := a.isLt
  have hb : a.getLsbD 31 = decide (2 ^ 31 ≤ a.toNat) := by
    rw [← BitVec.testBit_toNat, Nat.testBit_eq_decide_div_mod_eq]
    have : a.toNat / 2 ^ 31 = 0 ∨ a.toNat / 2 ^ 31 = 1 := by omega
    rcases this with h | h <;> simp only [h] <;> simp <;> omega
  simp only [pack32, unpack32, hb, BitVec.toNat_ofNat]
  by_cases h : 2 ^ 31 ≤ a.toNat
  · simp only [h, decide_true, if_true]; omega
  · simp only [h, decide_false, Bool.false_eq_true, if_false]; omega

/-- Words are equal when their signs and magnitudes are. -/
theorem unpack32_injective : Function.Injective unpack32 := fun a b h => by
  rw [← pack32_unpack32 a, ← pack32_unpack32 b, h]

/-- Negation flips the sign and keeps the magnitude (00_scope.md R8). -/
theorem unpack32_fneg32 (a : Word) : unpack32 (fneg32 a) = ⟨!(unpack32 a).neg, (unpack32 a).mag⟩ := by
  have hm : ∀ b : Word, b.toNat % 2 ^ 31 = (b &&& 0x7FFFFFFF).toNat := fun b => by
    rw [BitVec.toNat_and]
    exact (Nat.and_two_pow_sub_one_eq_mod b.toNat 31).symm
  have h1 : (a ^^^ 0x80000000) &&& 0x7FFFFFFF = a &&& 0x7FFFFFFF := by
    ext i hi
    simp only [BitVec.getElem_and, BitVec.getElem_xor]
    interval_cases i <;> simp
  simp only [unpack32, fneg32, hm, h1]
  simp

/-! ### What a magnitude is worth -/

/-- The value of a magnitude built from a shift and a significand (00_scope.md R7), also where the significand carries. -/
theorem magValue_add (F : FloatFormat) (e m : Nat) (hm : m ≤ 2 ^ (F.fracBits + 1)) (h : e = 0 ∨ 2 ^ F.fracBits ≤ m) :
    magValue F (e * 2 ^ F.fracBits + m) = m * 2 ^ e := by
  have hp : 0 < 2 ^ F.fracBits := Nat.two_pow_pos _
  have h2 : 2 ^ (F.fracBits + 1) = 2 * 2 ^ F.fracBits := by rw [Nat.pow_succ, Nat.mul_comm]
  rw [h2] at hm
  generalize hP : 2 ^ F.fracBits = P at *
  have hdiv : (e * P + m) / P = e + m / P := by
    rw [Nat.add_comm, Nat.add_mul_div_right _ _ hp, Nat.add_comm]
  have hmod : (e * P + m) % P = m % P := by rw [Nat.add_comm, Nat.add_mul_mod_self_right]
  unfold magValue
  rw [hP, hdiv, hmod]
  by_cases hlt : m < P
  · obtain rfl : e = 0 := by omega
    simp [Nat.div_eq_of_lt hlt]
  · by_cases heq : m = 2 * P
    · subst heq
      have : 2 * P / P = 2 := Nat.mul_div_cancel _ hp
      rw [this, Nat.mul_mod_left, if_neg (by omega)]
      have : e + 2 - 1 = e + 1 := by omega
      rw [this, Nat.pow_succ, Nat.add_zero, Nat.mul_comm 2 P, Nat.mul_assoc, Nat.mul_comm 2]
    · have hq : m / P = 1 := by
        rw [Nat.div_eq_iff hp]; omega
      have hr : m % P = m - P := by
        rw [Nat.mod_eq_sub_mod (by omega), Nat.mod_eq_of_lt (by omega)]
      rw [hq, hr, if_neg (by omega)]
      congr 1
      omega

/-- Every magnitude is a shift and a significand, with the leading bit set above the subnormals. -/
theorem mag_split (F : FloatFormat) (k : Nat) :
    ∃ e m, k = e * 2 ^ F.fracBits + m ∧ m < 2 ^ (F.fracBits + 1) ∧ (e = 0 ∨ 2 ^ F.fracBits ≤ m) := by
  have hp : 0 < 2 ^ F.fracBits := Nat.two_pow_pos _
  have h2 : 2 ^ (F.fracBits + 1) = 2 * 2 ^ F.fracBits := by rw [Nat.pow_succ, Nat.mul_comm]
  rw [h2]
  generalize 2 ^ F.fracBits = P at *
  by_cases h : k / P = 0
  · refine ⟨0, k, by omega, ?_, .inl rfl⟩
    have := Nat.div_eq_zero_iff.mp h
    omega
  · obtain ⟨q, hq⟩ := Nat.exists_eq_succ_of_ne_zero h
    rw [Nat.succ_eq_add_one] at hq
    refine ⟨q, P + k % P, ?_, ?_, .inr (by omega)⟩
    · have := Nat.div_add_mod k P
      rw [hq, Nat.mul_add, Nat.mul_one, Nat.mul_comm] at this
      omega
    · have := Nat.mod_lt k hp
      omega

/-- A larger magnitude is worth more: patterns are ordered as their values. -/
theorem magValue_strictMono (F : FloatFormat) : StrictMono (magValue F) := by
  apply strictMono_nat_of_lt_succ
  intro k
  obtain ⟨e, m, rfl, hm, h⟩ := mag_split F k
  rw [magValue_add F e m (by omega) h, Nat.add_assoc,
    magValue_add F e (m + 1) (by omega) (h.imp id (fun h => by omega))]
  exact Nat.mul_lt_mul_of_pos_right (by omega) (Nat.two_pow_pos _)

theorem magValue_le_iff (F : FloatFormat) {j k : Nat} : magValue F j ≤ magValue F k ↔ j ≤ k :=
  (magValue_strictMono F).le_iff_le

theorem magValue_lt_iff (F : FloatFormat) {j k : Nat} : magValue F j < magValue F k ↔ j < k :=
  (magValue_strictMono F).lt_iff_lt

@[simp] theorem magValue_zero (F : FloatFormat) : magValue F 0 = 0 := by simp [magValue]

theorem magValue_eq_zero_iff (F : FloatFormat) {k : Nat} : magValue F k = 0 ↔ k = 0 := by
  have := (magValue_strictMono F).injective.eq_iff (a := k) (b := 0)
  rwa [magValue_zero] at this

/-! ### Rounding to an integer -/

/-- The rounded integer is within half of the quotient, and is even at a tie (00_scope.md R8). -/
theorem roundNearestEven_spec (n d : Nat) (hd : 0 < d) :
    2 * n ≤ (2 * roundNearestEven n d + 1) * d ∧ 2 * roundNearestEven n d * d ≤ 2 * n + d ∧
    (2 * n = (2 * roundNearestEven n d + 1) * d → roundNearestEven n d % 2 = 0) ∧
    (2 * roundNearestEven n d * d = 2 * n + d → roundNearestEven n d % 2 = 0) := by
  have hdm := Nat.div_add_mod n d
  have hlt := Nat.mod_lt n hd
  unfold roundNearestEven
  generalize n / d = q at *
  generalize n % d = r at *
  have e1 : (2 * q + 1) * d = 2 * (d * q) + d := by ring
  have e2 : 2 * q * d = 2 * (d * q) := by ring
  have e3 : (2 * (q + 1) + 1) * d = 2 * (d * q) + 3 * d := by ring
  have e4 : 2 * (q + 1) * d = 2 * (d * q) + 2 * d := by ring
  split_ifs with h1 h2 h3 <;> simp only [e1, e2, e3, e4] <;> refine ⟨?_, ?_, ?_, ?_⟩ <;> omega

/-- Rounding to an integer keeps order. -/
theorem roundNearestEven_mono {n₁ d₁ n₂ d₂ : Nat} (h₁ : 0 < d₁) (h₂ : 0 < d₂) (h : n₁ * d₂ ≤ n₂ * d₁) :
    roundNearestEven n₁ d₁ ≤ roundNearestEven n₂ d₂ := by
  obtain ⟨-, a2, -, a4⟩ := roundNearestEven_spec n₁ d₁ h₁
  obtain ⟨b1, -, b3, -⟩ := roundNearestEven_spec n₂ d₂ h₂
  generalize roundNearestEven n₁ d₁ = q₁ at *
  generalize roundNearestEven n₂ d₂ = q₂ at *
  by_contra hlt
  have hq : q₂ + 1 ≤ q₁ := by omega
  have k1 : (2 * q₂ + 1) * d₁ * d₂ ≤ 2 * n₁ * d₂ := by nlinarith [Nat.mul_le_mul_right (d₁ * d₂) hq]
  have k2 : 2 * n₂ * d₁ ≤ (2 * q₂ + 1) * d₁ * d₂ := by nlinarith
  have e1 : 2 * n₂ * d₁ = (2 * q₂ + 1) * d₁ * d₂ := by nlinarith
  have e2 : 2 * n₁ * d₂ = (2 * q₂ + 1) * d₁ * d₂ := by nlinarith
  have t2 : 2 * n₂ = (2 * q₂ + 1) * d₂ := Nat.eq_of_mul_eq_mul_right h₁ (by nlinarith)
  have t1 : 2 * n₁ = (2 * q₂ + 1) * d₁ := Nat.eq_of_mul_eq_mul_right h₂ (by nlinarith)
  have hq' : q₁ = q₂ + 1 := by
    by_contra hne
    have : q₂ + 2 ≤ q₁ := by omega
    nlinarith [Nat.mul_le_mul_right d₁ this]
  have := b3 t2
  have := a4 (by rw [hq', t1]; ring)
  omega

theorem roundNearestEven_mul (q d : Nat) (hd : 0 < d) : roundNearestEven (q * d) d = q := by
  simp [roundNearestEven, Nat.mul_div_cancel _ hd, hd]

/-! ### Rounding to a magnitude -/

theorem roundMag_le_infMag (F : FloatFormat) (num den : Nat) : roundMag F num den ≤ infMag F := Nat.min_le_right _ _

/-- The significand that `roundMag` finds: within the format's precision, with the leading bit set above the subnormals. -/
theorem roundShift_spec (F : FloatFormat) (num den : Nat) (hd : 0 < den) :
    roundNearestEven num (den * 2 ^ roundShift F num den) ≤ 2 ^ (F.fracBits + 1) ∧
    (roundShift F num den = 0 ∨ 2 ^ F.fracBits ≤ roundNearestEven num (den * 2 ^ roundShift F num den)) := by
  have hds : 0 < den * 2 ^ roundShift F num den := Nat.mul_pos hd (Nat.two_pow_pos _)
  have up : num ≤ 2 ^ (F.fracBits + 1) * (den * 2 ^ roundShift F num den) := by
    have h1 : num / den < 2 ^ (Nat.log2 (num / den) + 1) := Nat.lt_log2_self
    have h2 : num < 2 ^ (Nat.log2 (num / den) + 1) * den := by
      rwa [Nat.div_lt_iff_lt_mul hd] at h1
    have h3 : 2 ^ (Nat.log2 (num / den) + 1) ≤ 2 ^ (F.fracBits + 1 + roundShift F num den) :=
      Nat.pow_le_pow_right (by decide) (by unfold roundShift; omega)
    calc num ≤ 2 ^ (Nat.log2 (num / den) + 1) * den := Nat.le_of_lt h2
      _ ≤ 2 ^ (F.fracBits + 1 + roundShift F num den) * den := Nat.mul_le_mul_right _ h3
      _ = _ := by rw [Nat.pow_add]; ring
  constructor
  · have := roundNearestEven_mono (n₁ := num) (n₂ := 2 ^ (F.fracBits + 1) * (den * 2 ^ roundShift F num den)) hds hds
      (Nat.mul_le_mul_right _ up)
    rwa [roundNearestEven_mul _ _ hds] at this
  · by_cases h0 : roundShift F num den = 0
    · exact .inl h0
    · right
      have hne : num / den ≠ 0 := fun e => h0 (by simp [roundShift, e])
      have h1 : 2 ^ Nat.log2 (num / den) ≤ num / den := Nat.log2_self_le hne
      have h2 : 2 ^ Nat.log2 (num / den) * den ≤ num := (Nat.le_div_iff_mul_le hd).mp h1
      have h3 : Nat.log2 (num / den) = F.fracBits + roundShift F num den := by unfold roundShift at h0 ⊢; omega
      have low : 2 ^ F.fracBits * (den * 2 ^ roundShift F num den) ≤ num := by
        calc _ = 2 ^ (F.fracBits + roundShift F num den) * den := by rw [Nat.pow_add]; ring
          _ ≤ num := by rw [← h3]; exact h2
      have := roundNearestEven_mono (n₂ := num) (n₁ := 2 ^ F.fracBits * (den * 2 ^ roundShift F num den)) hds hds
        (Nat.mul_le_mul_right _ low)
      rwa [roundNearestEven_mul _ _ hds] at this

/-- Rounding keeps order (00_scope.md R8). -/
theorem roundMag_mono (F : FloatFormat) {n₁ d₁ n₂ d₂ : Nat} (h₁ : 0 < d₁) (h₂ : 0 < d₂) (h : n₁ * d₂ ≤ n₂ * d₁) :
    roundMag F n₁ d₁ ≤ roundMag F n₂ d₂ := by
  apply min_le_min_right
  obtain ⟨a1, a2⟩ := roundShift_spec F n₁ d₁ h₁
  obtain ⟨b1, b2⟩ := roundShift_spec F n₂ d₂ h₂
  have hq : n₁ / d₁ ≤ n₂ / d₂ := by
    rw [Nat.le_div_iff_mul_le h₂]
    have := Nat.div_mul_le_self n₁ d₁
    have k : n₁ / d₁ * d₂ * d₁ ≤ n₂ * d₁ := by nlinarith
    exact Nat.le_of_mul_le_mul_right k h₁
  have hs : roundShift F n₁ d₁ ≤ roundShift F n₂ d₂ := by
    unfold roundShift
    have : Nat.log2 (n₁ / d₁) ≤ Nat.log2 (n₂ / d₂) := by
      rw [Nat.log2_eq_log_two, Nat.log2_eq_log_two]
      exact Nat.log_mono_right hq
    omega
  rcases Nat.eq_or_lt_of_le hs with he | hlt
  · rw [he]
    apply Nat.add_le_add_left
    rw [← he] at b1 b2 ⊢
    exact roundNearestEven_mono (Nat.mul_pos h₁ (Nat.two_pow_pos _)) (Nat.mul_pos h₂ (Nat.two_pow_pos _))
      (by nlinarith [Nat.mul_le_mul_right (2 ^ roundShift F n₁ d₁) h])
  · have hb : 2 ^ F.fracBits ≤ roundNearestEven n₂ (d₂ * 2 ^ roundShift F n₂ d₂) := b2.resolve_left (by omega)
    have h2 : 2 ^ (F.fracBits + 1) = 2 * 2 ^ F.fracBits := by rw [Nat.pow_succ, Nat.mul_comm]
    have := Nat.mul_le_mul_right (2 ^ F.fracBits) (show roundShift F n₁ d₁ + 1 ≤ roundShift F n₂ d₂ from hlt)
    rw [Nat.add_mul, Nat.one_mul] at this
    omega

/-- A representable value rounds to itself (00_scope.md R8: the exact result is kept where it is a value of the format). -/
theorem roundMag_magValue (F : FloatFormat) {k d : Nat} (hk : k ≤ infMag F) (hd : 0 < d) :
    roundMag F (magValue F k * d) d = k := by
  obtain ⟨e, m, rfl, hm, h⟩ := mag_split F k
  rw [magValue_add F e m (by omega) h]
  have hq : m * 2 ^ e * d / d = m * 2 ^ e := Nat.mul_div_cancel _ hd
  have hshift : roundShift F (m * 2 ^ e * d) d = e := by
    unfold roundShift
    rw [hq, Nat.log2_eq_log_two]
    rcases h with rfl | h
    · have : Nat.log 2 (m * 2 ^ 0) ≤ F.fracBits := by
        rw [Nat.pow_zero, Nat.mul_one]
        by_cases hm0 : m = 0
        · simp [hm0]
        · exact Nat.lt_succ_iff.mp (Nat.log_lt_of_lt_pow hm0 hm)
      omega
    · have hm0 : m ≠ 0 := by have := Nat.two_pow_pos F.fracBits; omega
      have hpe := Nat.two_pow_pos e
      have : Nat.log 2 (m * 2 ^ e) = F.fracBits + e := by
        rw [Nat.log_eq_iff (.inr ⟨by decide, Nat.mul_ne_zero hm0 hpe.ne'⟩)]
        constructor
        · rw [Nat.pow_add]; exact Nat.mul_le_mul_right _ h
        · rw [show F.fracBits + e + 1 = F.fracBits + 1 + e by omega, Nat.pow_add]
          exact Nat.mul_lt_mul_of_pos_right hm hpe
      omega
  have hr : roundNearestEven (m * 2 ^ e * d) (d * 2 ^ e) = m := by
    rw [show m * 2 ^ e * d = m * (d * 2 ^ e) by ring]
    exact roundNearestEven_mul _ _ (Nat.mul_pos hd (Nat.two_pow_pos _))
  unfold roundMag
  rw [hshift, hr]
  exact Nat.min_eq_left hk

/-- What is worth at most a representable value rounds to at most it. -/
theorem roundMag_le (F : FloatFormat) {num den k : Nat} (hd : 0 < den) (hk : k ≤ infMag F)
    (h : num ≤ magValue F k * den) : roundMag F num den ≤ k := by
  have := roundMag_mono F (n₁ := num) (n₂ := magValue F k * den) hd hd (Nat.mul_le_mul_right _ h)
  rwa [roundMag_magValue F hk hd] at this

/-- What is worth at least a representable value rounds to at least it. -/
theorem le_roundMag (F : FloatFormat) {num den k : Nat} (hd : 0 < den) (hk : k ≤ infMag F)
    (h : magValue F k * den ≤ num) : k ≤ roundMag F num den := by
  have := roundMag_mono F (n₁ := magValue F k * den) (n₂ := num) hd hd (Nat.mul_le_mul_right _ h)
  rwa [roundMag_magValue F hk hd] at this

/-! ### The range of the results -/

theorem infMag_binary32 : infMag binary32 = 0x7F800000 := by decide

theorem infMag_binary64 : infMag binary64 = 0x7FF0000000000000 := by decide

theorem unitExp_binary32 : unitExp binary32 = 149 := by decide

theorem unitExp_binary64 : unitExp binary64 = 1074 := by decide

/-- The magnitude of every sum is a binary32 magnitude. -/
theorem addBits_mag_lt (x y : FloatBits) (hx : x.mag < 2 ^ 31) (hy : y.mag < 2 ^ 31) :
    (addBits binary32 x y).mag < 2 ^ 31 := by
  have h := infMag_binary32
  have hr := roundMag_le_infMag binary32 (bitsValue binary32 x + bitsValue binary32 y).natAbs 1
  have hq : (quietNaN binary32).mag < 2 ^ 31 := by decide
  unfold addBits
  split_ifs <;> first | omega | (simp only; done) | (simp only; omega)

/-- The magnitude of every product is a binary32 magnitude. -/
theorem mulBits_mag_lt (x y : FloatBits) : (mulBits binary32 x y).mag < 2 ^ 31 := by
  have h := infMag_binary32
  have hr := roundMag_le_infMag binary32 (magValue binary32 x.mag * magValue binary32 y.mag) (2 ^ unitExp binary32)
  have hq : (quietNaN binary32).mag < 2 ^ 31 := by decide
  unfold mulBits
  split_ifs <;> first | omega | (simp only; done) | (simp only; omega)

/-- The magnitude of every quotient is a binary32 magnitude. -/
theorem divBits_mag_lt (x y : FloatBits) : (divBits binary32 x y).mag < 2 ^ 31 := by
  have h := infMag_binary32
  have hr := roundMag_le_infMag binary32 (magValue binary32 x.mag * 2 ^ unitExp binary32) (magValue binary32 y.mag)
  have hq : (quietNaN binary32).mag < 2 ^ 31 := by decide
  unfold divBits
  split_ifs <;> first | omega | (simp only; done) | (simp only; omega)

/-- A sum, read back. -/
theorem unpack32_fadd32 (a b : Word) : unpack32 (fadd32 a b) = addBits binary32 (unpack32 a) (unpack32 b) :=
  unpack32_pack32 _ (addBits_mag_lt _ _ (unpack32_mag_lt a) (unpack32_mag_lt b))

/-- A product, read back. -/
theorem unpack32_fmul32 (a b : Word) : unpack32 (fmul32 a b) = mulBits binary32 (unpack32 a) (unpack32 b) :=
  unpack32_pack32 _ (mulBits_mag_lt _ _)

/-- A quotient, read back. -/
theorem unpack32_fdiv32 (a b : Word) : unpack32 (fdiv32 a b) = divBits binary32 (unpack32 a) (unpack32 b) :=
  unpack32_pack32 _ (divBits_mag_lt _ _)

/-! ### Comparisons -/

theorem not_isNaN32_of_isFinite32 {a : Word} (h : isFinite32 a = true) : isNaN32 a = false := by
  simp only [isFinite32, isFiniteBits, isNaN32, isNaNBits, decide_eq_true_eq, decide_eq_false_iff_not] at *
  omega

theorem flt32_iff {a b : Word} :
    flt32 a b = true ↔ isNaN32 a = false ∧ isNaN32 b = false ∧ value32 a < value32 b := by
  simp [flt32, ltBits, isNaN32, value32, and_assoc]

theorem fle32_iff {a b : Word} :
    fle32 a b = true ↔ isNaN32 a = false ∧ isNaN32 b = false ∧ value32 a ≤ value32 b := by
  simp [fle32, leBits, isNaN32, value32, and_assoc]

theorem feq32_iff {a b : Word} :
    feq32 a b = true ↔ isNaN32 a = false ∧ isNaN32 b = false ∧ value32 a = value32 b := by
  simp [feq32, eqBits, isNaN32, value32, and_assoc]

/-- The negated word has the negated value (00_scope.md R8). -/
theorem value32_fneg32 (a : Word) : value32 (fneg32 a) = -value32 a := by
  simp only [value32, unpack32_fneg32, bitsValue]
  cases (unpack32 a).neg <;> simp

end Sys2Proof.Machine
end

