-- ==== Sys2Proof/Laws/State.lean ====
section
/-! SUPPORT. One lemma per field per update of the state, each true by rfl, so that no later proof unfolds a record update; and how
reading a phase register meets writing one (10_state.md R21, R23). -/

namespace Sys2Proof.Machine

@[simp] theorem setPhase_p (s : State) (pr : Fin 16) (v : Word) : (s.setPhase pr v).p = s.p.set pr v := rfl
@[simp] theorem setPhase_fstat (s : State) (pr : Fin 16) (v : Word) : (s.setPhase pr v).fstat = s.fstat := rfl
@[simp] theorem setPhase_busy (s : State) (pr : Fin 16) (v : Word) : (s.setPhase pr v).busy = s.busy := rfl
@[simp] theorem setPhase_cmd (s : State) (pr : Fin 16) (v : Word) : (s.setPhase pr v).cmd = s.cmd := rfl
@[simp] theorem setPhase_held (s : State) (pr : Fin 16) (v : Word) : (s.setPhase pr v).held = s.held := rfl
@[simp] theorem setPhase_rst (s : State) (pr : Fin 16) (v : Word) : (s.setPhase pr v).rst = s.rst := rfl
@[simp] theorem setPhase_resp (s : State) (pr : Fin 16) (v : Word) : (s.setPhase pr v).resp = s.resp := rfl
@[simp] theorem setPhase_resets (s : State) (pr : Fin 16) (v : Word) : (s.setPhase pr v).resets = s.resets := rfl

@[simp] theorem respond_p (s : State) (r : Response) : (s.respond r).p = s.p := rfl
@[simp] theorem respond_fstat (s : State) (r : Response) : (s.respond r).fstat = s.fstat := rfl
@[simp] theorem respond_busy (s : State) (r : Response) : (s.respond r).busy = false := rfl
@[simp] theorem respond_cmd (s : State) (r : Response) : (s.respond r).cmd = s.cmd := rfl
@[simp] theorem respond_held (s : State) (r : Response) : (s.respond r).held = s.held := rfl
@[simp] theorem respond_rst (s : State) (r : Response) : (s.respond r).rst = s.rst := rfl
@[simp] theorem respond_resp (s : State) (r : Response) : (s.respond r).resp = some r := rfl
@[simp] theorem respond_resets (s : State) (r : Response) : (s.respond r).resets = s.resets := rfl
@[simp] theorem respond_phase (s : State) (r : Response) (j : Fin 16) : (s.respond r).phase j = s.phase j := rfl

@[simp] theorem raise_p (s : State) (c : FaultCause) : (s.raise c).p = s.p := rfl
@[simp] theorem raise_fstat (s : State) (c : FaultCause) : (s.raise c).fstat = recordFault s.fstat c := rfl
@[simp] theorem raise_busy (s : State) (c : FaultCause) : (s.raise c).busy = false := rfl
@[simp] theorem raise_cmd (s : State) (c : FaultCause) : (s.raise c).cmd = s.cmd := rfl
@[simp] theorem raise_held (s : State) (c : FaultCause) : (s.raise c).held = s.held := rfl
@[simp] theorem raise_rst (s : State) (c : FaultCause) : (s.raise c).rst = s.rst := rfl
@[simp] theorem raise_resp (s : State) (c : FaultCause) : (s.raise c).resp = some ⟨c.code, 0, 0⟩ := rfl
@[simp] theorem raise_resets (s : State) (c : FaultCause) : (s.raise c).resets = s.resets := rfl
@[simp] theorem raise_phase (s : State) (c : FaultCause) (j : Fin 16) : (s.raise c).phase j = s.phase j := rfl

@[simp] theorem commit_p (s : State) (pr : Fin 16) (p1 x : Word) : (s.commit pr p1 x).p = s.p.set pr p1 := rfl
@[simp] theorem commit_fstat (s : State) (pr : Fin 16) (p1 x : Word) : (s.commit pr p1 x).fstat = s.fstat := rfl
@[simp] theorem commit_busy (s : State) (pr : Fin 16) (p1 x : Word) : (s.commit pr p1 x).busy = false := rfl
@[simp] theorem commit_cmd (s : State) (pr : Fin 16) (p1 x : Word) : (s.commit pr p1 x).cmd = s.cmd := rfl
@[simp] theorem commit_held (s : State) (pr : Fin 16) (p1 x : Word) : (s.commit pr p1 x).held = s.held := rfl
@[simp] theorem commit_rst (s : State) (pr : Fin 16) (p1 x : Word) : (s.commit pr p1 x).rst = s.rst := rfl
@[simp] theorem commit_resp (s : State) (pr : Fin 16) (p1 x : Word) : (s.commit pr p1 x).resp = some ⟨0, 4, x⟩ := rfl
@[simp] theorem commit_resets (s : State) (pr : Fin 16) (p1 x : Word) : (s.commit pr p1 x).resets = s.resets := rfl

@[simp] theorem hang_p (s : State) : (s.hang).p = s.p := rfl
@[simp] theorem hang_fstat (s : State) : (s.hang).fstat = s.fstat := rfl
@[simp] theorem hang_busy (s : State) : (s.hang).busy = true := rfl
@[simp] theorem hang_cmd (s : State) : (s.hang).cmd = s.cmd := rfl
@[simp] theorem hang_held (s : State) : (s.hang).held = s.held := rfl
@[simp] theorem hang_rst (s : State) : (s.hang).rst = s.rst := rfl
@[simp] theorem hang_resp (s : State) : (s.hang).resp = none := rfl
@[simp] theorem hang_resets (s : State) : (s.hang).resets = s.resets := rfl
@[simp] theorem hang_phase (s : State) (j : Fin 16) : (s.hang).phase j = s.phase j := rfl

@[simp] theorem accept_p (s : State) (c : Command) (rest : List Command) : (s.accept c rest).p = s.p := rfl
@[simp] theorem accept_fstat (s : State) (c : Command) (rest : List Command) : (s.accept c rest).fstat = s.fstat := rfl
@[simp] theorem accept_busy (s : State) (c : Command) (rest : List Command) : (s.accept c rest).busy = true := rfl
@[simp] theorem accept_cmd (s : State) (c : Command) (rest : List Command) : (s.accept c rest).cmd = c := rfl
@[simp] theorem accept_held (s : State) (c : Command) (rest : List Command) : (s.accept c rest).held = rest := rfl
@[simp] theorem accept_rst (s : State) (c : Command) (rest : List Command) : (s.accept c rest).rst = s.rst := rfl
@[simp] theorem accept_resp (s : State) (c : Command) (rest : List Command) : (s.accept c rest).resp = none := rfl
@[simp] theorem accept_resets (s : State) (c : Command) (rest : List Command) : (s.accept c rest).resets = s.resets := rfl
@[simp] theorem accept_phase (s : State) (c : Command) (rest : List Command) (j : Fin 16) : (s.accept c rest).phase j = s.phase j := rfl

@[simp] theorem present_p (s : State) (c : Command) : (s.present c).p = s.p := rfl
@[simp] theorem present_fstat (s : State) (c : Command) : (s.present c).fstat = s.fstat := rfl
@[simp] theorem present_busy (s : State) (c : Command) : (s.present c).busy = s.busy := rfl
@[simp] theorem present_cmd (s : State) (c : Command) : (s.present c).cmd = s.cmd := rfl
@[simp] theorem present_held (s : State) (c : Command) : (s.present c).held = s.held ++ [c] := rfl
@[simp] theorem present_rst (s : State) (c : Command) : (s.present c).rst = s.rst := rfl
@[simp] theorem present_resp (s : State) (c : Command) : (s.present c).resp = s.resp := rfl
@[simp] theorem present_resets (s : State) (c : Command) : (s.present c).resets = s.resets := rfl
@[simp] theorem present_phase (s : State) (c : Command) (j : Fin 16) : (s.present c).phase j = s.phase j := rfl

@[simp] theorem assertReset_p (s : State) : (s.assertReset).p = s.p := rfl
@[simp] theorem assertReset_fstat (s : State) : (s.assertReset).fstat = s.fstat := rfl
@[simp] theorem assertReset_busy (s : State) : (s.assertReset).busy = s.busy := rfl
@[simp] theorem assertReset_cmd (s : State) : (s.assertReset).cmd = s.cmd := rfl
@[simp] theorem assertReset_held (s : State) : (s.assertReset).held = s.held := rfl
@[simp] theorem assertReset_rst (s : State) : (s.assertReset).rst = true := rfl
@[simp] theorem assertReset_resp (s : State) : (s.assertReset).resp = s.resp := rfl
@[simp] theorem assertReset_resets (s : State) : (s.assertReset).resets = s.resets := rfl
@[simp] theorem assertReset_phase (s : State) (j : Fin 16) : (s.assertReset).phase j = s.phase j := rfl

@[simp] theorem takeReset_p (s : State) : (s.takeReset).p = resetPhases (s.resets + 1) := rfl
@[simp] theorem takeReset_fstat (s : State) : (s.takeReset).fstat = 0 := rfl
@[simp] theorem takeReset_busy (s : State) : (s.takeReset).busy = false := rfl
@[simp] theorem takeReset_cmd (s : State) : (s.takeReset).cmd = ⟨0, 0, 0⟩ := rfl
@[simp] theorem takeReset_held (s : State) : (s.takeReset).held = [] := rfl
@[simp] theorem takeReset_rst (s : State) : (s.takeReset).rst = false := rfl
@[simp] theorem takeReset_resp (s : State) : (s.takeReset).resp = none := rfl
@[simp] theorem takeReset_resets (s : State) : (s.takeReset).resets = s.resets + 1 := rfl

@[simp] theorem withFetchWord_p (s : State) (n w : Nat) : (s.withFetchWord n w).p = s.p := rfl
@[simp] theorem withFetchWord_fstat (s : State) (n w : Nat) : (s.withFetchWord n w).fstat = s.fstat := rfl
@[simp] theorem withFetchWord_busy (s : State) (n w : Nat) : (s.withFetchWord n w).busy = true := rfl
@[simp] theorem withFetchWord_cmd (s : State) (n w : Nat) : (s.withFetchWord n w).cmd = commandOfBits (w % 2 ^ n) := rfl
@[simp] theorem withFetchWord_held (s : State) (n w : Nat) : (s.withFetchWord n w).held = s.held := rfl
@[simp] theorem withFetchWord_rst (s : State) (n w : Nat) : (s.withFetchWord n w).rst = false := rfl
@[simp] theorem withFetchWord_resp (s : State) (n w : Nat) : (s.withFetchWord n w).resp = s.resp := rfl
@[simp] theorem withFetchWord_resets (s : State) (n w : Nat) : (s.withFetchWord n w).resets = s.resets := rfl
@[simp] theorem withFetchWord_phase (s : State) (n w : Nat) (j : Fin 16) : (s.withFetchWord n w).phase j = s.phase j := rfl

/-- A register that was just written reads as the value written (10_state.md R21). -/
@[simp] theorem setPhase_phase_self (s : State) (pr : Fin 16) (v : Word) : (s.setPhase pr v).phase pr = v := by
  simp [State.setPhase, State.phase]

/-- Writing a register leaves every other register alone (10_state.md R23). -/
theorem setPhase_phase_ne (s : State) {pr j : Fin 16} (v : Word) (h : pr ≠ j) : (s.setPhase pr v).phase j = s.phase j := by
  have : pr.val ≠ j.val := fun e => h (Fin.ext e)
  simp [State.setPhase, State.phase, this]

/-- Writing back what a register holds changes nothing. -/
@[simp] theorem setPhase_phase_eq (s : State) (pr : Fin 16) : s.setPhase pr (s.phase pr) = s := by
  simp [State.setPhase, State.phase]

@[simp] theorem commit_phase_self (s : State) (pr : Fin 16) (p1 x : Word) : (s.commit pr p1 x).phase pr = p1 :=
  setPhase_phase_self s pr p1

theorem commit_phase_ne (s : State) {pr j : Fin 16} (p1 x : Word) (h : pr ≠ j) : (s.commit pr p1 x).phase j = s.phase j :=
  setPhase_phase_ne s p1 h

/-- What the reset state holds (70_reset_and_hazards.md R181). -/
theorem reset_eq : State.reset = ⟨resetPhases 0, 0, false, ⟨0, 0, 0⟩, [], false, none, 0⟩ := rfl

/-- The reset contents of the phase registers are the draws of Config (70_reset_and_hazards.md R182). -/
theorem afterReset_phase (n : Nat) (i : Fin 16) : (State.afterReset n).phase i = Config.resetPhase n i := by
  fin_cases i <;> rfl

end Sys2Proof.Machine
end

