-- ==== Sys2Proof/Laws/Ops.lean ====
section
/-! SUPPORT. For each shared operation one lemma that says once everything it can do; proofs about commands cite these instead of
unfolding the operations. -/

namespace Sys2Proof.Machine

/-! ### Outcomes -/

@[simp] theorem next_inj {s t : State} :
    ((.next s : StepOutcome) = (.next t : StepOutcome)) ↔ s = t := by
  constructor
  · intro h; cases h; rfl
  · intro h; rw [h]

/-! ### The end of an advance command -/

theorem finishAdvance_some {pr : Fin 16} {start m : Word} {sample : Word → Word} {s : State} {p1 : Word}
    (h : wrap start m = some p1) : finishAdvance pr start m sample s = .next (s.commit pr p1 (sample p1)) := by
  simp [finishAdvance, h]

theorem finishAdvance_none {pr : Fin 16} {start m : Word} {sample : Word → Word} {s : State}
    (h : wrap start m = none) : finishAdvance pr start m sample s = .next s.hang := by
  simp [finishAdvance, h]

/-- Everything the end of an advance command can do: commit, or hang. -/
theorem finishAdvance_cases {pr : Fin 16} {start m : Word} {sample : Word → Word} {s t : State}
    (h : finishAdvance pr start m sample s = .next t) :
    (∃ p1, wrap start m = some p1 ∧ t = s.commit pr p1 (sample p1)) ∨ (wrap start m = none ∧ t = s.hang) := by
  cases hw : wrap start m with
  | some p1 => rw [finishAdvance_some hw] at h; exact .inl ⟨p1, rfl, (next_inj.mp h).symm⟩
  | none => rw [finishAdvance_none hw] at h; exact .inr ⟨rfl, (next_inj.mp h).symm⟩

/-! ### The two shapes of an advance command -/

theorem advance_ok {pr : Fin 16} {f r inc m : Word} {sample : Word → Word} {s : State}
    (h : domainOK f r (s.phase pr) = true) :
    advance pr f r inc m sample s = finishAdvance pr (fadd32 (s.phase pr) inc) m sample s := by
  simp [advance, h]

theorem advance_fault {pr : Fin 16} {f r inc m : Word} {sample : Word → Word} {s : State}
    (h : domainOK f r (s.phase pr) = false) : advance pr f r inc m sample s = .next (s.raise .operandFault) := by
  simp [advance, h]

/-- Everything an advance command without harmonics can do. -/
theorem advance_cases {pr : Fin 16} {f r inc m : Word} {sample : Word → Word} {s t : State}
    (h : advance pr f r inc m sample s = .next t) :
    (domainOK f r (s.phase pr) = false ∧ t = s.raise .operandFault) ∨
    (domainOK f r (s.phase pr) = true ∧ ∃ p1, wrap (fadd32 (s.phase pr) inc) m = some p1 ∧ t = s.commit pr p1 (sample p1)) ∨
    (domainOK f r (s.phase pr) = true ∧ wrap (fadd32 (s.phase pr) inc) m = none ∧ t = s.hang) := by
  cases hd : domainOK f r (s.phase pr) with
  | false => rw [advance_fault hd] at h; exact .inl ⟨rfl, (next_inj.mp h).symm⟩
  | true =>
    rw [advance_ok hd] at h
    rcases finishAdvance_cases h with ⟨p1, hw, ht⟩ | ⟨hw, ht⟩
    · exact .inr (.inl ⟨rfl, p1, hw, ht⟩)
    · exact .inr (.inr ⟨rfl, hw, ht⟩)

theorem advanceBandlimited_ok {pr : Fin 16} {f r : Word} {sample : Nat → Word → Word} {s : State} {n : Nat}
    (h : domainOK f r (s.phase pr) = true) :
    advanceBandlimited pr f r (some n) sample s =
      finishAdvance pr (fadd32 (s.phase pr) (radianInc f r)) twoPi (sample n) s := by
  simp [advanceBandlimited, h]

theorem advanceBandlimited_range {pr : Fin 16} {f r : Word} {sample : Nat → Word → Word} {s : State}
    (h : domainOK f r (s.phase pr) = true) :
    advanceBandlimited pr f r none sample s = .next (s.raise .harmonicRange) := by
  simp [advanceBandlimited, h]

theorem advanceBandlimited_fault {pr : Fin 16} {f r : Word} {count : Option Nat} {sample : Nat → Word → Word} {s : State}
    (h : domainOK f r (s.phase pr) = false) :
    advanceBandlimited pr f r count sample s = .next (s.raise .operandFault) := by
  simp [advanceBandlimited, h]

/-- Everything a band-limited advance command can do. -/
theorem advanceBandlimited_cases {pr : Fin 16} {f r : Word} {count : Option Nat} {sample : Nat → Word → Word} {s t : State}
    (h : advanceBandlimited pr f r count sample s = .next t) :
    (domainOK f r (s.phase pr) = false ∧ t = s.raise .operandFault) ∨
    (domainOK f r (s.phase pr) = true ∧ count = none ∧ t = s.raise .harmonicRange) ∨
    (domainOK f r (s.phase pr) = true ∧ ∃ n p1, count = some n ∧
      wrap (fadd32 (s.phase pr) (radianInc f r)) twoPi = some p1 ∧ t = s.commit pr p1 (sample n p1)) ∨
    (domainOK f r (s.phase pr) = true ∧ ∃ n, count = some n ∧
      wrap (fadd32 (s.phase pr) (radianInc f r)) twoPi = none ∧ t = s.hang) := by
  cases hd : domainOK f r (s.phase pr) with
  | false => rw [advanceBandlimited_fault hd] at h; exact .inl ⟨rfl, (next_inj.mp h).symm⟩
  | true =>
    cases count with
    | none => rw [advanceBandlimited_range hd] at h; exact .inr (.inl ⟨rfl, rfl, (next_inj.mp h).symm⟩)
    | some n =>
      rw [advanceBandlimited_ok hd] at h
      rcases finishAdvance_cases h with ⟨p1, hw, ht⟩ | ⟨hw, ht⟩
      · exact .inr (.inr (.inl ⟨rfl, n, p1, rfl, hw, ht⟩))
      · exact .inr (.inr (.inr ⟨rfl, n, rfl, hw, ht⟩))

/-! ### Encode commands -/

theorem encodeSample_ok {x : Word} {nb : BitVec 3} {code : Word → Word} {s : State} (h : isNaN32 x = false) :
    encodeSample x nb code s = .next (s.respond ⟨0, nb, code x⟩) := by
  simp [encodeSample, h]

theorem encodeSample_nan {x : Word} {nb : BitVec 3} {code : Word → Word} {s : State} (h : isNaN32 x = true) :
    encodeSample x nb code s = .next (s.raise .encodeNaN) := by
  simp [encodeSample, h]

/-- Everything an encode command can do. -/
theorem encodeSample_cases {x : Word} {nb : BitVec 3} {code : Word → Word} {s t : State}
    (h : encodeSample x nb code s = .next t) :
    (isNaN32 x = true ∧ t = s.raise .encodeNaN) ∨ (isNaN32 x = false ∧ t = s.respond ⟨0, nb, code x⟩) := by
  cases hn : isNaN32 x with
  | true => rw [encodeSample_nan hn] at h; exact .inl ⟨rfl, (next_inj.mp h).symm⟩
  | false => rw [encodeSample_ok hn] at h; exact .inr ⟨rfl, (next_inj.mp h).symm⟩

/-! ### The arms of exec, as the shared operation each one is -/

theorem exec_advsin (pr : Fin 16) (f r : Word) (s : State) :
    exec (.advsin pr f r) s = advance pr f r (radianInc f r) twoPi sin32 s := rfl

theorem exec_advsqr (pr : Fin 16) (f r : Word) (s : State) :
    exec (.advsqr pr f r) s = advance pr f r (unitInc f r) fOne squareSample s := rfl

theorem exec_advsaw (pr : Fin 16) (f r : Word) (s : State) :
    exec (.advsaw pr f r) s = advance pr f r (unitInc f r) fOne sawSample s := rfl

theorem exec_advtri (pr : Fin 16) (f r : Word) (s : State) :
    exec (.advtri pr f r) s = advance pr f r (unitInc f r) fOne triangleSample s := rfl

theorem exec_advblsqr (pr : Fin 16) (hc : Nat) (f r : Word) (s : State) :
    exec (.advblsqr pr hc f r) s = advanceBandlimited pr f r (harmonicCount hc (autohOdd f r)) blSquareSample s := rfl

theorem exec_advblsaw (pr : Fin 16) (hc : Nat) (f r : Word) (s : State) :
    exec (.advblsaw pr hc f r) s = advanceBandlimited pr f r (harmonicCount hc (autohSaw f r)) blSawSample s := rfl

theorem exec_advbltri (pr : Fin 16) (hc : Nat) (f r : Word) (s : State) :
    exec (.advbltri pr hc f r) s = advanceBandlimited pr f r (harmonicCount hc (autohOdd f r)) blTriangleSample s := rfl

theorem exec_enc8 (x : Word) (s : State) :
    exec (.enc8 x) s = encodeSample x 1 (fun x => (BitVec.ofInt 8 (code8 x)).setWidth 32) s := rfl

theorem exec_enc16 (x : Word) (s : State) :
    exec (.enc16 x) s = encodeSample x 2 (fun x => (BitVec.ofInt 16 (code16 x)).setWidth 32) s := rfl

theorem exec_enc32 (x : Word) (s : State) :
    exec (.enc32 x) s = encodeSample x 4 (fun x => BitVec.ofInt 32 (code32 x)) s := rfl

theorem exec_phwr (pr : Fin 16) (v : Word) (s : State) :
    exec (.phwr pr v) s = .next ((s.setPhase pr v).respond ⟨0, 0, 0⟩) := rfl

theorem exec_phrd (pr : Fin 16) (s : State) : exec (.phrd pr) s = .next (s.respond ⟨0, 4, s.phase pr⟩) := rfl

theorem exec_rdfs (s : State) : exec .rdfs s = .next (s.respond ⟨0, 4, s.fstat.setWidth 32⟩) := rfl

/-! ### The command as a whole -/

/-- Everything executing a command can do (10_state.md R26): fault, write one register and respond, respond without a write, or
hang. The cases do not say when each happens; the `_cases` lemmas above do. -/
theorem exec_cases {i : Instr} {s t : State} (h : exec i s = .next t) :
    (∃ c, t = s.raise c) ∨
    (∃ pr v r, instrRegister i = some pr ∧ t = (s.setPhase pr v).respond r ∧ r.st = 0) ∨
    (∃ r, t = s.respond r ∧ r.st = 0) ∨
    (isAdvance i = true ∧ t = s.hang) := by
  cases i with
  | advsin pr f r =>
    rcases advance_cases h with ⟨_, ht⟩ | ⟨_, p1, _, ht⟩ | ⟨_, _, ht⟩
    exacts [.inl ⟨_, ht⟩, .inr (.inl ⟨pr, p1, _, rfl, ht, rfl⟩), .inr (.inr (.inr ⟨rfl, ht⟩))]
  | advsqr pr f r =>
    rcases advance_cases h with ⟨_, ht⟩ | ⟨_, p1, _, ht⟩ | ⟨_, _, ht⟩
    exacts [.inl ⟨_, ht⟩, .inr (.inl ⟨pr, p1, _, rfl, ht, rfl⟩), .inr (.inr (.inr ⟨rfl, ht⟩))]
  | advsaw pr f r =>
    rcases advance_cases h with ⟨_, ht⟩ | ⟨_, p1, _, ht⟩ | ⟨_, _, ht⟩
    exacts [.inl ⟨_, ht⟩, .inr (.inl ⟨pr, p1, _, rfl, ht, rfl⟩), .inr (.inr (.inr ⟨rfl, ht⟩))]
  | advtri pr f r =>
    rcases advance_cases h with ⟨_, ht⟩ | ⟨_, p1, _, ht⟩ | ⟨_, _, ht⟩
    exacts [.inl ⟨_, ht⟩, .inr (.inl ⟨pr, p1, _, rfl, ht, rfl⟩), .inr (.inr (.inr ⟨rfl, ht⟩))]
  | advblsqr pr hc f r =>
    rcases advanceBandlimited_cases h with ⟨_, ht⟩ | ⟨_, _, ht⟩ | ⟨_, n, p1, _, _, ht⟩ | ⟨_, n, _, _, ht⟩
    exacts [.inl ⟨_, ht⟩, .inl ⟨_, ht⟩, .inr (.inl ⟨pr, p1, _, rfl, ht, rfl⟩), .inr (.inr (.inr ⟨rfl, ht⟩))]
  | advblsaw pr hc f r =>
    rcases advanceBandlimited_cases h with ⟨_, ht⟩ | ⟨_, _, ht⟩ | ⟨_, n, p1, _, _, ht⟩ | ⟨_, n, _, _, ht⟩
    exacts [.inl ⟨_, ht⟩, .inl ⟨_, ht⟩, .inr (.inl ⟨pr, p1, _, rfl, ht, rfl⟩), .inr (.inr (.inr ⟨rfl, ht⟩))]
  | advbltri pr hc f r =>
    rcases advanceBandlimited_cases h with ⟨_, ht⟩ | ⟨_, _, ht⟩ | ⟨_, n, p1, _, _, ht⟩ | ⟨_, n, _, _, ht⟩
    exacts [.inl ⟨_, ht⟩, .inl ⟨_, ht⟩, .inr (.inl ⟨pr, p1, _, rfl, ht, rfl⟩), .inr (.inr (.inr ⟨rfl, ht⟩))]
  | enc8 x =>
    rw [exec_enc8] at h
    rcases encodeSample_cases h with ⟨_, ht⟩ | ⟨_, ht⟩
    exacts [.inl ⟨_, ht⟩, .inr (.inr (.inl ⟨_, ht, rfl⟩))]
  | enc16 x =>
    rw [exec_enc16] at h
    rcases encodeSample_cases h with ⟨_, ht⟩ | ⟨_, ht⟩
    exacts [.inl ⟨_, ht⟩, .inr (.inr (.inl ⟨_, ht, rfl⟩))]
  | enc32 x =>
    rw [exec_enc32] at h
    rcases encodeSample_cases h with ⟨_, ht⟩ | ⟨_, ht⟩
    exacts [.inl ⟨_, ht⟩, .inr (.inr (.inl ⟨_, ht, rfl⟩))]
  | phwr pr v => exact .inr (.inl ⟨pr, v, _, rfl, (next_inj.mp h).symm, rfl⟩)
  | phrd pr => exact .inr (.inr (.inl ⟨_, (next_inj.mp h).symm, rfl⟩))
  | rdfs => exact .inr (.inr (.inl ⟨_, (next_inj.mp h).symm, rfl⟩))

/-! ### The step -/

theorem step_reset {s : State} (h : s.rst = true) : step s = .next s.takeReset := by simp [step, h]

theorem step_busy {s : State} (hr : s.rst = false) (hb : s.busy = true) : step s = runCommand s := by simp [step, hr, hb]

theorem step_idle {s : State} (hr : s.rst = false) (hb : s.busy = false) (hh : s.held = []) : step s = .next s := by
  simp [step, hr, hb, hh]

theorem step_accept {s : State} {c : Command} {rest : List Command} (hr : s.rst = false) (hb : s.busy = false)
    (hh : s.held = c :: rest) : step s = .next (s.accept c rest) := by
  simp [step, hr, hb, hh]

/-- Everything one step can do (70_reset_and_hazards.md R180, 10_state.md R27, 60_exceptions.md R153, R169). -/
theorem step_cases {s t : State} (h : step s = .next t) :
    (s.rst = true ∧ t = s.takeReset) ∨
    (s.rst = false ∧ s.busy = true ∧ ∃ i, decode s.cmd = .ok i ∧ exec i s = .next t) ∨
    (s.rst = false ∧ s.busy = true ∧ (∃ e, decode s.cmd = .error e) ∧ t = s.raise .illegalCommand) ∨
    (s.rst = false ∧ s.busy = false ∧ s.held = [] ∧ t = s) ∨
    (s.rst = false ∧ s.busy = false ∧ ∃ c rest, s.held = c :: rest ∧ t = s.accept c rest) := by
  cases hr : s.rst with
  | true => rw [step_reset hr] at h; exact .inl ⟨rfl, (next_inj.mp h).symm⟩
  | false =>
    cases hb : s.busy with
    | true =>
      rw [step_busy hr hb] at h
      cases hd : decode s.cmd with
      | ok i => simp only [runCommand, hd] at h; exact .inr (.inl ⟨rfl, rfl, i, rfl, h⟩)
      | error e =>
        simp only [runCommand, hd] at h
        exact .inr (.inr (.inl ⟨rfl, rfl, ⟨e, rfl⟩, (next_inj.mp h).symm⟩))
    | false =>
      cases hh : s.held with
      | nil => rw [step_idle hr hb hh] at h; exact .inr (.inr (.inr (.inl ⟨rfl, rfl, rfl, (next_inj.mp h).symm⟩)))
      | cons c rest =>
        rw [step_accept hr hb hh] at h
        exact .inr (.inr (.inr (.inr ⟨rfl, rfl, c, rest, rfl, (next_inj.mp h).symm⟩)))

/-! ### The loops -/

/-- One pass of the wrap loop adds exactly below zero, and subtracts exactly at or above the period otherwise. -/
theorem wrapPass_cases (m p : Word) :
    (flt32 p fZero = true ∧ wrapPass m p = .again (fadd32 p m)) ∨
    (flt32 p fZero = false ∧ fle32 m p = true ∧ wrapPass m p = .again (fsub32 p m)) ∨
    (flt32 p fZero = false ∧ fle32 m p = false ∧ wrapPass m p = .done) := by
  cases h : flt32 p fZero <;> cases h' : fle32 m p <;> simp [wrapPass, h, h']

theorem wrapLoop_succ (m : Word) (n : Nat) (p : Word) :
    wrapLoop m (n + 1) p =
      match wrapPass m p with
      | .done => some p
      | .again q => if q = p then none else wrapLoop m n q := rfl

/-- From an absorbed step on the loop returns nothing (40_nco_sine_naive.md R85). -/
theorem not_wrapsTo_of_absorbed {m p : Word} (h : wrapPass m p = .again p) (q : Word) : ¬ WrapsTo m p q := by
  intro hw
  induction hw with
  | done p h1 h2 => simp [wrapPass, h1, h2] at h
  | add p q h1 _ ih =>
    have e : fadd32 p m = p := by simpa [wrapPass, h1] using h
    rw [e] at ih
    exact ih h
  | sub p q h1 h2 _ ih =>
    have e : fsub32 p m = p := by simpa [wrapPass, h1, h2] using h
    rw [e] at ih
    exact ih h

theorem harmonicSearch_zero (below : Nat → Bool) (h : Nat) :
    harmonicSearch below 0 h = if below h then none else some h := rfl

theorem harmonicSearch_succ (below : Nat → Bool) (left h : Nat) :
    harmonicSearch below (left + 1) h = if below h then harmonicSearch below left (h + 1) else some h := rfl

/-- What the search loop returns (41_bandlimited.md R104, R106): the first count whose candidate is not below Nyquist. -/
theorem harmonicSearch_spec (below : Nat → Bool) (left h : Nat) :
    match harmonicSearch below left h with
    | some n => h ≤ n ∧ n ≤ h + left ∧ below n = false ∧ ∀ k, h ≤ k → k < n → below k = true
    | none => ∀ k, h ≤ k → k ≤ h + left → below k = true := by
  induction left generalizing h with
  | zero =>
    cases hb : below h with
    | true =>
      simp only [harmonicSearch, hb, if_true]
      intro k h1 h2
      obtain rfl : k = h := by omega
      exact hb
    | false =>
      simp only [harmonicSearch, hb]
      exact ⟨Nat.le_refl _, by omega, hb, fun k h1 h2 => by omega⟩
  | succ left ih =>
    cases hb : below h with
    | false =>
      simp only [harmonicSearch, hb]
      exact ⟨Nat.le_refl _, by omega, hb, fun k h1 h2 => by omega⟩
    | true =>
      simp only [harmonicSearch, hb, if_true]
      have := ih (h + 1)
      cases hs : harmonicSearch below left (h + 1) with
      | some n =>
        rw [hs] at this
        obtain ⟨h1, h2, h3, h4⟩ := this
        refine ⟨by omega, by omega, h3, fun k hk1 hk2 => ?_⟩
        rcases Nat.eq_or_lt_of_le hk1 with rfl | hlt
        exacts [hb, h4 k hlt hk2]
      | none =>
        rw [hs] at this
        intro k hk1 hk2
        rcases Nat.eq_or_lt_of_le hk1 with rfl | hlt
        exacts [hb, this k hlt (by omega)]

@[simp] theorem harmonicSum_zero (g : Nat → Word → Word) : harmonicSum g 0 = fZero := rfl

theorem harmonicSum_succ (g : Nat → Word → Word) (n : Nat) :
    harmonicSum g (n + 1) = g (n + 1) (harmonicSum g n) := rfl

/-- The harmonic sum is any sequence that starts at `+0` and takes in the terms one by one (41_bandlimited.md R110). -/
theorem harmonicSum_unique {g : Nat → Word → Word} {acc : Nat → Word} (h0 : acc 0 = fZero)
    (h : ∀ i, acc (i + 1) = g (i + 1) (acc i)) (n : Nat) : harmonicSum g n = acc n := by
  induction n with
  | zero => exact h0.symm
  | succ n ih => rw [harmonicSum_succ, ih, h]

theorem harmonicCount_explicit {hc : Nat} (auto : Option Nat) (h : hc ≠ 0) : harmonicCount hc auto = some hc := by
  simp [harmonicCount, h]

theorem harmonicCount_auto (auto : Option Nat) : harmonicCount 0 auto = auto := by simp [harmonicCount]

end Sys2Proof.Machine
end

