-- ==== Sys2Proof/Laws/PerInstr.lean ====
section
/-! SUPPORT. Statements for all instructions, one lemma per constructor. Family OpcodeRow: the command word of an instruction
lies in its own row of the opcode map (30_encoding.md R65). -/

namespace Sys2Proof.Laws

/-- The command word of `i` selects the row the opcode map gives its mnemonic, and that row is in the map. -/
def OpcodeRow.Statement (i : Instr) : Prop :=
  (encode i).cw &&& i.rowMask = i.rowMatch ∧ (i.rowMatch, i.rowMask) ∈ opcodeRows

/-- Under the mask of class B a command word shows its opcode and its reserved field only (30_encoding.md R62, R65). -/
theorem packCw_and_maskB (hc : Nat) (pr : Fin 16) (op : BitVec 4) :
    packCw hc pr op &&& 0x0000FF0F = 0#16 ++ 0#8 ++ 0#4 ++ op := by
  have hm : (0x0000FF0F : Word) = 0#16 ++ 0xFF#8 ++ 0#4 ++ 0xF#4 := by decide
  have ho : op &&& 0xF#4 = op := by revert op; decide
  rw [hm, packCw, BitVec.and_append, BitVec.and_append, BitVec.and_append, ho]
  simp

/-- Under the mask of class A a command word without count shows its opcode only (30_encoding.md R62, R65). -/
theorem packCw_and_maskA (pr : Fin 16) (op : BitVec 4) :
    packCw 0 pr op &&& 0xFFFFFF0F = 0#16 ++ 0#8 ++ 0#4 ++ op := by
  revert pr op; decide

/-- A command word of class E is its opcode (30_encoding.md R62, R65). -/
theorem packCw_and_maskE (op : BitVec 4) : packCw 0 0 op &&& 0xFFFFFFFF = 0#16 ++ 0#8 ++ 0#4 ++ op := by
  revert op; decide

theorem OpcodeRow.advsin (pr : Fin 16) (f r : Word) : OpcodeRow.Statement (.advsin pr f r) :=
  ⟨packCw_and_maskA pr 1, by simp [opcodeRows, Instr.rowMatch, Instr.rowMask]⟩

theorem OpcodeRow.advsqr (pr : Fin 16) (f r : Word) : OpcodeRow.Statement (.advsqr pr f r) :=
  ⟨packCw_and_maskA pr 2, by simp [opcodeRows, Instr.rowMatch, Instr.rowMask]⟩

theorem OpcodeRow.advsaw (pr : Fin 16) (f r : Word) : OpcodeRow.Statement (.advsaw pr f r) :=
  ⟨packCw_and_maskA pr 3, by simp [opcodeRows, Instr.rowMatch, Instr.rowMask]⟩

theorem OpcodeRow.advtri (pr : Fin 16) (f r : Word) : OpcodeRow.Statement (.advtri pr f r) :=
  ⟨packCw_and_maskA pr 4, by simp [opcodeRows, Instr.rowMatch, Instr.rowMask]⟩

theorem OpcodeRow.advblsqr (pr : Fin 16) (hc : Nat) (f r : Word) : OpcodeRow.Statement (.advblsqr pr hc f r) :=
  ⟨packCw_and_maskB hc pr 5, by simp [opcodeRows, Instr.rowMatch, Instr.rowMask]⟩

theorem OpcodeRow.advblsaw (pr : Fin 16) (hc : Nat) (f r : Word) : OpcodeRow.Statement (.advblsaw pr hc f r) :=
  ⟨packCw_and_maskB hc pr 6, by simp [opcodeRows, Instr.rowMatch, Instr.rowMask]⟩

theorem OpcodeRow.advbltri (pr : Fin 16) (hc : Nat) (f r : Word) : OpcodeRow.Statement (.advbltri pr hc f r) :=
  ⟨packCw_and_maskB hc pr 7, by simp [opcodeRows, Instr.rowMatch, Instr.rowMask]⟩

theorem OpcodeRow.enc8 (x : Word) : OpcodeRow.Statement (.enc8 x) := ⟨packCw_and_maskE 8, by simp [opcodeRows, Instr.rowMatch, Instr.rowMask]⟩

theorem OpcodeRow.enc16 (x : Word) : OpcodeRow.Statement (.enc16 x) := ⟨packCw_and_maskE 9, by simp [opcodeRows, Instr.rowMatch, Instr.rowMask]⟩

theorem OpcodeRow.enc32 (x : Word) : OpcodeRow.Statement (.enc32 x) := ⟨packCw_and_maskE 10, by simp [opcodeRows, Instr.rowMatch, Instr.rowMask]⟩

theorem OpcodeRow.phwr (pr : Fin 16) (v : Word) : OpcodeRow.Statement (.phwr pr v) :=
  ⟨packCw_and_maskA pr 11, by simp [opcodeRows, Instr.rowMatch, Instr.rowMask]⟩

theorem OpcodeRow.phrd (pr : Fin 16) : OpcodeRow.Statement (.phrd pr) := ⟨packCw_and_maskA pr 12, by simp [opcodeRows, Instr.rowMatch, Instr.rowMask]⟩

theorem OpcodeRow.rdfs : OpcodeRow.Statement .rdfs := ⟨packCw_and_maskE 13, by simp [opcodeRows, Instr.rowMatch, Instr.rowMask]⟩

end Sys2Proof.Laws
end

