-- ==== Sys2Proof/Tests/Slice0.lean ====
section
/-! SUPPORT. Named tests, each with its source in spec/ (95_test_vectors.md unless said otherwise), and for every statement with
hypotheses a witness: concrete operands and a concrete state that meet them. No test uses a value of the open parameters. -/

namespace Sys2Proof.Tests

open Sys2Proof Sys2Proof.Machine

set_option Elab.async false

/-- A small concrete state: every phase register holds `v`, and the command `c` has been accepted. -/
def testState (v : Word) (c : Command) : State :=
  ⟨#v[v, v, v, v, v, v, v, v, v, v, v, v, v, v, v, v], 0, true, c, [], false, none, 0⟩

/-- The state in which nothing but the phases matters. -/
def phases (v : Word) : State := testState v ⟨0, 0, 0⟩

/-- The response of an outcome. -/
def responseOf : StepOutcome → Option Response
  | .next s => s.resp
  | _ => none

/-- Register `pr` in the next state. -/
def phaseOf (pr : Fin 16) : StepOutcome → Option Word
  | .next s => some (s.phase pr)
  | _ => none

/-- `FSTAT` in the next state. -/
def fstatOf : StepOutcome → Option (BitVec 4)
  | .next s => some s.fstat
  | _ => none

/-! ### WellFormed refuses what has no encoding (30_encoding.md R61, R64) -/

theorem test_wellFormed_advblsqr_refuses : (Instr.advblsqr 0 65536 0 0).wellFormed = false := by decide
theorem test_wellFormed_advblsaw_refuses : (Instr.advblsaw 15 65536 0 0).wellFormed = false := by decide
theorem test_wellFormed_advbltri_refuses : (Instr.advbltri 3 70000 0 0).wellFormed = false := by decide
theorem test_wellFormed_accepts : (Instr.advbltri 3 65535 0 0).wellFormed = true := by decide

/-! ### Every constructor's decoding, the word written out from R61, R62, R65 -/

theorem test_decode_advsin : decode ⟨0b0000000000000000_00000000_1111_0001, 5, 6⟩ = .ok (.advsin 15 5 6) := by rfl
theorem test_decode_advsqr : decode ⟨0b0000000000000000_00000000_0001_0010, 5, 6⟩ = .ok (.advsqr 1 5 6) := by rfl
theorem test_decode_advsaw : decode ⟨0b0000000000000000_00000000_0010_0011, 5, 6⟩ = .ok (.advsaw 2 5 6) := by rfl
theorem test_decode_advtri : decode ⟨0b0000000000000000_00000000_0011_0100, 5, 6⟩ = .ok (.advtri 3 5 6) := by rfl
theorem test_decode_advblsqr : decode ⟨0b1111111111111111_00000000_1111_0101, 5, 6⟩ = .ok (.advblsqr 15 65535 5 6) := by rfl
theorem test_decode_advblsaw : decode ⟨0b0000000000010110_00000000_0011_0110, 5, 6⟩ = .ok (.advblsaw 3 22 5 6) := by rfl
theorem test_decode_advbltri : decode ⟨0b0000000000000000_00000000_0000_0111, 5, 6⟩ = .ok (.advbltri 0 0 5 6) := by rfl
theorem test_decode_enc8 : decode ⟨0b0000000000000000_00000000_0000_1000, 5, 6⟩ = .ok (.enc8 5) := by rfl
theorem test_decode_enc16 : decode ⟨0b0000000000000000_00000000_0000_1001, 5, 6⟩ = .ok (.enc16 5) := by rfl
theorem test_decode_enc32 : decode ⟨0b0000000000000000_00000000_0000_1010, 5, 6⟩ = .ok (.enc32 5) := by rfl
theorem test_decode_phwr : decode ⟨0b0000000000000000_00000000_0101_1011, 5, 6⟩ = .ok (.phwr 5 5) := by rfl
theorem test_decode_phrd : decode ⟨0b0000000000000000_00000000_0101_1100, 5, 6⟩ = .ok (.phrd 5) := by rfl
theorem test_decode_rdfs : decode ⟨0b0000000000000000_00000000_0000_1101, 5, 6⟩ = .ok .rdfs := by rfl

/-- V-DEC-8 to V-DEC-14: the illegal words. -/
theorem test_decode_illegal :
    ([0x00000000, 0x0000000E, 0x0000000F, 0x00000101, 0x00010001, 0x00010041, 0x00000018, 0x0000001D, 0x00010008,
      0xFFFFFFFF].map fun w => decodeTableWord 32 w) = List.replicate 10 none := by decide +kernel

/-- The operand words of `decodeTableWord` follow the command word (log 12), and bits above `nbits` are zero. -/
theorem test_decodeTableWord_operands :
    decodeTableWord 96 0x472C4400_43DC0000_00000001 = some (.advsin 0 0x43DC0000 0x472C4400) ∧
    decodeTableWord 32 0x472C4400_43DC0000_00000001 = some (.advsin 0 0 0) := by decide +kernel

/-- The example of 30_encoding.md R70, assembled and encoded. -/
theorem test_assemble_advblsaw :
    assembleLine "advblsaw p3, 1000.0, 44100.0, h=22".toList = .command (.advblsaw 3 22 0x447A0000 0x472C4400) ∧
    encode (.advblsaw 3 22 0x447A0000 0x472C4400) = ⟨0x00160036, 0x447A0000, 0x472C4400⟩ := by decide +kernel

/-- The pseudo-instructions (30_encoding.md R71), upper case, a comment, and literals of 95 ('Literals used'). -/
theorem test_assemble_pseudo :
    assembleLine "PHCLR p4 ; clear".toList = .command (.phwr 4 0) ∧
    assembleLine "enc 16, -0.25".toList = .command (.enc16 0xBE800000) ∧
    assembleLine "enc 12, 0.5".toList = .error ∧
    assembleLine "advsin p0, -1e-10, 0x3F800000".toList = .command (.advsin 0 0xAEDBE6FF 0x3F800000) := by decide +kernel

/-! ### The NCO commands -/

/-- V-SIN-5: a negative frequency wraps upward. -/
theorem test_advsin_wraps_up :
    phaseOf 0 (exec (.advsin 0 0xC47A0000 0x45FA0000) (phases 0)) = some 0x40AFEDE0 := by decide +kernel

/-- V-SIN-12: the loop re-tests both bounds (conflict C5), and the sine of +0 is +0 (00_scope.md R12, S2). -/
theorem test_advsin_single_loop :
    responseOf (exec (.advsin 0 0xAEDBE6FF 0x3F800000) (phases 0)) = some ⟨0, 4, 0⟩ ∧
    phaseOf 0 (exec (.advsin 0 0xAEDBE6FF 0x3F800000) (phases 0)) = some 0 := by decide +kernel

/-- V-SQR-3: just above 0.5 the square is low. -/
theorem test_advsqr_low :
    responseOf (exec (.advsqr 0 0x3F800000 0x472C4400) (phases 0x3F000000)) = some ⟨0, 4, 0xBF800000⟩ ∧
    phaseOf 0 (exec (.advsqr 0 0x3F800000 0x472C4400) (phases 0x3F000000)) = some 0x3F00017C := by decide +kernel

/-- V-SQR-8: an absorbed step hangs. -/
theorem test_advsqr_hangs : exec (.advsqr 0 0 0x3F800000) (phases 0x4B800002) = .next (phases 0x4B800002) := by rfl

/-- V-SAW-3: the saw at 0.5 is −0. -/
theorem test_advsaw_negative_zero :
    responseOf (exec (.advsaw 0 0x462C4400 0x472C4400) (phases 0x3E800000)) = some ⟨0, 4, 0x80000000⟩ := by decide +kernel

/-- V-SAW-6. -/
theorem test_advsaw_440 :
    responseOf (exec (.advsaw 2 0x43DC0000 0x472C4400) (phases 0)) = some ⟨0, 4, 0x3F7AE441⟩ := by decide +kernel

/-- V-TRI-4: the second branch. -/
theorem test_advtri_second_branch :
    responseOf (exec (.advtri 0 0x462C4400 0x472C4400) (phases 0x3F000000)) = some ⟨0, 4, 0⟩ := by decide +kernel

/-- V-TRI-6. -/
theorem test_advtri_440 :
    responseOf (exec (.advtri 3 0x43DC0000 0x472C4400) (phases 0)) = some ⟨0, 4, 0xBF75C881⟩ := by decide +kernel

/-! ### The band-limited commands -/

/-- V-AH-1, V-AH-4, V-AH-7, V-AH-12: automatic counts at 44100 Hz. -/
theorem test_auto_counts :
    autohSaw 0x447A0000 0x472C4400 = some 22 ∧ autohOdd 0x447A0000 0x472C4400 = some 11 ∧
    autohSaw 0x45E5B000 0x472C4400 = some 2 ∧ autohOdd 0x45E5B000 0x472C4400 = some 1 ∧
    autohSaw 0x46AC4400 0x472C4400 = some 0 ∧ autohOdd 0x46AC4400 0x472C4400 = some 0 ∧
    autohSaw 0xC0A00000 0x472C4400 = none ∧ autohOdd 0xC0A00000 0x472C4400 = none := by decide +kernel

/-- V-BL-13: above Nyquist the sum is empty and the phase advances. -/
theorem test_advblsaw_empty_sum :
    responseOf (exec (.advblsaw 0 0 0x46EA6000 0x472C4400) (phases 0)) = some ⟨0, 4, 0⟩ ∧
    phaseOf 0 (exec (.advblsaw 0 0 0x46EA6000 0x472C4400) (phases 0)) = some 0x4088C6DE := by decide +kernel

/-- V-BL-15: auto mode at a negative frequency. -/
theorem test_advblsaw_harmonic_range :
    responseOf (exec (.advblsaw 0 0 0xC0A00000 0x472C4400) (phases 0)) = some ⟨3, 0, 0⟩ ∧
    fstatOf (exec (.advblsaw 0 0 0xC0A00000 0x472C4400) (phases 0)) = some 0b0100 := by decide +kernel

/-- V-BL-14. -/
theorem test_advblsqr_empty_sum :
    phaseOf 0 (exec (.advblsqr 0 0 0x46EA6000 0x472C4400) (phases 0)) = some 0x4088C6DE := by decide +kernel

/-- The sine at phase +0 is +0 (00_scope.md R12, S2), so a square of three harmonics at rest is +0. -/
theorem test_advblsqr_at_rest :
    responseOf (exec (.advblsqr 0 3 0 0x472C4400) (phases 0)) = some ⟨0, 4, 0⟩ := by decide +kernel

/-- The phase of V-BL-3. -/
theorem test_advbltri_phase :
    phaseOf 0 (exec (.advbltri 0 0 0x447A0000 0x472C4400) (phases 0)) = some 0x3E11E531 := by decide +kernel

/-- V-PRI-2: OperandFault comes before HarmonicRange. -/
theorem test_advbltri_priority :
    responseOf (exec (.advbltri 0 0 0xC0A00000 0x7FC00000) (phases 0)) = some ⟨2, 0, 0⟩ := by decide +kernel

/-! ### The encoder -/

/-- V-ENC-18, and the tie of conflict C4. -/
theorem test_enc8 :
    responseOf (exec (.enc8 0xBA83126F) (phases 0)) = some ⟨0, 1, 0x7F⟩ ∧
    responseOf (exec (.enc8 0x3F7EFEFF) (phases 0)) = some ⟨0, 1, 0xFF⟩ := by decide +kernel

/-- V-ENC-16, and V-ENC-26: a tie away from zero. -/
theorem test_enc16 :
    responseOf (exec (.enc16 0xBF7FBE77) (phases 0)) = some ⟨0, 2, 0x8021⟩ ∧
    responseOf (exec (.enc16 0xB7800000) (phases 0)) = some ⟨0, 2, 0xFFFF⟩ := by decide +kernel

/-- V-ENC-29: a signalling NaN faults. -/
theorem test_enc16_nan :
    responseOf (exec (.enc16 0x7F800001) (phases 0)) = some ⟨4, 0, 0⟩ ∧
    fstatOf (exec (.enc16 0x7F800001) (phases 0)) = some 0b1000 := by decide +kernel

/-- V-ENC-21, V-ENC-22: the binary64 intermediate. -/
theorem test_enc32 :
    responseOf (exec (.enc32 0x3F7FFFFF) (phases 0)) = some ⟨0, 4, 0x7FFFFF7F⟩ ∧
    responseOf (exec (.enc32 0xBF7FFFFF) (phases 0)) = some ⟨0, 4, 0x80000080⟩ := by decide +kernel

/-! ### Register access and the step -/

/-- V-REG-3, V-REG-4: a NaN is stored and read back without a fault. -/
theorem test_phwr_phrd_nan :
    phaseOf 5 (exec (.phwr 5 0x7FC00000) (phases 0)) = some 0x7FC00000 ∧
    responseOf (exec (.phrd 5) (phases 0x7FC00000)) = some ⟨0, 4, 0x7FC00000⟩ := by decide +kernel

/-- V-REG-6: just after reset a register reads as its draw, whatever that is. -/
theorem test_phrd_after_reset :
    responseOf (exec (.phrd 9) State.reset) = some ⟨0, 4, Config.resetPhase 0 9⟩ := by rfl

/-- V-REG-7. -/
theorem test_rdfs :
    responseOf (exec .rdfs { phases 0 with fstat := 0b1010 }) = some ⟨0, 4, 0x0000000A⟩ ∧
    fstatOf (exec .rdfs { phases 0 with fstat := 0b1010 }) = some 0b1010 := by decide +kernel

/-- 95 Program C, command 8: an illegal word at the step. -/
theorem test_step_illegal :
    step (testState 0 ⟨0x00010041, 0x447A0000, 0x472C4400⟩) =
      .next { testState 0 ⟨0x00010041, 0x447A0000, 0x472C4400⟩ with
        fstat := 0b0001, busy := false, resp := some ⟨1, 0, 0⟩ } := by rfl

/-- 95 Program E: the command never responds. -/
theorem test_step_hangs :
    step (testState 0 ⟨0x00000001, 0x4E6E6B28, 0x3F800000⟩) =
      .next (testState 0 ⟨0x00000001, 0x4E6E6B28, 0x3F800000⟩) := by rfl

/-- From reset: a command presented is accepted by one step and executed by the next (10_state.md R27). -/
theorem test_present_accept_run :
    Sys2Proof.core.run 2 (State.reset.present ⟨0x0000000D, 1, 2⟩) =
      .next { State.reset with cmd := ⟨0x0000000D, 1, 2⟩, resp := some ⟨0, 4, 0⟩ } := by rfl

/-- The next step after `withFetchWord` runs the word. -/
theorem test_withFetchWord_runs :
    step (State.reset.withFetchWord 32 0x00000008) =
      .next { State.reset with cmd := ⟨0x00000008, 0, 0⟩, resp := some ⟨0, 1, 0x80⟩ } := by rfl

/-- 95 Program E: reset ends the hang. -/
theorem test_reset_ends_hang :
    step (testState 0 ⟨0x00000001, 0x4E6E6B28, 0x3F800000⟩).assertReset = .next (State.afterReset 1) := by rfl

/-! ### Witnesses: the hypotheses of the statements are met -/

theorem witness_DecodeEncodeAgree :
    (Instr.advblsaw 3 65535 5 6).wellFormed = true ∧ (Instr.advblsaw 3 0 5 6).wellFormed = true := by decide

theorem witness_DecodedWordIsItsEncoding : decode ⟨0xFFFF00F5, 5, 6⟩ = .ok (.advblsqr 15 65535 5 6) := by rfl

/-- One word for every clause: the reserved field; a count in class A; a register and a count in class E; a reserved opcode; and each
opcode with its fields as the clause asks. -/
theorem witness_DecodingProcedure :
    (0x00000100 : Nat) / 256 % 256 ≠ 0 ∧ (0x00010001 : Nat) / 65536 ≠ 0 ∧ 0x00010001 % 16 ∈ [1, 2, 3, 4, 11, 12] ∧
    (0x0000001D : Nat) / 16 % 16 ≠ 0 ∧ 0x0000001D % 16 ∈ [8, 9, 10, 13] ∧ (0x00010008 : Nat) / 65536 ≠ 0 ∧
    0x0000000F % 16 ∈ [0, 14, 15] ∧
    (∀ op ∈ [1, 2, 3, 4, 5, 6, 7, 8, 9, 10, 11, 12, 13], (op : Nat) % 16 = op ∧ op / 16 % 16 = 0 ∧ op / 256 % 256 = 0 ∧
      op / 65536 = 0) := by decide

theorem witness_StepRunsTheAcceptedCommand :
    let s := testState 0 ⟨0x0000000D, 0, 0⟩
    s.rst = false ∧ s.busy = true ∧ decode s.cmd = .ok .rdfs := ⟨rfl, rfl, rfl⟩

theorem witness_CommandsAreAcceptedOneAtATime :
    (∃ s : State, s.rst = false ∧ s.busy = false ∧ s.held = []) ∧
    (∃ s : State, s.rst = false ∧ s.busy = false ∧ s.held = [⟨0x0000000D, 0, 0⟩]) ∧
    (∃ s t : State, s.rst = false ∧ s.busy = true ∧ step s = .next t) :=
  ⟨⟨State.reset, rfl, rfl, rfl⟩, ⟨State.reset.present ⟨0x0000000D, 0, 0⟩, rfl, rfl, rfl⟩,
    ⟨testState 0 ⟨0x0000000D, 0, 0⟩, _, rfl, rfl, rfl⟩⟩

/-- One word for each of the four cases, and a legal one whose command responds OK. -/
theorem witness_IllegalWordFaults :
    let s := testState 0 ⟨0xFFFFFFFF, 0, 0⟩
    s.rst = false ∧ s.busy = true ∧ s.cmd.cw.toNat / 256 % 256 ≠ 0 ∧ (0x0000000E % 16 ∈ [0, 14, 15]) ∧
    (0x00010001 % 16 ∈ [1, 2, 3, 4, 8, 9, 10, 11, 12, 13] ∧ 0x00010001 / 65536 ≠ 0) ∧
    (0x0000001D % 16 ∈ [8, 9, 10, 13] ∧ 0x0000001D / 16 % 16 ≠ 0) ∧
    responseOf (step (testState 0 ⟨0x0000000D, 0, 0⟩)) = some ⟨0, 4, 0⟩ := by decide +kernel

/-- V-SIN-8: no wrap step, at the upper end of the range. -/
theorem witness_AdvsinResult :
    let s := phases 0
    isFinite32 0x472C4400 = true ∧ flt32 0x00000000 0x472C4400 = true ∧ isFinite32 (s.phase 0) = true ∧
    WrapsTo 0x40C90FDB (fadd32 (s.phase 0) (fdiv32 (fmul32 0x40C90FDB 0x472C4400) 0x472C4400)) 0x40C90FDA := by
  refine ⟨by decide +kernel, by decide +kernel, by decide +kernel, ?_⟩
  have : fadd32 ((phases 0).phase 0) (fdiv32 (fmul32 0x40C90FDB 0x472C4400) 0x472C4400) = 0x40C90FDA := by decide +kernel
  simp only [this]
  exact .done _ (by decide +kernel) (by decide +kernel)

/-- The hypotheses of the three unit-family results, with one subtraction (V-SQR-5). -/
def UnitAdvanceHypotheses (pr : Fin 16) : Prop :=
  let s := phases 0x3F400000
  isFinite32 0x462C4400 = true ∧ isFinite32 0x472C4400 = true ∧ flt32 0x00000000 0x472C4400 = true ∧
  isFinite32 (s.phase pr) = true ∧
  WrapsTo 0x3F800000 (fadd32 (s.phase pr) (fdiv32 0x462C4400 0x472C4400)) 0x00000000

theorem witness_AdvsqrResult : UnitAdvanceHypotheses 1 := by
  refine ⟨by decide +kernel, by decide +kernel, by decide +kernel, by decide +kernel, ?_⟩
  have : fadd32 ((phases 0x3F400000).phase 1) (fdiv32 0x462C4400 0x472C4400) = 0x3F800000 := by decide +kernel
  simp only [this]
  refine .sub _ _ (by decide +kernel) (by decide +kernel) ?_
  have : fsub32 0x3F800000 0x3F800000 = 0x00000000 := by decide +kernel
  rw [this]
  exact .done _ (by decide +kernel) (by decide +kernel)

theorem witness_AdvsawResult : UnitAdvanceHypotheses 1 := witness_AdvsqrResult

theorem witness_AdvtriResult : UnitAdvanceHypotheses 1 := witness_AdvsqrResult

theorem witness_NaiveSampleRanges :
    let s := phases 0x3F000000
    (∃ t x, t.resp = some x ∧ x.st = 0 ∧ exec (.advsqr 0 0 0x3F800000) s = .next t) ∧
    (∃ t x, t.resp = some x ∧ x.st = 0 ∧ exec (.advsaw 0 0 0x3F800000) s = .next t) ∧
    (∃ t x, t.resp = some x ∧ x.st = 0 ∧ exec (.advtri 0 0 0x3F800000) s = .next t) ∧
    (∃ t x, t.resp = some x ∧ x.st = 0 ∧ exec (.advsin 0 0 0x3F800000) s = .next t) :=
  ⟨⟨(phases 0x3F000000).commit 0 0x3F000000 0x3F800000, _, rfl, rfl, rfl⟩,
    ⟨(phases 0x3F000000).commit 0 0x3F000000 0x80000000, _, rfl, rfl, rfl⟩,
    ⟨(phases 0x3F000000).commit 0 0x3F000000 0x3F800000, _, rfl, rfl, rfl⟩,
    ⟨(phases 0x3F000000).commit 0 0x3F000000 (sin32 0x3F000000), _, rfl, rfl, rfl⟩⟩

/-- Both zeros, the ends of both ranges, −0 among them, both choices of the count; and three commands that respond. -/
theorem witness_ZeroFrequencyHoldsThePhase :
    feq32 0x00000000 0x00000000 = true ∧ feq32 0x80000000 0x00000000 = true ∧ isFinite32 0x472C4400 = true ∧
    flt32 0x00000000 0x472C4400 = true ∧ InRange 0x40C90FDB ((phases 0x40C90FDA).phase 2) ∧
    InRange 0x40C90FDB ((phases 0x80000000).phase 2) ∧ InRange 0x3F800000 ((phases 0x80000000).phase 2) ∧
    InRange 0x3F800000 ((phases 0x3F7FFFFF).phase 2) ∧ (phases 0x80000000).phase 2 = 0x80000000 ∧
    (0 : Nat) = 0 ∧ (65535 : Nat) ≠ 0 ∧
    phaseOf 2 (exec (.advsaw 2 0x80000000 0x472C4400) (phases 0x80000000)) = some 0x80000000 ∧
    phaseOf 2 (exec (.advsaw 2 0x00000000 0x472C4400) (phases 0x80000000)) = some 0x00000000 ∧
    phaseOf 2 (exec (.advtri 2 0x00000000 0x472C4400) (phases 0x3F400000)) = some 0x3F400000 := by
  unfold InRange
  decide +kernel

/-- Explicit mode with two harmonics and auto mode at 1000 Hz; the accumulator is the sum of its own loop. -/
theorem witness_AdvblsawResult :
    let s := phases 0
    isFinite32 0x447A0000 = true ∧ isFinite32 0x472C4400 = true ∧ flt32 0x00000000 0x472C4400 = true ∧
    isFinite32 (s.phase 0) = true ∧ ((2 : Nat) ≠ 0 ∧ (2 : Nat) = 2) ∧ autohSaw 0x447A0000 0x472C4400 = some 22 ∧
    WrapsTo 0x40C90FDB (fadd32 (s.phase 0) (fdiv32 (fmul32 0x40C90FDB 0x447A0000) 0x472C4400)) 0x3E11E531 ∧
    ∃ acc : Nat → Word, acc 0 = 0x00000000 ∧ ∀ i : Nat, acc (i + 1) =
      fadd32 (acc i) (fdiv32 (sin32 (fmul32 (i2f32 ((i : Int) + 1)) 0x3E11E531)) (i2f32 ((i : Int) + 1))) := by
  refine ⟨by decide +kernel, by decide +kernel, by decide +kernel, by decide +kernel, by decide, by decide +kernel, ?_,
    harmonicSum (fun i acc => fadd32 acc (sawTerm 0x3E11E531 i)), rfl, fun i => rfl⟩
  have : fadd32 ((phases 0).phase 0) (fdiv32 (fmul32 0x40C90FDB 0x447A0000) 0x472C4400) = 0x3E11E531 := by decide +kernel
  simp only [this]
  exact .done _ (by decide +kernel) (by decide +kernel)

theorem witness_AdvblsqrResult :
    let s := phases 0
    isFinite32 0x447A0000 = true ∧ isFinite32 0x472C4400 = true ∧ flt32 0x00000000 0x472C4400 = true ∧
    isFinite32 (s.phase 0) = true ∧ ((65535 : Nat) ≠ 0 ∧ (65535 : Nat) = 65535) ∧
    autohOdd 0x447A0000 0x472C4400 = some 11 ∧
    WrapsTo 0x40C90FDB (fadd32 (s.phase 0) (fdiv32 (fmul32 0x40C90FDB 0x447A0000) 0x472C4400)) 0x3E11E531 ∧
    ∃ acc : Nat → Word, acc 0 = 0x00000000 ∧ ∀ i : Nat, acc (i + 1) =
      fadd32 (acc i) (fdiv32 (sin32 (fmul32 (i2f32 (2 * (i : Int) + 1)) 0x3E11E531)) (i2f32 (2 * (i : Int) + 1))) := by
  obtain ⟨h1, h2, h3, h4, -, -, h7, -⟩ := witness_AdvblsawResult
  refine ⟨h1, h2, h3, h4, by decide, by decide +kernel, h7,
    harmonicSum (fun i acc => fadd32 acc (squareTerm 0x3E11E531 i)), rfl, fun i => ?_⟩
  have : (2 * ((i + 1 : Nat) : Int) - 1) = 2 * (i : Int) + 1 := by omega
  simp only [harmonicSum_succ, squareTerm, oddHarmonic, this]

theorem witness_AdvbltriResult :
    let s := phases 0
    isFinite32 0x447A0000 = true ∧ isFinite32 0x472C4400 = true ∧ flt32 0x00000000 0x472C4400 = true ∧
    isFinite32 (s.phase 0) = true ∧ ((3 : Nat) ≠ 0 ∧ (3 : Nat) = 3) ∧ autohOdd 0x447A0000 0x472C4400 = some 11 ∧
    WrapsTo 0x40C90FDB (fadd32 (s.phase 0) (fdiv32 (fmul32 0x40C90FDB 0x447A0000) 0x472C4400)) 0x3E11E531 ∧
    ∃ acc : Nat → Word, acc 0 = 0x00000000 ∧ ∀ i : Nat,
      let k := i2f32 (2 * (i : Int) + 1)
      let term := fdiv32 (sin32 (fmul32 k 0x3E11E531)) (fmul32 k k)
      acc (i + 1) =
        if decide ((i + 1) % 2 = 1) = Config.triFirstSignPositive then fadd32 (acc i) term else fsub32 (acc i) term := by
  obtain ⟨h1, h2, h3, h4, -, -, h7, -⟩ := witness_AdvblsawResult
  refine ⟨h1, h2, h3, h4, by decide, by decide +kernel, h7,
    harmonicSum (fun i acc => if triangleTermPositive i then fadd32 acc (triangleTerm 0x3E11E531 i)
      else fsub32 acc (triangleTerm 0x3E11E531 i)), rfl, fun i => ?_⟩
  have : (2 * ((i + 1 : Nat) : Int) - 1) = 2 * (i : Int) + 1 := by omega
  simp only [harmonicSum_succ, triangleTerm, oddHarmonic, triangleTermPositive, this, beq_iff_eq]

/-- Both clauses: a count, and the last count 65535 of V-AH-13; the fault is V-AH-11. -/
theorem witness_SawCountIsTheLargest :
    isFinite32 0x447A0000 = true ∧ flt32 0x00000000 0x447A0000 = true ∧ isFinite32 0x472C4400 = true ∧
    flt32 0x00000000 0x472C4400 = true ∧ autohSaw 0x447A0000 0x472C4400 = some 22 ∧
    autohSaw 0x46AC4400 0x472C4400 = some 0 ∧
    flt32 (fmul32 0x3E800000 (i2f32 65536)) (fdiv32 0x472C4400 0x40000000) = true ∧
    flt32 (fmul32 0x3EAC4400 (i2f32 65536)) (fdiv32 0x472C4400 0x40000000) = false := by decide +kernel

/-- Two counts, and both sides of the fault condition, 0.125 Hz and 1000 Hz. -/
theorem witness_OddCountBounds :
    isFinite32 0x447A0000 = true ∧ flt32 0x00000000 0x447A0000 = true ∧ isFinite32 0x472C4400 = true ∧
    flt32 0x00000000 0x472C4400 = true ∧ autohOdd 0x447A0000 0x472C4400 = some 11 ∧
    autohOdd 0x46AC4400 0x472C4400 = some 0 ∧ isFinite32 0x3E000000 = true ∧ flt32 0x00000000 0x3E000000 = true ∧
    flt32 (fmul32 0x3E000000 (i2f32 131069)) (fdiv32 0x472C4400 0x40000000) = true ∧
    flt32 (fmul32 0x447A0000 (i2f32 131069)) (fdiv32 0x472C4400 0x40000000) = false := by decide +kernel

/-- Both zeros, the smallest negative frequency, the domain, and V-BL-16: an explicit count at a negative frequency responds. -/
theorem witness_AutoModeZeroAndNegative :
    feq32 0x00000000 0x00000000 = true ∧ feq32 0x80000000 0x00000000 = true ∧ flt32 0x80000001 0x00000000 = true ∧
    isFinite32 0x80000001 = true ∧ isFinite32 0x472C4400 = true ∧ flt32 0x00000000 0x472C4400 = true ∧
    isFinite32 ((phases 0).phase 0) = true ∧ (1 : Nat) ≠ 0 ∧
    ((responseOf (exec (.advblsqr 0 1 0xC0A00000 0x472C4400) (phases 0))).map (·.st)) = some 0 := by decide +kernel

theorem witness_NyquistIsExactHalf :
    isFinite32 0x00000003 = true ∧ flt32 0x00000000 0x00000003 = true := by decide +kernel

theorem witness_WrapIsTheLoop : isNaN32 0x7F800001 = true ∧ isNaN32 0xFFC00000 = true := by decide +kernel

theorem witness_PhaseInRangeAfterAdvance :
    ∃ t x, isAdvance (.advsaw 7 0 0x3F800000) = true ∧ instrRegister (.advsaw 7 0 0x3F800000) = some 7 ∧
      exec (.advsaw 7 0 0x3F800000) (phases 0x3F000000) = .next t ∧ t.resp = some x ∧ x.st = 0 :=
  ⟨(phases 0x3F000000).commit 7 0x3F000000 0x80000000, _, rfl, rfl, rfl, rfl, rfl⟩

/-- The last phase that ends and the first that does not: 2^27 and 134217744 (40_nco_sine_naive.md R85 (a)). -/
theorem witness_RadianLoopEndsExactlyUpTo2Pow27 :
    isNaN32 0x4D000000 = false ∧ |value32 0x4D000000| ≤ 2 ^ 27 * 2 ^ 149 ∧
    isNaN32 0xCD000001 = false ∧ ¬ |value32 0xCD000001| ≤ 2 ^ 27 * 2 ^ 149 := by decide +kernel

/-- The last phase that ends and the first that does not: 16777218 and 16777220 (40_nco_sine_naive.md R85 (b)). -/
theorem witness_UnitLoopEndsExactlyBelow16777220 :
    isNaN32 0x4B800001 = false ∧ |value32 0x4B800001| < 16777220 * 2 ^ 149 ∧
    isNaN32 0xCB800002 = false ∧ ¬ |value32 0xCB800002| < 16777220 * 2 ^ 149 := by decide +kernel

theorem witness_AtMostTwoWrapSteps :
    InRange 0x40C90FDB 0x40C90FDA ∧ isNaN32 0xC0C90FDB = false ∧ |value32 0xC0C90FDB| ≤ value32 0x40C90FDB ∧
    InRange 0x3F800000 0x3F7FFFFF ∧ isNaN32 0x3F800000 = false ∧ |value32 0x3F800000| ≤ value32 0x3F800000 := by
  unfold InRange
  decide +kernel

/-- V-SIN-15 for the radian family, a quotient that overflows for the unit family, and counts in both modes. -/
theorem witness_IncrementIsNoNaNAndInfinityHangs :
    isFinite32 0x7F61B1E6 = true ∧ isFinite32 0x3F000000 = true ∧ flt32 0x00000000 0x3F000000 = true ∧
    isFinite32 ((phases 0).phase 0) = true ∧ isFinite32 (fdiv32 (fmul32 0x40C90FDB 0x7F61B1E6) 0x3F000000) = false ∧
    isFinite32 (fdiv32 0x7F61B1E6 0x3F000000) = false ∧ (1 : Nat) ≠ 0 ∧ autohSaw 0x7F61B1E6 0x3F000000 ≠ none ∧
    autohOdd 0x7F61B1E6 0x3F000000 ≠ none := by decide +kernel

/-- V-SIN-14 and V-SQR-8: the loop never ends, in both families; the count exists in auto mode too. -/
theorem witness_AdvanceHangsWhenTheLoopNeverEnds :
    isFinite32 0x4E6E6B28 = true ∧ isFinite32 0x3F800000 = true ∧ flt32 0x00000000 0x3F800000 = true ∧
    isFinite32 ((phases 0).phase 0) = true ∧ (0 : Nat) = 0 ∧ autohSaw 0x4E6E6B28 0x3F800000 ≠ none ∧
    autohOdd 0x4E6E6B28 0x3F800000 ≠ none ∧ (1 : Nat) ≠ 0 ∧
    (∀ q, ¬ WrapsTo 0x3F800000 (fadd32 ((phases 0).phase 0) (fdiv32 0x4E6E6B28 0x3F800000)) q) ∧
    (∀ q, ¬ WrapsTo 0x40C90FDB (fadd32 ((phases 0).phase 0) (fdiv32 (fmul32 0x40C90FDB 0x4E6E6B28) 0x3F800000)) q) :=
  ⟨by decide +kernel, by decide +kernel, by decide +kernel, by decide +kernel, rfl, by decide +kernel, by decide +kernel,
    by decide, not_wrapsTo_of_absorbed (by decide +kernel), not_wrapsTo_of_absorbed (by decide +kernel)⟩

theorem witness_HungBlockStaysHung :
    let s := testState 0 ⟨0x00000001, 0x4E6E6B28, 0x3F800000⟩
    s.rst = false ∧ s.busy = true ∧ s.resp = none ∧ decode s.cmd = .ok (.advsin 0 0x4E6E6B28 0x3F800000) ∧
    exec (.advsin 0 0x4E6E6B28 0x3F800000) s = .next { s with busy := true, resp := none } :=
  ⟨rfl, rfl, rfl, rfl, rfl⟩

/-- V-ENC-5 (191.25), and both end codes. -/
theorem witness_Enc8Result :
    isNaN32 0x3F000000 = false ∧
    NearestAwayFromZero 149
      (value32 (clamp32 (fmul32 (fadd32 0x3F000000 0x3F800000) 0x42FF0000) 0x00000000 0x437F0000)) 191 ∧
    NearestAwayFromZero 149
      (value32 (clamp32 (fmul32 (fadd32 0x7F800000 0x3F800000) 0x42FF0000) 0x00000000 0x437F0000)) 255 ∧
    NearestAwayFromZero 149
      (value32 (clamp32 (fmul32 (fadd32 0xFF800000 0x3F800000) 0x42FF0000) 0x00000000 0x437F0000)) 0 := by
  unfold NearestAwayFromZero
  decide +kernel

/-- V-ENC-26: a tie, −0.5 to −1. -/
theorem witness_Enc16Result :
    isNaN32 0xB7800000 = false ∧
    NearestAwayFromZero 149
      (value32 (clamp32 (if flt32 0xB7800000 0x00000000 then fmul32 0xB7800000 0x47000000 else fmul32 0xB7800000 0x46FFFE00)
        0xC7000000 0x46FFFE00)) (-1) := by
  unfold NearestAwayFromZero
  decide +kernel

/-- V-ENC-5: a tie, 1073741823.5 to 1073741824. -/
theorem witness_Enc32Result :
    isNaN32 0x3F000000 = false ∧
    NearestAwayFromZero 1074
      (value64 (clamp64
        (if flt32 0x3F000000 0x00000000 then fmul64 (f32to64 0x3F000000) 0x41E0000000000000
          else fmul64 (f32to64 0x3F000000) 0x41DFFFFFFFC00000)
        0xC1E0000000000000 0x41DFFFFFFFC00000)) 1073741824 := by
  unfold NearestAwayFromZero
  decide +kernel

theorem witness_EncodersAreMonotone :
    let s := phases 0
    fle32 0xBF000000 0x3F000000 = true ∧
    (exec (.enc8 0xBF000000) s = .next (s.respond ⟨0, 1, 64⟩) ∧ exec (.enc8 0x3F000000) s = .next (s.respond ⟨0, 1, 191⟩)) ∧
    (exec (.enc16 0xBF000000) s = .next (s.respond ⟨0, 2, 0xC000⟩) ∧
      exec (.enc16 0x3F000000) s = .next (s.respond ⟨0, 2, 0x4000⟩)) ∧
    (exec (.enc32 0xBF000000) s = .next (s.respond ⟨0, 4, 0xC0000000⟩) ∧
      exec (.enc32 0x3F000000) s = .next (s.respond ⟨0, 4, 0x40000000⟩)) := by
  have a : BitVec.ofInt 32 (code32 0xBF000000) = 0xC0000000 := by decide +kernel
  have b : BitVec.ofInt 32 (code32 0x3F000000) = 0x40000000 := by decide +kernel
  exact ⟨by decide +kernel, ⟨rfl, rfl⟩, ⟨rfl, rfl⟩, congrArg (fun r => (Host.Outcome.next ((phases 0).respond ⟨0, 4, r⟩) : StepOutcome)) a,
    congrArg (fun r => (Host.Outcome.next ((phases 0).respond ⟨0, 4, r⟩) : StepOutcome)) b⟩

theorem witness_EncodersSaturate :
    fle32 0x3F800000 0x3F800000 = true ∧ fle32 0x3F800000 0x7F800000 = true ∧ fle32 0xBF800000 0xBF800000 = true ∧
    fle32 0xFF800000 0xBF800000 = true := by decide +kernel

theorem witness_PcmLanesAreLittleEndian :
    let s := phases 0
    exec (.enc16 0xBF800000) s = .next (s.respond ⟨0, 2, 0x8000⟩) ∧ exec (.enc8 0x3F000000) s = .next (s.respond ⟨0, 1, 191⟩) ∧
    exec (.enc32 0x3E800000) s = .next (s.respond ⟨0, 4, 0x20000000⟩) := by
  have a : BitVec.ofInt 32 (code32 0x3E800000) = 0x20000000 := by decide +kernel
  exact ⟨rfl, rfl, congrArg (fun r => (Host.Outcome.next ((phases 0).respond ⟨0, 4, r⟩) : StepOutcome)) a⟩

theorem witness_PhrdResult : exec (.phwr 5 0x3F800000) (phases 0) =
    .next (((phases 0).setPhase 5 0x3F800000).respond ⟨0, 0, 0⟩) := rfl

theorem witness_RdfsResult : (phases 0).fstat = 0 ∧
    exec (.enc16 0x7FC00000) (phases 0) = .next ((phases 0).raise .encodeNaN) := ⟨rfl, rfl⟩

theorem witness_ReadsAndEncodesHaveNoSideEffect :
    let s := phases 0
    isAdvance (.phrd 3) = false ∧ (∀ pr v, Instr.phrd 3 ≠ .phwr pr v) ∧ exec (.phrd 3) s = .next (s.respond ⟨0, 4, 0⟩) ∧
    exec (.phwr 3 7) s = .next ((s.setPhase 3 7).respond ⟨0, 0, 0⟩) := ⟨rfl, by simp, rfl, rfl⟩

theorem witness_FaultResponseIsPrecise :
    let s := testState 0 ⟨0x00000008, 0x7FC00000, 0⟩
    s.rst = false ∧ s.busy = true ∧ step s = .next (s.raise .encodeNaN) ∧
    (s.raise .encodeNaN).resp = some ⟨4, 0, 0⟩ ∧ (4 : BitVec 4) ≠ 0 := ⟨rfl, rfl, rfl, rfl, by decide⟩

/-- Each way out of the domain: a rate of +0 or −0 or infinity, a frequency NaN, an infinite phase. -/
theorem witness_OperandFaultOutsideTheDomain :
    flt32 0x00000000 0x00000000 = false ∧ flt32 0x00000000 0x80000000 = false ∧ isFinite32 0x7F800000 = false ∧
    isFinite32 0x7FC00000 = false ∧ isFinite32 ((phases 0xFF800000).phase 0) = false := by decide +kernel

/-- V-AH-12, V-AH-14 and a low frequency for the odd search; and a command that faults so. -/
theorem witness_HarmonicRangeFault :
    isFinite32 0x472C4400 = true ∧ flt32 0x00000000 0x472C4400 = true ∧ isFinite32 ((phases 0).phase 0) = true ∧
    flt32 0xC0A00000 0x00000000 = true ∧ flt32 0x00000000 0x3EAC43FF = true ∧
    flt32 (fmul32 0x3EAC43FF (i2f32 65536)) (fdiv32 0x472C4400 0x40000000) = true ∧
    flt32 0x00000000 0x3E000000 = true ∧ flt32 (fmul32 0x3E000000 (i2f32 131069)) (fdiv32 0x472C4400 0x40000000) = true ∧
    responseOf (exec (.advblsqr 0 0 0xC0A00000 0x472C4400) (phases 0)) = some ⟨3, 0, 0⟩ := by decide +kernel

theorem witness_EncodeNanFault :
    isNaN32 0x7FC00000 = true ∧ isNaN32 0x7F800001 = true ∧ isNaN32 0x7F800000 = false ∧ isNaN32 0xFF800000 = false := by
  decide +kernel

/-- The domain, a count in auto mode, a zero frequency, and the boundary 22050/65536 of V-AH-13. -/
theorem witness_NoFaultInsideTheDomain :
    isFinite32 0x3EAC4400 = true ∧ isFinite32 0x472C4400 = true ∧ flt32 0x00000000 0x472C4400 = true ∧
    isFinite32 ((phases 0).phase 0) = true ∧ autohSaw 0x447A0000 0x472C4400 ≠ none ∧
    feq32 0x80000000 0x00000000 = true ∧ flt32 0x00000000 0x3EAC4400 = true ∧
    fle32 (fdiv32 0x472C4400 0x40000000) (fmul32 0x3EAC4400 (i2f32 65536)) = true ∧ isNaN32 0x7F800000 = false ∧
    (responseOf (exec (.advblsaw 0 0 0x80000000 0x472C4400) (phases 0))).isSome = true := by decide +kernel

/-- V-DEC-14, V-PRI-2, V-PRI-4. -/
theorem witness_FaultPriority :
    selectsRow 0xFFFFFFFF = false ∧ flt32 0xC0A00000 0x00000000 = true ∧ isFinite32 0x7FC00000 = false ∧
    flt32 0xCE6E6B28 0x00000000 = true ∧ isFinite32 0xCE6E6B28 = true ∧ isFinite32 0x3F800000 = true ∧
    flt32 0x00000000 0x3F800000 = true ∧ isFinite32 ((phases 0).phase 0) = true ∧
    (∀ q, ¬ WrapsTo 0x40C90FDB (fadd32 ((phases 0).phase 0) (fdiv32 (fmul32 0x40C90FDB 0xCE6E6B28) 0x3F800000)) q) :=
  ⟨by decide +kernel, by decide +kernel, by decide +kernel, by decide +kernel, by decide +kernel, by decide +kernel,
    by decide +kernel, by decide +kernel, not_wrapsTo_of_absorbed (by decide +kernel)⟩

theorem witness_FaultBitsAreSticky :
    let s := testState 0 ⟨0x00000008, 0x7FC00000, 0⟩
    let u := { s with fstat := 0b0001 }
    step u = .next (u.raise .encodeNaN) ∧ u.rst = false ∧ u.recorded .illegalCommand = true ∧
    u.recorded .encodeNaN = false ∧ (u.raise .encodeNaN).recorded .encodeNaN = true ∧
    step u.assertReset = .next u.assertReset.takeReset ∧ u.assertReset.rst = true :=
  ⟨rfl, rfl, rfl, rfl, rfl, rfl, rfl⟩

theorem witness_OnlyTheNamedRegisterChanges :
    let s := testState 0 ⟨0x0000005B, 7, 0⟩
    s.rst = false ∧ step s = .next ((s.setPhase 5 7).respond ⟨0, 0, 0⟩) ∧
    ((s.setPhase 5 7).respond ⟨0, 0, 0⟩).phase 5 ≠ s.phase 5 := ⟨rfl, rfl, by decide +kernel⟩

/-- Two states that differ in another register, in `FSTAT` and in what waits. -/
theorem witness_ResultDependsOnlyOnNamedState :
    let s := testState 0 ⟨0x0000000C, 0, 0⟩
    let s' := { (testState 0 ⟨0x0000000C, 0, 0⟩).setPhase 1 9 with fstat := 0b0101, held := [⟨0, 0, 0⟩] }
    s.rst = false ∧ s'.rst = false ∧ s.busy = true ∧ s'.busy = true ∧ s.cmd = s'.cmd ∧ decode s.cmd = .ok (.phrd 0) ∧
    s.phase 0 = s'.phase 0 ∧ decode s.cmd ≠ .ok .rdfs ∧ step s = .next (s.respond ⟨0, 4, 0⟩) ∧
    step s' = .next (s'.respond ⟨0, 4, 0⟩) ∧ s.phase 1 ≠ s'.phase 1 :=
  ⟨rfl, rfl, rfl, rfl, rfl, rfl, rfl, nofun, rfl, rfl, by decide +kernel⟩

theorem witness_StepKeepsTheResponseInvariant : (phases 0).ResponseInv :=
  ⟨fun _ => rfl, fun r h => by simp [phases, testState] at h⟩

/-- A value between two magnitudes, one at a tie, and the smallest that overflows. -/
theorem witness_RoundingIsNearestEven :
    roundMag binary32 5 3 < infMag binary32 ∧ roundMag binary32 3 2 = 2 ∧ (2 : Nat) < infMag binary32 ∧
    (magValue binary32 (infMag binary32 - 1) + magValue binary32 (infMag binary32)) * 2 ≤
      2 * (magValue binary32 (infMag binary32 - 1) + magValue binary32 (infMag binary32)) ∧
    roundMag binary32 (magValue binary32 (infMag binary32 - 1) + magValue binary32 (infMag binary32)) 2 =
      infMag binary32 := by decide +kernel

theorem witness_IntegersConvertExactly :
    i2f32 (-1) = 0xBF800000 ∧ i2f32 131071 = 0x47FFFF80 ∧ (-1 : Int) ≤ 0 ∧ (0 : Int) ≤ 131071 := by decide +kernel

theorem witness_WideningIsExact : isFinite32 0x00000001 = true ∧ isFinite32 0x7F7FFFFF = true := by decide +kernel

theorem witness_SineHasS1AndS2 : isFinite32 0x7F7FFFFF = true ∧ isFinite32 0x80000001 = true := by decide +kernel

theorem witness_EverySampleIsFinite :
    (Instr.advblsaw 0 2 0 0x3F800000).wellFormed = true ∧ isAdvance (.advblsaw 0 2 0 0x3F800000) = true ∧
    ∃ t a, exec (.advblsaw 0 2 0 0x3F800000) (phases 0x3F000000) = .next t ∧ t.resp = some a ∧ a.st = 0 :=
  ⟨rfl, rfl, (phases 0x3F000000).commit 0 0x3F000000 (blSawSample 2 0x3F000000), _, rfl, rfl, rfl⟩

end Sys2Proof.Tests
end

section
/-! PROOFS. The phase ranges (10_state.md R24): where an operation of the block cannot give a NaN, what the wrap loop leaves behind,
and so where an advance command that responds OK leaves its register. -/

namespace Sys2Proof.Machine

/-! ### Results that are no NaN (00_scope.md R8) -/

theorem isNaN32_eq (a : Word) : isNaN32 a = isNaNBits binary32 (unpack32 a) := rfl

@[simp] theorem isNaNBits_zero (F : FloatFormat) (neg : Bool) : isNaNBits F ⟨neg, 0⟩ = false := by simp [isNaNBits]

@[simp] theorem isNaNBits_infMag (F : FloatFormat) (neg : Bool) : isNaNBits F ⟨neg, infMag F⟩ = false := by
  simp [isNaNBits]

@[simp] theorem isNaNBits_roundMag (F : FloatFormat) (neg : Bool) (num den : Nat) :
    isNaNBits F ⟨neg, roundMag F num den⟩ = false := by
  simpa [isNaNBits] using roundMag_le_infMag F num den

theorem isInfBits_of_isFinite32 {a : Word} (h : isFinite32 a = true) : isInfBits binary32 (unpack32 a) = false := by
  simp only [isFinite32, isFiniteBits, isInfBits, decide_eq_true_eq, decide_eq_false_iff_not] at *
  omega

@[simp] theorem isNaN32_fneg32 (a : Word) : isNaN32 (fneg32 a) = isNaN32 a := by
  simp [isNaN32, isNaNBits, unpack32_fneg32]

@[simp] theorem isFinite32_fneg32 (a : Word) : isFinite32 (fneg32 a) = isFinite32 a := by
  simp [isFinite32, isFiniteBits, unpack32_fneg32]

/-- A sum is a NaN only by a NaN operand or by two infinities. -/
theorem isNaN32_fadd32 {a b : Word} (ha : isNaN32 a = false) (hb : isNaN32 b = false)
    (hfin : isFinite32 a = true ∨ isFinite32 b = true) : isNaN32 (fadd32 a b) = false := by
  rw [isNaN32_eq] at *
  rw [unpack32_fadd32, addBits]
  cases hia : isInfBits binary32 (unpack32 a) with
  | true =>
    have hib : isInfBits binary32 (unpack32 b) = false := by
      rcases hfin with hf | hf
      · simp [isInfBits_of_isFinite32 hf] at hia
      · exact isInfBits_of_isFinite32 hf
    simp [ha, hb, hib]
  | false =>
    cases hib : isInfBits binary32 (unpack32 b) with
    | true => simp [ha, hb]
    | false =>
      by_cases hz : bitsValue binary32 (unpack32 a) + bitsValue binary32 (unpack32 b) = 0
      · simp [ha, hb, hz]
      · simp [ha, hb, hz]

/-- A product of finite operands is no NaN. -/
theorem isNaN32_fmul32 {a b : Word} (ha : isFinite32 a = true) (hb : isFinite32 b = true) :
    isNaN32 (fmul32 a b) = false := by
  have hNa := not_isNaN32_of_isFinite32 ha
  have hNb := not_isNaN32_of_isFinite32 hb
  rw [isNaN32_eq] at *
  simp [unpack32_fmul32, mulBits, hNa, hNb, isInfBits_of_isFinite32 ha, isInfBits_of_isFinite32 hb]

/-- A number above zero is no zero pattern. -/
theorem unpack32_mag_ne_zero_of_pos {b : Word} (h : flt32 fZero b = true) : (unpack32 b).mag ≠ 0 := by
  obtain ⟨_, _, hlt⟩ := flt32_iff.mp h
  intro h0
  have hb : value32 b = 0 := by simp [value32, bitsValue, h0]
  rw [hb] at hlt
  exact absurd hlt (by decide)

/-- A quotient by a finite number above zero is no NaN, also where the dividend is infinite. -/
theorem isNaN32_fdiv32 {a b : Word} (ha : isNaN32 a = false) (hb : isFinite32 b = true) (hpos : flt32 fZero b = true) :
    isNaN32 (fdiv32 a b) = false := by
  have hNb := not_isNaN32_of_isFinite32 hb
  rw [isNaN32_eq] at *
  rw [unpack32_fdiv32, divBits]
  cases hi : isInfBits binary32 (unpack32 a) with
  | true => simp [ha, hNb, isInfBits_of_isFinite32 hb]
  | false => simp [ha, hNb, isInfBits_of_isFinite32 hb, unpack32_mag_ne_zero_of_pos hpos]

/-! ### The increments are no NaN in the defined domain (40_nco_sine_naive.md R81, 60_exceptions.md R152) -/

theorem domainOK_iff {f r p0 : Word} :
    domainOK f r p0 = true ↔
      isFinite32 f = true ∧ isFinite32 r = true ∧ flt32 fZero r = true ∧ isFinite32 p0 = true := by
  simp [domainOK, and_assoc]

theorem isFinite32_twoPi : isFinite32 twoPi = true := by decide

theorem isFinite32_fOne : isFinite32 fOne = true := by decide

theorem isNaN32_radianInc {f r p0 : Word} (h : domainOK f r p0 = true) : isNaN32 (radianInc f r) = false := by
  obtain ⟨hf, hr, hpos, _⟩ := domainOK_iff.mp h
  exact isNaN32_fdiv32 (isNaN32_fmul32 isFinite32_twoPi hf) hr hpos

theorem isNaN32_unitInc {f r p0 : Word} (h : domainOK f r p0 = true) : isNaN32 (unitInc f r) = false := by
  obtain ⟨hf, hr, hpos, _⟩ := domainOK_iff.mp h
  exact isNaN32_fdiv32 (not_isNaN32_of_isFinite32 hf) hr hpos

/-- The phase the wrap loop starts from is no NaN: the stored phase is finite in the domain. -/
theorem isNaN32_advancedPhase {f r p0 inc : Word} (h : domainOK f r p0 = true) (hinc : isNaN32 inc = false) :
    isNaN32 (fadd32 p0 inc) = false := by
  obtain ⟨_, _, _, hp⟩ := domainOK_iff.mp h
  exact isNaN32_fadd32 (not_isNaN32_of_isFinite32 hp) hinc (.inl hp)

/-! ### What the wrap loop returns -/

/-- Between numbers the two comparisons are each other's negation (00_scope.md R9). -/
theorem fle32_of_flt32_false {a b : Word} (ha : isNaN32 a = false) (hb : isNaN32 b = false) (h : flt32 a b = false) :
    fle32 b a = true := by
  refine fle32_iff.mpr ⟨hb, ha, ?_⟩
  by_contra hlt
  simp [flt32_iff.mpr ⟨ha, hb, not_le.mp hlt⟩] at h

theorem flt32_of_fle32_false {a b : Word} (ha : isNaN32 a = false) (hb : isNaN32 b = false) (h : fle32 a b = false) :
    flt32 b a = true := by
  refine flt32_iff.mpr ⟨hb, ha, ?_⟩
  by_contra hle
  simp [fle32_iff.mpr ⟨ha, hb, not_lt.mp hle⟩] at h

/-- A pass that returns has a phase in range. -/
theorem inRange_of_wrapPass_done {m p : Word} (hm : isFinite32 m = true) (hp : isNaN32 p = false)
    (h : wrapPass m p = .done) : InRange m p := by
  rcases wrapPass_cases m p with ⟨_, hw⟩ | ⟨_, _, hw⟩ | ⟨hlo, hhi, _⟩
  · simp [hw] at h
  · simp [hw] at h
  · exact ⟨fle32_of_flt32_false hp (by decide) hlo, flt32_of_fle32_false (not_isNaN32_of_isFinite32 hm) hp hhi⟩

/-- A pass that goes on keeps the phase a number, since the period is finite. -/
theorem isNaN32_of_wrapPass_again {m p q : Word} (hm : isFinite32 m = true) (hp : isNaN32 p = false)
    (h : wrapPass m p = .again q) : isNaN32 q = false := by
  have hNm := not_isNaN32_of_isFinite32 hm
  rcases wrapPass_cases m p with ⟨_, hw⟩ | ⟨_, _, hw⟩ | ⟨_, _, hw⟩ <;> rw [hw] at h <;> cases h
  · exact isNaN32_fadd32 hp hNm (.inr hm)
  · exact isNaN32_fadd32 hp (by simpa using hNm) (.inr (by simpa using hm))

/-- From a number the loop returns only in range (40_nco_sine_naive.md R82). -/
theorem wrapLoop_inRange {m : Word} (hm : isFinite32 m = true) {n : Nat} {p q : Word} (hp : isNaN32 p = false)
    (h : wrapLoop m n p = some q) : InRange m q := by
  induction n generalizing p with
  | zero => cases h
  | succ n ih =>
    rw [wrapLoop_succ] at h
    cases hw : wrapPass m p with
    | done =>
      simp only [hw, Option.some.injEq] at h
      exact h ▸ inRange_of_wrapPass_done hm hp hw
    | again p' =>
      simp only [hw, ite_eq_iff, reduceCtorEq, and_false, false_or] at h
      exact ih (isNaN32_of_wrapPass_again hm hp hw) h.2

/-! ### The advance commands -/

theorem FaultCause.code_ne_zero (c : FaultCause) : c.code ≠ 0 := by cases c <;> decide

/-- A fault response is no OK response. -/
theorem not_ok_of_raise {s : State} {c : FaultCause} {x : Response} (hr : (s.raise c).resp = some x) : x.st ≠ 0 := by
  obtain rfl : _ = x := Option.some.inj hr
  exact c.code_ne_zero

/-- The register an advance command names, after it has responded OK: the loop started from a number. -/
theorem advance_inRange {pr : Fin 16} {f r inc m : Word} {sample : Word → Word} {s t : State} {x : Response}
    (hm : isFinite32 m = true) (hinc : domainOK f r (s.phase pr) = true → isNaN32 inc = false)
    (h : advance pr f r inc m sample s = .next t) (hr : t.resp = some x) (hx : x.st = 0) : InRange m (t.phase pr) := by
  rcases advance_cases h with ⟨_, rfl⟩ | ⟨hd, p1, hw, rfl⟩ | ⟨_, _, rfl⟩
  · exact absurd hx (not_ok_of_raise hr)
  · rw [commit_phase_self]
    exact wrapLoop_inRange hm (isNaN32_advancedPhase hd (hinc hd)) hw
  · cases hr

theorem advanceBandlimited_inRange {pr : Fin 16} {f r : Word} {count : Option Nat} {sample : Nat → Word → Word}
    {s t : State} {x : Response} (h : advanceBandlimited pr f r count sample s = .next t) (hr : t.resp = some x)
    (hx : x.st = 0) : InRange twoPi (t.phase pr) := by
  rcases advanceBandlimited_cases h with ⟨_, rfl⟩ | ⟨_, _, rfl⟩ | ⟨hd, n, p1, _, hw, rfl⟩ | ⟨_, n, _, _, rfl⟩
  · exact absurd hx (not_ok_of_raise hr)
  · exact absurd hx (not_ok_of_raise hr)
  · rw [commit_phase_self]
    exact wrapLoop_inRange isFinite32_twoPi (isNaN32_advancedPhase hd (isNaN32_radianInc hd)) hw
  · cases hr

/-- An advance command that responds OK leaves the register it names in its family's range. -/
theorem exec_inRange {i : Instr} {pr : Fin 16} {s t : State} {x : Response} (ha : isAdvance i = true)
    (hreg : instrRegister i = some pr) (h : exec i s = .next t) (hr : t.resp = some x) (hx : x.st = 0) :
    InRange (period i) (t.phase pr) := by
  cases i with
  | advsin _ f r => cases hreg; exact advance_inRange isFinite32_twoPi isNaN32_radianInc h hr hx
  | advsqr _ f r => cases hreg; exact advance_inRange isFinite32_fOne isNaN32_unitInc h hr hx
  | advsaw _ f r => cases hreg; exact advance_inRange isFinite32_fOne isNaN32_unitInc h hr hx
  | advtri _ f r => cases hreg; exact advance_inRange isFinite32_fOne isNaN32_unitInc h hr hx
  | advblsqr _ hc f r => cases hreg; exact advanceBandlimited_inRange h hr hx
  | advblsaw _ hc f r => cases hreg; exact advanceBandlimited_inRange h hr hx
  | advbltri _ hc f r => cases hreg; exact advanceBandlimited_inRange h hr hx
  | enc8 _ | enc16 _ | enc32 _ | phwr _ _ | phrd _ | rdfs => cases ha

/-- Settles O24: the wrap loop of an advance command starts from a number and returns only in range, and an OK response is the
commit of what it returned; `-0` is compared in both ranges directly. -/
theorem phaseInRangeAfterAdvance : Obligations.PhaseInRangeAfterAdvance := by
  unfold Obligations.PhaseInRangeAfterAdvance
  refine ⟨fun i pr s t x ha hreg h hr hx => exec_inRange ha hreg h hr hx, ?_, ?_⟩
  · exact ⟨by decide, by decide⟩
  · exact ⟨by decide, by decide⟩

end Sys2Proof.Machine
end

section
/-! PROOFS. No hidden state (10_state.md R28): a command makes one update of the state, and which one it is depends only on the command
and what it reads, so two states that agree on that take the same update. -/

namespace Sys2Proof.Machine

/-- The updates a command that names the register `reg` can make, each one function of the state with its data fixed: `exec_cases`
as functions, so that two states can be said to take the same one. -/
inductive CommandUpdate (reg : Option (Fin 16)) : (State → State) → Prop where
  | raise (c : FaultCause) : CommandUpdate reg (·.raise c)
  | write (pr : Fin 16) (v : Word) (r : Response) : reg = some pr →
      CommandUpdate reg (fun s => (s.setPhase pr v).respond r)
  | respond (r : Response) : CommandUpdate reg (·.respond r)
  | hang : CommandUpdate reg State.hang

/-- Both outcomes are the same update, each of its own state. -/
def SameUpdate (reg : Option (Fin 16)) (s s' : State) (o o' : StepOutcome) : Prop :=
  ∃ u, CommandUpdate reg u ∧ o = .next (u s) ∧ o' = .next (u s')

/-! ### The shared operations take the same update -/

theorem finishAdvance_sameUpdate (pr : Fin 16) (start m : Word) (sample : Word → Word) (s s' : State) :
    SameUpdate (some pr) s s' (finishAdvance pr start m sample s) (finishAdvance pr start m sample s') := by
  cases hw : wrap start m with
  | some p1 => exact ⟨_, .write pr p1 ⟨0, 4, sample p1⟩ rfl, finishAdvance_some hw, finishAdvance_some hw⟩
  | none => exact ⟨_, .hang, finishAdvance_none hw, finishAdvance_none hw⟩

theorem advance_sameUpdate {pr : Fin 16} (f r inc m : Word) (sample : Word → Word) {s s' : State}
    (hp : s.phase pr = s'.phase pr) :
    SameUpdate (some pr) s s' (advance pr f r inc m sample s) (advance pr f r inc m sample s') := by
  cases hd : domainOK f r (s.phase pr) with
  | false => exact ⟨_, .raise .operandFault, advance_fault hd, advance_fault (hp ▸ hd)⟩
  | true =>
    rw [advance_ok hd, advance_ok (hp ▸ hd), hp]
    exact finishAdvance_sameUpdate ..

theorem advanceBandlimited_sameUpdate {pr : Fin 16} (f r : Word) (count : Option Nat) (sample : Nat → Word → Word)
    {s s' : State} (hp : s.phase pr = s'.phase pr) :
    SameUpdate (some pr) s s' (advanceBandlimited pr f r count sample s)
      (advanceBandlimited pr f r count sample s') := by
  cases hd : domainOK f r (s.phase pr) with
  | false => exact ⟨_, .raise .operandFault, advanceBandlimited_fault hd, advanceBandlimited_fault (hp ▸ hd)⟩
  | true =>
    cases count with
    | none => exact ⟨_, .raise .harmonicRange, advanceBandlimited_range hd, advanceBandlimited_range (hp ▸ hd)⟩
    | some n =>
      rw [advanceBandlimited_ok hd, advanceBandlimited_ok (hp ▸ hd), hp]
      exact finishAdvance_sameUpdate ..

theorem encodeSample_sameUpdate (reg : Option (Fin 16)) (x : Word) (nb : BitVec 3) (code : Word → Word) (s s' : State) :
    SameUpdate reg s s' (encodeSample x nb code s) (encodeSample x nb code s') := by
  cases hn : isNaN32 x with
  | true => exact ⟨_, .raise .encodeNaN, encodeSample_nan hn, encodeSample_nan hn⟩
  | false => exact ⟨_, .respond ⟨0, nb, code x⟩, encodeSample_ok hn, encodeSample_ok hn⟩

/-! ### Every command does -/

/-- Two states that agree on the named register and, for `RDFS`, on `FSTAT` take the same update. -/
theorem exec_sameUpdate {i : Instr} {s s' : State} (hp : ∀ pr, instrRegister i = some pr → s.phase pr = s'.phase pr)
    (hf : i = .rdfs → s.fstat = s'.fstat) : SameUpdate (instrRegister i) s s' (exec i s) (exec i s') := by
  cases i with
  | advsin pr f r | advsqr pr f r | advsaw pr f r | advtri pr f r => exact advance_sameUpdate _ _ _ _ _ (hp pr rfl)
  | advblsqr pr hc f r | advblsaw pr hc f r | advbltri pr hc f r =>
    exact advanceBandlimited_sameUpdate _ _ _ _ (hp pr rfl)
  | enc8 x | enc16 x | enc32 x =>
    simp only [exec_enc8, exec_enc16, exec_enc32]
    exact encodeSample_sameUpdate _ x _ _ s s'
  | phwr pr v => exact ⟨_, .write pr v ⟨0, 0, 0⟩ rfl, rfl, rfl⟩
  | phrd pr => exact ⟨_, .respond ⟨0, 4, s.phase pr⟩, rfl, by rw [exec_phrd, hp pr rfl]⟩
  | rdfs => exact ⟨_, .respond ⟨0, 4, s.fstat.setWidth 32⟩, rfl, by rw [exec_rdfs, hf rfl]⟩

theorem runCommand_ok {s : State} {i : Instr} (h : decode s.cmd = .ok i) : runCommand s = exec i s := by
  simp only [runCommand, h]

theorem runCommand_error {s : State} {e : Illegal} (h : decode s.cmd = .error e) :
    runCommand s = .next (s.raise .illegalCommand) := by
  simp only [runCommand, h]

/-- The accepted command as a whole: an illegal word raises the same fault in both states. -/
theorem runCommand_sameUpdate {s s' : State} (hcmd : s.cmd = s'.cmd)
    (hp : ∀ i pr, decode s.cmd = .ok i → instrRegister i = some pr → s.phase pr = s'.phase pr)
    (hf : decode s.cmd = .ok .rdfs → s.fstat = s'.fstat) :
    ∃ reg, (∀ i, decode s.cmd = .ok i → instrRegister i = reg) ∧
      SameUpdate reg s s' (runCommand s) (runCommand s') := by
  cases hd : decode s.cmd with
  | ok i =>
    refine ⟨instrRegister i, fun j hj => by cases hj; rfl, ?_⟩
    rw [runCommand_ok hd, runCommand_ok (hcmd ▸ hd)]
    exact exec_sameUpdate (fun pr => hp i pr hd) (fun hi => hf (hi ▸ hd))
  | error e =>
    exact ⟨none, nofun, _, .raise .illegalCommand, runCommand_error hd, runCommand_error (hcmd ▸ hd)⟩

/-! ### What the same update leaves the same -/

theorem CommandUpdate.resp_busy_eq {reg : Option (Fin 16)} {u : State → State} (h : CommandUpdate reg u) (s s' : State) :
    (u s).resp = (u s').resp ∧ (u s).busy = (u s').busy := by
  cases h <;> exact ⟨rfl, rfl⟩

theorem CommandUpdate.phase_eq {pr : Fin 16} {u : State → State} (h : CommandUpdate (some pr) u) {s s' : State}
    (hp : s.phase pr = s'.phase pr) : (u s).phase pr = (u s').phase pr := by
  cases h with
  | raise _ | respond _ | hang => exact hp
  | write pr' v r hreg => cases hreg; simp

/-- The bits an update sets in `FSTAT` are a fault's or none, whatever bits the state holds (10_state.md R25). -/
theorem CommandUpdate.fstat_eq {reg : Option (Fin 16)} {u : State → State} (h : CommandUpdate reg u) :
    ∃ bits, ∀ s : State, (u s).fstat = s.fstat ||| bits := by
  cases h with
  | raise c => exact ⟨c.mask, fun s => rfl⟩
  | write _ _ _ _ | respond _ | hang => exact ⟨0, fun s => by simp⟩

/-- Settles O50: a legal command makes the same update of both states, an illegal one raises the same fault in both, and the update
fixes the response, the named register and the new `FSTAT` bits. -/
theorem resultDependsOnlyOnNamedState : Obligations.ResultDependsOnlyOnNamedState := by
  unfold Obligations.ResultDependsOnlyOnNamedState
  intro s s' t t' hr hr' hb hb' hcmd hp hf h h'
  rw [step_busy hr hb] at h
  rw [step_busy hr' hb'] at h'
  obtain ⟨reg, hreg, u, hu, hus, hus'⟩ := runCommand_sameUpdate hcmd hp hf
  obtain rfl : t = u s := next_inj.mp (h.symm.trans hus)
  obtain rfl : t' = u s' := next_inj.mp (h'.symm.trans hus')
  obtain ⟨hresp, hbusy⟩ := hu.resp_busy_eq s s'
  obtain ⟨bits, hbits⟩ := hu.fstat_eq
  refine ⟨hresp, hbusy, fun i pr hd hi => ?_, bits, hbits s, hbits s'⟩
  obtain rfl : some pr = reg := hi.symm.trans (hreg i hd)
  exact hu.phase_eq (hp i pr hd hi)

end Sys2Proof.Machine
end

section
/-! PROOFS. The byte lanes of a response (20_memory.md R40): what the stream is as bytes and as a value for every response, and that an
encode response's code fits in its `NB` lanes. -/

namespace Sys2Proof.Machine

/-! ### The stream of any response -/

@[simp] theorem Response.length_bytes (r : Response) : r.bytes.length = r.nb.toNat := by simp [Response.bytes]

@[simp] theorem Response.getElem_bytes (r : Response) (k : Nat) (h : k < r.bytes.length) : r.bytes[k] = r.lane k := by
  simp [Response.bytes]

/-- A lane is a digit of the result word to the base 256. -/
theorem Response.toNat_lane (r : Response) (k : Nat) : (r.lane k).toNat = r.res.toNat / 256 ^ k % 256 := by
  simp [Response.lane, Nat.shiftRight_eq_div_pow, Nat.pow_mul]

/-- The little-endian value of a byte list, lane 0 least significant. -/
def littleEndian (bytes : List Byte) : Nat := bytes.foldr (fun byte rest => byte.toNat + 256 * rest) 0

/-- Bytes that are the first `n` base-256 digits of `v` have the value of `v` modulo `256 ^ n`. -/
theorem littleEndian_digits {n v : Nat} {digit : Nat → Byte} (h : ∀ k, (digit k).toNat = v / 256 ^ k % 256) :
    littleEndian ((List.range n).map digit) = v % 256 ^ n := by
  induction n generalizing v digit with
  | zero => simp [littleEndian, Nat.mod_one]
  | succ n ih =>
    have htail : littleEndian ((List.range n).map (digit ∘ Nat.succ)) = v / 256 % 256 ^ n :=
      ih fun k => by rw [Function.comp_apply, h, Nat.div_div_eq_div_mul, Nat.pow_succ']
    have hcons : littleEndian ((List.range (n + 1)).map digit) =
        (digit 0).toNat + 256 * littleEndian ((List.range n).map (digit ∘ Nat.succ)) := by
      simp [littleEndian, List.range_succ_eq_map]
    rw [hcons, htail, h 0, Nat.pow_zero, Nat.div_one, Nat.pow_succ', Nat.mod_mul]

/-- The stream is the low `NB` bytes of the result word. -/
theorem Response.littleEndian_bytes (r : Response) : littleEndian r.bytes = r.res.toNat % 256 ^ r.nb.toNat :=
  littleEndian_digits r.toNat_lane

/-! ### A result that fits in its lanes -/

/-- The result word has nothing above the meaningful lanes. -/
def Response.FitsLanes (r : Response) : Prop := r.res.toNat < 256 ^ r.nb.toNat

theorem Response.FitsLanes.lane_eq_zero {r : Response} (hr : r.FitsLanes) {k : Nat} (hk : r.nb.toNat ≤ k) :
    r.lane k = 0 := by
  have hlt : r.res.toNat < 256 ^ k := Nat.lt_of_lt_of_le hr (Nat.pow_le_pow_right (by decide) hk)
  apply BitVec.eq_of_toNat_eq
  simp [r.toNat_lane, Nat.div_eq_of_lt hlt]

theorem Response.FitsLanes.littleEndian_bytes {r : Response} (hr : r.FitsLanes) : littleEndian r.bytes = r.res.toNat :=
  r.littleEndian_bytes.trans (Nat.mod_eq_of_lt hr)

/-! ### Encode responses -/

/-- The OK response of an encode command is its code; a NaN's response is a fault. -/
theorem encodeSample_response {x : Word} {nb : BitVec 3} {code : Word → Word} {s t : State} {a : Response}
    (h : encodeSample x nb code s = .next t) (hr : t.resp = some a) (ha : a.st = 0) : a = ⟨0, nb, code x⟩ := by
  rcases encodeSample_cases h with ⟨_, rfl⟩ | ⟨_, rfl⟩
  · exact absurd ha (not_ok_of_raise hr)
  · exact (Option.some.inj hr).symm

/-- A code narrower than the result word is zero-extended into it, so it stays below `2 ^ w`. -/
theorem fitsLanes_zeroExtend {w : Nat} {nb : BitVec 3} (code : BitVec w) (hw : 2 ^ w = 256 ^ nb.toNat) :
    Response.FitsLanes ⟨0, nb, code.setWidth 32⟩ := by
  calc (code.setWidth 32).toNat
      _ ≤ code.toNat := by rw [BitVec.toNat_setWidth]; exact Nat.mod_le ..
      _ < 2 ^ w := code.isLt
      _ = 256 ^ nb.toNat := hw

/-- Each encode command answers its own number of lanes, and a code that fits in them. -/
theorem encode_response_fitsLanes {i : Instr} {x : Word} {s t : State} {a : Response}
    (hi : i = .enc8 x ∨ i = .enc16 x ∨ i = .enc32 x) (h : exec i s = .next t) (hr : t.resp = some a) (ha : a.st = 0) :
    (a.nb = 1 ∨ a.nb = 2 ∨ a.nb = 4) ∧ a.FitsLanes := by
  rcases hi with rfl | rfl | rfl
  · rw [exec_enc8] at h
    obtain rfl := encodeSample_response h hr ha
    exact ⟨.inl rfl, fitsLanes_zeroExtend _ rfl⟩
  · rw [exec_enc16] at h
    obtain rfl := encodeSample_response h hr ha
    exact ⟨.inr (.inl rfl), fitsLanes_zeroExtend _ rfl⟩
  · rw [exec_enc32] at h
    obtain rfl := encodeSample_response h hr ha
    exact ⟨.inr (.inr rfl), (BitVec.ofInt 32 (code32 x)).isLt⟩

/-- The example of 20_memory.md R40: −1.0 in 16 bits is −32768. -/
theorem code16_negOne : code16 0xBF800000 = -32768 := by decide +kernel

theorem exec_enc16_negOne (s : State) : exec (.enc16 0xBF800000) s = .next (s.respond ⟨0, 2, 0x00008000⟩) := by
  have hnan : isNaN32 0xBF800000 = false := by decide
  rw [exec_enc16, encodeSample_ok hnan, code16_negOne]
  rfl

/-- Settles O37: every response's stream is the low `NB` bytes of `RES`, and an encode response has nothing above them. -/
theorem pcmLanesAreLittleEndian : Obligations.PcmLanesAreLittleEndian := by
  unfold Obligations.PcmLanesAreLittleEndian
  constructor
  · intro i x s t a hi h hr ha
    obtain ⟨hnb, hfits⟩ := encode_response_fitsLanes hi h hr ha
    exact ⟨hnb, a.length_bytes, fun k hk _ => hfits.lane_eq_zero hk, a.getElem_bytes, hfits.littleEndian_bytes.symm⟩
  · intro s t a h hr
    obtain rfl := next_inj.mp ((exec_enc16_negOne s).symm.trans h)
    obtain rfl := Option.some.inj hr
    exact ⟨rfl, rfl, rfl⟩

end Sys2Proof.Machine
end

section
/-! PROOFS. The decoder (30_encoding.md R61, R62, R72): the four fields as numbers of the word, what each class answers, and one
equation per opcode; from these the decoding procedure clause by clause. -/

namespace Sys2Proof.Machine

/-! ### The fields as numbers (30_encoding.md R61) -/

theorem toNat_fieldOp (w : Word) : (fieldOp w).toNat = w.toNat % 16 := by simp [fieldOp]

theorem val_fieldPr (w : Word) : (fieldPr w).val = w.toNat / 16 % 16 := by simp [fieldPr, Nat.shiftRight_eq_div_pow]

theorem toNat_fieldRsv (w : Word) : (fieldRsv w).toNat = w.toNat / 256 % 256 := by
  simp [fieldRsv, Nat.shiftRight_eq_div_pow]

/-- `HC` is the top of the word, so nothing is cut off above it. -/
theorem fieldHc_eq (w : Word) : fieldHc w = w.toNat / 65536 := by
  have hlt : w.toNat / 65536 < 65536 := Nat.div_lt_of_lt_mul w.isLt
  simp [fieldHc, Nat.shiftRight_eq_div_pow, Nat.mod_eq_of_lt hlt]

theorem fieldRsv_eq_zero_iff (w : Word) : fieldRsv w = 0 ↔ w.toNat / 256 % 256 = 0 := by
  rw [← toNat_fieldRsv, BitVec.toNat_eq]
  rfl

theorem fieldPr_eq_zero_iff (w : Word) : fieldPr w = 0 ↔ w.toNat / 16 % 16 = 0 := by
  rw [← val_fieldPr, Fin.ext_iff]
  rfl

theorem ofNat_pr_eq_fieldPr (w : Word) : Fin.ofNat 16 (w.toNat / 16 % 16) = fieldPr w := by
  rw [← val_fieldPr]
  exact Fin.ofNat_val_eq_self _

/-! ### The classes (30_encoding.md R62) -/

theorem decodeA_ok {w : Word} (i : Instr) (h : fieldHc w = 0) : decodeA w i = .ok i := if_pos h

theorem decodeA_error {w : Word} (i : Instr) (h : fieldHc w ≠ 0) : decodeA w i = .error .unusedCount := if_neg h

theorem decodeE_ok {w : Word} (i : Instr) (hp : fieldPr w = 0) (hc : fieldHc w = 0) : decodeE w i = .ok i := by
  simp [decodeE, hp, hc]

theorem decodeE_error {w : Word} (i : Instr) (h : fieldPr w ≠ 0 ∨ fieldHc w ≠ 0) : ∃ e, decodeE w i = .error e := by
  by_cases hc : fieldHc w = 0
  · have hp : fieldPr w ≠ 0 := h.resolve_right (not_not_intro hc)
    exact ⟨.unusedRegister, by simp [decodeE, hc, hp]⟩
  · exact ⟨.unusedCount, if_pos hc⟩

/-! ### The opcodes (30_encoding.md R65, R72) -/

theorem decode_reservedField {c : Command} (h : fieldRsv c.cw ≠ 0) : decode c = .error .reservedField := if_pos h

section
variable {c : Command} (hrsv : fieldRsv c.cw = 0)
include hrsv

theorem decode_advsin (hop : (fieldOp c.cw).toNat = 1) : decode c = decodeA c.cw (.advsin (fieldPr c.cw) c.opa c.opb) := by
  simp [decode, hrsv, hop]

theorem decode_advsqr (hop : (fieldOp c.cw).toNat = 2) : decode c = decodeA c.cw (.advsqr (fieldPr c.cw) c.opa c.opb) := by
  simp [decode, hrsv, hop]

theorem decode_advsaw (hop : (fieldOp c.cw).toNat = 3) : decode c = decodeA c.cw (.advsaw (fieldPr c.cw) c.opa c.opb) := by
  simp [decode, hrsv, hop]

theorem decode_advtri (hop : (fieldOp c.cw).toNat = 4) : decode c = decodeA c.cw (.advtri (fieldPr c.cw) c.opa c.opb) := by
  simp [decode, hrsv, hop]

theorem decode_advblsqr (hop : (fieldOp c.cw).toNat = 5) :
    decode c = .ok (.advblsqr (fieldPr c.cw) (fieldHc c.cw) c.opa c.opb) := by
  simp [decode, hrsv, hop]

theorem decode_advblsaw (hop : (fieldOp c.cw).toNat = 6) :
    decode c = .ok (.advblsaw (fieldPr c.cw) (fieldHc c.cw) c.opa c.opb) := by
  simp [decode, hrsv, hop]

theorem decode_advbltri (hop : (fieldOp c.cw).toNat = 7) :
    decode c = .ok (.advbltri (fieldPr c.cw) (fieldHc c.cw) c.opa c.opb) := by
  simp [decode, hrsv, hop]

theorem decode_enc8 (hop : (fieldOp c.cw).toNat = 8) : decode c = decodeE c.cw (.enc8 c.opa) := by
  simp [decode, hrsv, hop]

theorem decode_enc16 (hop : (fieldOp c.cw).toNat = 9) : decode c = decodeE c.cw (.enc16 c.opa) := by
  simp [decode, hrsv, hop]

theorem decode_enc32 (hop : (fieldOp c.cw).toNat = 10) : decode c = decodeE c.cw (.enc32 c.opa) := by
  simp [decode, hrsv, hop]

theorem decode_phwr (hop : (fieldOp c.cw).toNat = 11) : decode c = decodeA c.cw (.phwr (fieldPr c.cw) c.opa) := by
  simp [decode, hrsv, hop]

theorem decode_phrd (hop : (fieldOp c.cw).toNat = 12) : decode c = decodeA c.cw (.phrd (fieldPr c.cw)) := by
  simp [decode, hrsv, hop]

theorem decode_rdfs (hop : (fieldOp c.cw).toNat = 13) : decode c = decodeE c.cw .rdfs := by
  simp [decode, hrsv, hop]

theorem decode_reservedOpcode (hop : (fieldOp c.cw).toNat ∈ [0, 14, 15]) : decode c = .error .reservedOpcode := by
  simp only [List.mem_cons, List.not_mem_nil, or_false] at hop
  rcases hop with h | h | h <;> simp [decode, hrsv, h]

/-- The opcodes of class A, whatever instruction they carry. -/
theorem decode_classA (hop : (fieldOp c.cw).toNat ∈ [1, 2, 3, 4, 11, 12]) : ∃ i, decode c = decodeA c.cw i := by
  simp only [List.mem_cons, List.not_mem_nil, or_false] at hop
  rcases hop with h | h | h | h | h | h
  exacts [⟨_, decode_advsin hrsv h⟩, ⟨_, decode_advsqr hrsv h⟩, ⟨_, decode_advsaw hrsv h⟩, ⟨_, decode_advtri hrsv h⟩,
    ⟨_, decode_phwr hrsv h⟩, ⟨_, decode_phrd hrsv h⟩]

/-- The opcodes of class E, whatever instruction they carry. -/
theorem decode_classE (hop : (fieldOp c.cw).toNat ∈ [8, 9, 10, 13]) : ∃ i, decode c = decodeE c.cw i := by
  simp only [List.mem_cons, List.not_mem_nil, or_false] at hop
  rcases hop with h | h | h | h
  exacts [⟨_, decode_enc8 hrsv h⟩, ⟨_, decode_enc16 hrsv h⟩, ⟨_, decode_enc32 hrsv h⟩, ⟨_, decode_rdfs hrsv h⟩]

theorem decode_classA_error (hop : (fieldOp c.cw).toNat ∈ [1, 2, 3, 4, 11, 12]) (hc : fieldHc c.cw ≠ 0) :
    ∃ e, decode c = .error e := by
  obtain ⟨i, hi⟩ := decode_classA hrsv hop
  exact ⟨_, hi.trans (decodeA_error i hc)⟩

theorem decode_classE_error (hop : (fieldOp c.cw).toNat ∈ [8, 9, 10, 13]) (h : fieldPr c.cw ≠ 0 ∨ fieldHc c.cw ≠ 0) :
    ∃ e, decode c = .error e := by
  obtain ⟨i, hi⟩ := decode_classE hrsv hop
  exact hi ▸ decodeE_error i h

end

/-- Settles O3: the numbers of the word are its fields, and each clause is the equation of its opcode with what its class
answers. -/
theorem decodingProcedure : Obligations.DecodingProcedure := by
  unfold Obligations.DecodingProcedure
  intro w a b
  simp only [ofNat_pr_eq_fieldPr, ne_eq, ← fieldRsv_eq_zero_iff, ← fieldPr_eq_zero_iff, ← fieldHc_eq, ← toNat_fieldOp]
  refine ⟨fun h => ⟨_, decode_reservedField (c := ⟨w, a, b⟩) h⟩, fun hrsv : fieldRsv (Command.mk w a b).cw = 0 =>
    ⟨decode_classA_error hrsv, decode_classE_error hrsv, fun hop => ⟨_, decode_reservedOpcode hrsv hop⟩, fun hc => ?classA,
      decode_advblsqr hrsv, decode_advblsaw hrsv, decode_advbltri hrsv, fun hp hc => ?classE⟩⟩
  case classA =>
    have hok (i : Instr) : decodeA w i = .ok i := decodeA_ok i hc
    exact ⟨fun h => (decode_advsin hrsv h).trans (hok _), fun h => (decode_advsqr hrsv h).trans (hok _),
      fun h => (decode_advsaw hrsv h).trans (hok _), fun h => (decode_advtri hrsv h).trans (hok _),
      fun h => (decode_phwr hrsv h).trans (hok _), fun h => (decode_phrd hrsv h).trans (hok _)⟩
  case classE =>
    have hok (i : Instr) : decodeE w i = .ok i := decodeE_ok i hp hc
    exact ⟨fun h => (decode_enc8 hrsv h).trans (hok _), fun h => (decode_enc16 hrsv h).trans (hok _),
      fun h => (decode_enc32 hrsv h).trans (hok _), fun h => (decode_rdfs hrsv h).trans (hok _)⟩

end Sys2Proof.Machine
end

section
/-! PROOFS. The ranges of the sine and naive samples (40_nco_sine_naive.md R90): an exact result between two values of the format
rounds to between them, so each rounded operation takes an interval to an interval, and a sample is bounded by running its expression
on the interval of the wrapped phase. -/

namespace Sys2Proof.Machine

/-! ### Rounding keeps to the bounds of the exact result (00_scope.md R8) -/

/-- A sign and a natural number, as an integer. -/
def signedNat (neg : Bool) (n : Nat) : Int := if neg then -(n : Int) else n

theorem bitsValue_eq_signedNat (F : FloatFormat) (x : FloatBits) : bitsValue F x = signedNat x.neg (magValue F x.mag) := rfl

theorem signedNat_not (neg : Bool) (n : Nat) : signedNat (!neg) n = -signedNat neg n := by
  cases neg <;> simp [signedNat]

theorem signedNat_mul (neg neg' : Bool) (n n' : Nat) :
    signedNat (neg != neg') (n * n') = signedNat neg n * signedNat neg' n' := by
  cases neg <;> cases neg' <;> simp [signedNat]

theorem signedNat_natAbs (v : Int) : signedNat (decide (v < 0)) v.natAbs = v := by
  by_cases h : v < 0
  · simp only [signedNat, h, decide_true, if_true]; omega
  · simp only [signedNat, h, decide_false, Bool.false_eq_true, if_false]; omega

/-- What is at most a representable value, of whatever sign, rounds to at most it. -/
theorem bitsValue_round_le {F : FloatFormat} {neg : Bool} {num den : Nat} {c : FloatBits} (hd : 0 < den)
    (hc : isNaNBits F c = false) (h : signedNat neg num ≤ bitsValue F c * den) :
    bitsValue F ⟨neg, roundMag F num den⟩ ≤ bitsValue F c := by
  obtain ⟨cneg, k⟩ := c
  have hk : k ≤ infMag F := by simpa [isNaNBits] using hc
  simp only [bitsValue_eq_signedNat] at h ⊢
  cases neg with
  | false =>
    cases cneg with
    | false =>
      have hle : roundMag F num den ≤ k := roundMag_le F hd hk (by
        simp only [signedNat, Bool.false_eq_true, if_false] at h
        exact_mod_cast h)
      simpa [signedNat] using (magValue_le_iff F).mpr hle
    | true =>
      have hsum : num + magValue F k * den = 0 := by
        simp only [signedNat, Bool.false_eq_true, if_false, if_true] at h
        have : (num : Int) + magValue F k * den ≤ 0 := by linarith
        exact_mod_cast Int.le_antisymm this (by positivity)
      obtain ⟨hnum, hprod⟩ := Nat.add_eq_zero_iff.mp hsum
      have hval : magValue F k = 0 := (Nat.mul_eq_zero.mp hprod).resolve_right hd.ne'
      have hround : roundMag F num den = 0 := Nat.le_zero.mp (roundMag_le F hd (Nat.zero_le _) (by simp [hnum]))
      simp [signedNat, hval, hround]
  | true =>
    cases cneg with
    | false =>
      calc signedNat true (magValue F (roundMag F num den))
        _ ≤ 0 := by simp [signedNat]
        _ ≤ signedNat false (magValue F k) := by simp [signedNat]
    | true =>
      have hle : k ≤ roundMag F num den := le_roundMag F hd hk (by
        simp only [signedNat, if_true] at h
        have : (magValue F k : Int) * den ≤ num := by linarith
        exact_mod_cast this)
      simpa [signedNat] using (magValue_le_iff F).mpr hle

/-- What is at least a representable value rounds to at least it: the mirror image. -/
theorem le_bitsValue_round {F : FloatFormat} {neg : Bool} {num den : Nat} {c : FloatBits} (hd : 0 < den)
    (hc : isNaNBits F c = false) (h : bitsValue F c * den ≤ signedNat neg num) :
    bitsValue F c ≤ bitsValue F ⟨neg, roundMag F num den⟩ := by
  have hmirror : signedNat (!neg) num ≤ bitsValue F ⟨!c.neg, c.mag⟩ * den := by
    rw [signedNat_not, bitsValue_eq_signedNat, signedNat_not, ← bitsValue_eq_signedNat]
    linarith
  have := bitsValue_round_le (c := ⟨!c.neg, c.mag⟩) hd hc hmirror
  simp only [bitsValue_eq_signedNat, signedNat_not] at this ⊢
  linarith

/-! ### Finite words -/

/-- A word is finite exactly when it is worth less than the infinity reads as. -/
theorem isFinite32_iff_abs_value32 {a : Word} :
    isFinite32 a = true ↔ |value32 a| < magValue binary32 (infMag binary32) := by
  have habs : |value32 a| = magValue binary32 (unpack32 a).mag := by
    rw [value32, bitsValue]
    split <;> simp
  rw [habs, Nat.cast_lt, magValue_lt_iff]
  simp [isFinite32, isFiniteBits]

/-! ### Sums and products of finite words -/

/-- The sum of finite words, rounded: its exact value is 0 or what `roundMag` is applied to. -/
theorem value32_fadd32_bounds {a b l u : Word} (ha : isFinite32 a = true) (hb : isFinite32 b = true)
    (hl : isNaN32 l = false) (hu : isNaN32 u = false) (hlo : value32 l ≤ value32 a + value32 b)
    (hhi : value32 a + value32 b ≤ value32 u) :
    value32 l ≤ value32 (fadd32 a b) ∧ value32 (fadd32 a b) ≤ value32 u := by
  have hNa : isNaNBits binary32 (unpack32 a) = false := not_isNaN32_of_isFinite32 ha
  have hNb : isNaNBits binary32 (unpack32 b) = false := not_isNaN32_of_isFinite32 hb
  simp only [value32] at hlo hhi ⊢
  simp only [unpack32_fadd32, addBits, hNa, hNb, isInfBits_of_isFinite32 ha, isInfBits_of_isFinite32 hb, Bool.or_self,
    Bool.false_eq_true, if_false]
  split
  case isTrue hzero =>
    have : ∀ neg, bitsValue binary32 ⟨neg, 0⟩ = 0 := fun neg => by simp [bitsValue]
    rw [this, ← hzero]
    exact ⟨hlo, hhi⟩
  case isFalse =>
    exact ⟨le_bitsValue_round Nat.one_pos hl (by rwa [signedNat_natAbs, Nat.cast_one, mul_one]),
      bitsValue_round_le Nat.one_pos hu (by rwa [signedNat_natAbs, Nat.cast_one, mul_one])⟩

/-- The product of finite words, rounded: the exact product is in squared units. -/
theorem value32_fmul32_bounds {a b l u : Word} (ha : isFinite32 a = true) (hb : isFinite32 b = true)
    (hl : isNaN32 l = false) (hu : isNaN32 u = false) (hlo : value32 l * 2 ^ 149 ≤ value32 a * value32 b)
    (hhi : value32 a * value32 b ≤ value32 u * 2 ^ 149) :
    value32 l ≤ value32 (fmul32 a b) ∧ value32 (fmul32 a b) ≤ value32 u := by
  have hNa : isNaNBits binary32 (unpack32 a) = false := not_isNaN32_of_isFinite32 ha
  have hNb : isNaNBits binary32 (unpack32 b) = false := not_isNaN32_of_isFinite32 hb
  have hunit : ((2 ^ unitExp binary32 : Nat) : Int) = 2 ^ 149 := by rw [unitExp_binary32]; norm_num
  simp only [value32] at hlo hhi ⊢
  simp only [unpack32_fmul32, mulBits, hNa, hNb, isInfBits_of_isFinite32 ha, isInfBits_of_isFinite32 hb, Bool.or_self,
    Bool.false_eq_true, if_false]
  exact ⟨le_bitsValue_round (Nat.two_pow_pos _) hl (by rw [signedNat_mul, hunit]; exact hlo),
    bitsValue_round_le (Nat.two_pow_pos _) hu (by rw [signedNat_mul, hunit]; exact hhi)⟩

/-! ### Intervals of words -/

/-- The word lies between two finite words, in the sense of the comparisons of 00_scope.md R9. -/
structure Within (lo hi a : Word) : Prop where
  finite_lo : isFinite32 lo = true
  finite_hi : isFinite32 hi = true
  lo_le : fle32 lo a = true
  le_hi : fle32 a hi = true

/-- The comparisons as values. -/
theorem Within.value {lo hi a : Word} (h : Within lo hi a) : value32 lo ≤ value32 a ∧ value32 a ≤ value32 hi := by
  obtain ⟨_, _, hlo⟩ := fle32_iff.mp h.lo_le
  obtain ⟨_, _, hhi⟩ := fle32_iff.mp h.le_hi
  exact ⟨hlo, hhi⟩

theorem Within.isNaN32_eq_false {lo hi a : Word} (h : Within lo hi a) : isNaN32 a = false := (fle32_iff.mp h.le_hi).1

theorem Within.finite {lo hi a : Word} (h : Within lo hi a) : isFinite32 a = true := by
  obtain ⟨hlo, hhi⟩ := h.value
  obtain ⟨hl, _⟩ := abs_lt.mp (isFinite32_iff_abs_value32.mp h.finite_lo)
  obtain ⟨_, hu⟩ := abs_lt.mp (isFinite32_iff_abs_value32.mp h.finite_hi)
  exact isFinite32_iff_abs_value32.mpr (abs_lt.mpr ⟨hl.trans_le hlo, hhi.trans_lt hu⟩)

theorem within_of_value {lo hi a : Word} (hl : isFinite32 lo = true) (hu : isFinite32 hi = true)
    (ha : isNaN32 a = false) (h : value32 lo ≤ value32 a ∧ value32 a ≤ value32 hi) : Within lo hi a :=
  ⟨hl, hu, fle32_iff.mpr ⟨not_isNaN32_of_isFinite32 hl, ha, h.1⟩, fle32_iff.mpr ⟨ha, not_isNaN32_of_isFinite32 hu, h.2⟩⟩

theorem within_self {a : Word} (h : isFinite32 a = true) : Within a a a :=
  within_of_value h h (not_isNaN32_of_isFinite32 h) ⟨le_rfl, le_rfl⟩

/-- Negation turns an interval round. -/
theorem Within.fneg32 {lo hi a : Word} (h : Within lo hi a) : Within (fneg32 hi) (fneg32 lo) (fneg32 a) := by
  obtain ⟨hlo, hhi⟩ := h.value
  refine within_of_value (by simpa using h.finite_hi) (by simpa using h.finite_lo) (by simpa using h.isNaN32_eq_false) ?_
  simp only [value32_fneg32]
  exact ⟨neg_le_neg hhi, neg_le_neg hlo⟩

/-- A difference lies between any two words that enclose the exact differences of the ends. -/
theorem Within.fsub32 {lo hi a lo' hi' b l u : Word} (ha : Within lo hi a) (hb : Within lo' hi' b)
    (hl : isFinite32 l = true) (hu : isFinite32 u = true) (hlo : value32 l ≤ value32 lo - value32 hi')
    (hhi : value32 hi - value32 lo' ≤ value32 u) : Within l u (fsub32 a b) := by
  obtain ⟨ha1, ha2⟩ := ha.value
  obtain ⟨hb1, hb2⟩ := hb.value
  have hnan := isNaN32_fadd32 ha.isNaN32_eq_false hb.fneg32.isNaN32_eq_false (.inl ha.finite)
  refine within_of_value hl hu hnan (value32_fadd32_bounds ha.finite hb.fneg32.finite
    (not_isNaN32_of_isFinite32 hl) (not_isNaN32_of_isFinite32 hu) ?_ ?_)
  · rw [value32_fneg32]; linarith
  · rw [value32_fneg32]; linarith

/-- A product by a factor that is not below zero lies between any two words that enclose the exact products of the ends. -/
theorem Within.fmul32 {lo hi a c l u : Word} (ha : Within lo hi a) (hc : isFinite32 c = true)
    (hpos : 0 ≤ value32 c) (hl : isFinite32 l = true) (hu : isFinite32 u = true)
    (hlo : value32 l * 2 ^ 149 ≤ value32 c * value32 lo) (hhi : value32 c * value32 hi ≤ value32 u * 2 ^ 149) :
    Within l u (fmul32 c a) := by
  obtain ⟨ha1, ha2⟩ := ha.value
  exact within_of_value hl hu (isNaN32_fmul32 hc ha.finite) (value32_fmul32_bounds hc ha.finite
    (not_isNaN32_of_isFinite32 hl) (not_isNaN32_of_isFinite32 hu) (hlo.trans (mul_le_mul_of_nonneg_left ha1 hpos))
    ((mul_le_mul_of_nonneg_left ha2 hpos).trans hhi))

theorem fle32_of_flt32 {a b : Word} (h : flt32 a b = true) : fle32 a b = true := by
  obtain ⟨ha, hb, hlt⟩ := flt32_iff.mp h
  exact fle32_iff.mpr ⟨ha, hb, hlt.le⟩

theorem flt32_of_flt32_of_fle32 {a b c : Word} (h : flt32 a b = true) (h' : fle32 b c = true) : flt32 a c = true := by
  obtain ⟨ha, _, hlt⟩ := flt32_iff.mp h
  obtain ⟨_, hc, hle⟩ := fle32_iff.mp h'
  exact flt32_iff.mpr ⟨ha, hc, hlt.trans_le hle⟩

theorem InRange.within {m p : Word} (hm : isFinite32 m = true) (h : InRange m p) : Within fZero m p :=
  ⟨by decide, hm, h.1, fle32_of_flt32 h.2⟩

/-- Below a positive word is at most the word before it: no value of the format lies between. -/
theorem fle32_of_flt32_next {a b c : Word} {k : Nat} (hb : unpack32 b = ⟨false, k + 1⟩) (hc : unpack32 c = ⟨false, k⟩)
    (h : flt32 a b = true) : fle32 a c = true := by
  obtain ⟨hNa, hNb, hlt⟩ := flt32_iff.mp h
  have hNc : isNaN32 c = false := by
    simp only [isNaN32_eq, hb, hc, isNaNBits, decide_eq_false_iff_not] at hNb ⊢
    omega
  refine fle32_iff.mpr ⟨hNa, hNc, ?_⟩
  simp only [value32, hb, hc, bitsValue, Bool.false_eq_true, if_false] at hlt ⊢
  cases hneg : (unpack32 a).neg with
  | true => simp only [if_true]; omega
  | false =>
    simp only [hneg, Bool.false_eq_true, if_false, Nat.cast_lt, Nat.cast_le, magValue_lt_iff, magValue_le_iff] at hlt ⊢
    exact Nat.lt_succ_iff.mp hlt

/-! ### The samples of a wrapped phase -/

/-- Property S1 in one piece: the sine of a finite phase is in [−1, +1], whatever the open parameter is (00_scope.md R12). -/
theorem within_sin32 {p : Word} (hp : isFinite32 p = true) : Within fNegOne fOne (sin32 p) := by
  have hball : inUnitBall (sin32 p) = true := by
    unfold sin32
    split
    case isTrue hzero => rcases hzero with rfl | rfl <;> decide
    case isFalse =>
      cases hraw : inUnitBall (Config.sineRaw p) with
      | true => simpa using hraw
      | false => simp only [hp, Bool.not_false, Bool.and_self, if_true]; decide
  simp only [inUnitBall, Bool.and_eq_true] at hball
  obtain ⟨⟨_, hlo⟩, hhi⟩ := hball
  exact ⟨by decide, by decide, hlo, hhi⟩

theorem squareSample_eq_or (p : Word) : squareSample p = fOne ∨ squareSample p = fNegOne := by
  unfold squareSample
  split
  · exact .inl rfl
  · exact .inr rfl

/-- The phase is at most 1 − 2^−24, twice it at most 2 − 2^−23, and so the sample at least −(1 − 2^−23). -/
theorem within_sawSample {p : Word} (h : InRange fOne p) : Within 0xBF7FFFFE fOne (sawSample p) := by
  have hphase : Within fZero 0x3F7FFFFF p :=
    ⟨by decide, by decide, h.1, fle32_of_flt32_next (k := 0x3F7FFFFF) (by decide) (by decide) h.2⟩
  have htwice : Within fZero 0x3FFFFFFF (fmul32 fTwo p) :=
    hphase.fmul32 (by decide) (by decide) (by decide) (by decide) (by decide) (by decide)
  have hdiff : Within fNegOne 0x3F7FFFFE (fsub32 (fmul32 fTwo p) fOne) :=
    htwice.fsub32 (within_self isFinite32_fOne) (by decide) (by decide) (by decide) (by decide)
  exact hdiff.fneg32

/-- Either leg of the triangle: four times a word in [0, 0.5], less 1. -/
theorem within_triangleLeg {q : Word} (h : Within fZero fHalf q) : Within fNegOne fOne (fsub32 (fmul32 fFour q) fOne) := by
  have hscaled : Within fZero fTwo (fmul32 fFour q) :=
    h.fmul32 (by decide) (by decide) (by decide) (by decide) (by decide) (by decide)
  exact hscaled.fsub32 (within_self isFinite32_fOne) (by decide) (by decide) (by decide) (by decide)

theorem within_triangleSample {p : Word} (h : InRange fOne p) : Within fNegOne fOne (triangleSample p) := by
  have hphase := h.within isFinite32_fOne
  unfold triangleSample
  split
  case isTrue hle => exact within_triangleLeg ⟨by decide, by decide, hphase.lo_le, hle⟩
  case isFalse hgt =>
    have hhalf : flt32 fHalf p = true :=
      flt32_of_fle32_false hphase.isNaN32_eq_false (by decide) (Bool.eq_false_iff.mpr hgt)
    have hupper : Within fHalf fOne p := ⟨by decide, by decide, fle32_of_flt32 hhalf, hphase.le_hi⟩
    exact within_triangleLeg
      ((within_self isFinite32_fOne).fsub32 hupper (by decide) (by decide) (by decide) (by decide))

/-! ### The commands -/

/-- The sample of an OK response is that of the phase the command left in its register. -/
theorem advance_sample {pr : Fin 16} {f r inc m : Word} {sample : Word → Word} {s t : State} {x : Response}
    (h : advance pr f r inc m sample s = .next t) (hr : t.resp = some x) (hx : x.st = 0) :
    x.res = sample (t.phase pr) := by
  rcases advance_cases h with ⟨_, rfl⟩ | ⟨_, p1, _, rfl⟩ | ⟨_, _, rfl⟩
  · exact absurd hx (not_ok_of_raise hr)
  · rw [commit_phase_self]
    exact (congrArg Response.res (Option.some.inj hr)).symm
  · cases hr

/-- Settles O14: an OK response carries the sample of a phase that the wrap loop left in range, and each sample of such a phase is
bounded. -/
theorem naiveSampleRanges : Obligations.NaiveSampleRanges := by
  unfold Obligations.NaiveSampleRanges
  intro pr f r s t x hr hx
  refine ⟨fun h => ?sqr, fun h => ?saw, fun h => ?tri, fun h => ?sin⟩
  case sqr =>
    rw [advance_sample h hr hx]
    exact squareSample_eq_or _
  case saw =>
    rw [advance_sample h hr hx]
    have hsaw := within_sawSample (advance_inRange isFinite32_fOne isNaN32_unitInc h hr hx)
    exact ⟨flt32_of_flt32_of_fle32 (by decide) hsaw.lo_le, hsaw.le_hi⟩
  case tri =>
    rw [advance_sample h hr hx]
    have htri := within_triangleSample (advance_inRange isFinite32_fOne isNaN32_unitInc h hr hx)
    exact ⟨htri.lo_le, htri.le_hi⟩
  case sin =>
    rw [advance_sample h hr hx]
    have hphase := (advance_inRange isFinite32_twoPi isNaN32_radianInc h hr hx).within isFinite32_twoPi
    have hsin := within_sin32 hphase.finite
    exact ⟨hsin.lo_le, hsin.le_hi⟩

end Sys2Proof.Machine
end

section
/-! PROOFS. Auto mode where it needs no search, explicit mode (41_bandlimited.md R101, R103), and the Nyquist frequency (R102). The
three band-limited commands are one operation with two parameters, the automatic count and the sample. -/

namespace Sys2Proof.Machine

/-! ### The automatic count without a search (41_bandlimited.md R103) -/

/-- A number below another is not equal to it (00_scope.md R9). -/
theorem feq32_of_flt32 {a b : Word} (h : flt32 a b = true) : feq32 a b = false := by
  obtain ⟨_, _, hlt⟩ := flt32_iff.mp h
  refine Bool.eq_false_iff.mpr fun heq => ?_
  obtain ⟨_, _, hval⟩ := feq32_iff.mp heq
  omega

theorem autohSaw_zero {f : Word} (r : Word) (h : feq32 f fZero = true) : autohSaw f r = some 0 := if_pos h

theorem autohOdd_zero {f : Word} (r : Word) (h : feq32 f fZero = true) : autohOdd f r = some 0 := if_pos h

theorem autohSaw_negative {f : Word} (r : Word) (h : flt32 f fZero = true) : autohSaw f r = none := by
  simp [autohSaw, h, feq32_of_flt32 h]

theorem autohOdd_negative {f : Word} (r : Word) (h : flt32 f fZero = true) : autohOdd f r = none := by
  simp [autohOdd, h, feq32_of_flt32 h]

/-! ### The band-limited commands (41_bandlimited.md R100) -/

/-- Each band-limited command is the shared operation, with one of the two automatic counts and its own sample. -/
theorem exec_bandlimited {i : Instr} {pr : Fin 16} {hc : Nat} {f r : Word}
    (hi : i ∈ [Instr.advblsqr pr hc f r, .advblsaw pr hc f r, .advbltri pr hc f r]) (s : State) :
    ∃ auto sample, (auto = autohSaw f r ∨ auto = autohOdd f r) ∧
      exec i s = advanceBandlimited pr f r (harmonicCount hc auto) sample s := by
  simp only [List.mem_cons, List.not_mem_nil, or_false] at hi
  rcases hi with rfl | rfl | rfl
  · exact ⟨_, _, .inr rfl, exec_advblsqr pr hc f r s⟩
  · exact ⟨_, _, .inl rfl, exec_advblsaw pr hc f r s⟩
  · exact ⟨_, _, .inr rfl, exec_advbltri pr hc f r s⟩

/-- HarmonicRange, field by field (60_exceptions.md R150, R151; 10_state.md R25). -/
theorem raise_harmonicRange (s : State) :
    s.raise .harmonicRange = { s with fstat := s.fstat ||| 0b0100, busy := false, resp := some ⟨3, 0, 0⟩ } := rfl

/-- With a count a band-limited command never raises HarmonicRange: it faults by its operands, commits, or hangs. -/
theorem advanceBandlimited_some_st_ne {pr : Fin 16} {f r : Word} {n : Nat} {sample : Nat → Word → Word} {s t : State}
    {a : Response} (h : advanceBandlimited pr f r (some n) sample s = .next t) (hr : t.resp = some a) : a.st ≠ 3 := by
  rcases advanceBandlimited_cases h with ⟨_, rfl⟩ | ⟨_, hnone, _⟩ | ⟨_, _, _, _, _, rfl⟩ | ⟨_, _, _, _, rfl⟩
  · obtain rfl : _ = a := Option.some.inj hr
    decide
  · cases hnone
  · obtain rfl : _ = a := Option.some.inj hr
    simp
  · cases hr

/-- Settles O21: neither automatic count searches at a zero or negative frequency, so the shared operation of the three commands has
no count below zero; in explicit mode it always has one. -/
theorem autoModeZeroAndNegative : Obligations.AutoModeZeroAndNegative := by
  unfold Obligations.AutoModeZeroAndNegative
  refine ⟨fun f r => ⟨?zero, ?negative, ?explicit⟩, ?fault, ?noFault⟩
  case zero => exact fun h => ⟨autohSaw_zero r h, autohOdd_zero r h⟩
  case negative => exact fun h => ⟨autohSaw_negative r h, autohOdd_negative r h⟩
  case explicit => exact fun hc h => ⟨harmonicCount_explicit _ h, harmonicCount_explicit _ h⟩
  case fault =>
    intro pr f r s hf hr hpos hp hneg i hi
    obtain ⟨auto, sample, hauto, hexec⟩ := exec_bandlimited hi s
    have hnone : auto = none := by
      rcases hauto with rfl | rfl
      exacts [autohSaw_negative r hneg, autohOdd_negative r hneg]
    rw [hexec, harmonicCount_auto, hnone, advanceBandlimited_range (domainOK_iff.mpr ⟨hf, hr, hpos, hp⟩),
      raise_harmonicRange]
  case noFault =>
    intro pr hc f r s t a hne i hi h hr
    obtain ⟨auto, sample, _, hexec⟩ := exec_bandlimited hi s
    rw [hexec, harmonicCount_explicit auto hne] at h
    exact advanceBandlimited_some_st_ne h hr

/-! ### The Nyquist frequency (41_bandlimited.md R102) -/

/-- The third smallest subnormal halves to a tie, 1.5 units, which goes to the even neighbour. -/
theorem nyquist_threeUnits : nyquist 0x00000003 = 0x00000002 := by decide

/-- Refutes O22: at the rate 0x00000003, three units of the smallest subnormal, the Nyquist frequency is two units; twice that is
four, and the rate is not the exempted 0x00000001. -/
theorem not_nyquistIsExactHalf : ¬ Obligations.NyquistIsExactHalf := by
  unfold Obligations.NyquistIsExactHalf
  intro h
  obtain ⟨_, _, _, hhalf | ⟨hr, _⟩⟩ := h 0x00000003 (by decide) (by decide)
  · have hrate : value32 0x00000003 = 3 := by decide
    have hnyquist : value32 (nyquist 0x00000003) = 2 := by rw [nyquist_threeUnits]; decide
    omega
  · exact absurd hr (by decide)

end Sys2Proof.Machine
end

section
/-! PROOFS. The encode commands (42_pcm_encoder.md): on a NaN the fault, on any other sample the code of the width as the response
(R123), and with it the codes of -1.0, 0.0 and 1.0 (R128). -/

namespace Sys2Proof.Machine

/-! ### NaN or code (42_pcm_encoder.md R120, R123) -/

/-- The three encode commands are one operation with a number of lanes and a code of their own. -/
theorem exec_encode {i : Instr} {x : Word} (hi : i ∈ [Instr.enc8 x, .enc16 x, .enc32 x]) :
    ∃ nb code, ∀ s, exec i s = encodeSample x nb code s := by
  simp only [List.mem_cons, List.not_mem_nil, or_false] at hi
  rcases hi with rfl | rfl | rfl
  · exact ⟨_, _, exec_enc8 x⟩
  · exact ⟨_, _, exec_enc16 x⟩
  · exact ⟨_, _, exec_enc32 x⟩

/-- EncodeNaN, field by field (60_exceptions.md R150, R151; 10_state.md R25). -/
theorem raise_encodeNaN (s : State) :
    s.raise .encodeNaN = { s with fstat := s.fstat ||| 0b1000, busy := false, resp := some ⟨4, 0, 0⟩ } := rfl

/-- Settles O45: each encoder is the shared operation, which raises EncodeNaN on a NaN and responds with the code otherwise. -/
theorem encodeNanFault : Obligations.EncodeNanFault := by
  unfold Obligations.EncodeNanFault
  intro x s i hi
  obtain ⟨nb, code, hexec⟩ := exec_encode hi
  constructor
  · intro hnan
    rw [hexec, encodeSample_nan hnan, raise_encodeNaN]
  · intro hnum
    exact ⟨⟨0, nb, code x⟩, rfl, (hexec s).trans (encodeSample_ok hnum)⟩

/-! ### The codes of -1.0, 0.0 and 1.0 (42_pcm_encoder.md R128) -/

theorem exec_enc8_of_code {x : Word} {n : Int} (s : State) (hnum : isNaN32 x = false) (hcode : code8 x = n) :
    exec (.enc8 x) s = .next (s.respond ⟨0, 1, (BitVec.ofInt 8 n).setWidth 32⟩) := by
  rw [exec_enc8, encodeSample_ok hnum, hcode]

theorem exec_enc16_of_code {x : Word} {n : Int} (s : State) (hnum : isNaN32 x = false) (hcode : code16 x = n) :
    exec (.enc16 x) s = .next (s.respond ⟨0, 2, (BitVec.ofInt 16 n).setWidth 32⟩) := by
  rw [exec_enc16, encodeSample_ok hnum, hcode]

theorem exec_enc32_of_code {x : Word} {n : Int} (s : State) (hnum : isNaN32 x = false) (hcode : code32 x = n) :
    exec (.enc32 x) s = .next (s.respond ⟨0, 4, BitVec.ofInt 32 n⟩) := by
  rw [exec_enc32, encodeSample_ok hnum, hcode]

theorem isNaN32_negOne : isNaN32 0xBF800000 = false := by decide

theorem isNaN32_zero : isNaN32 0x00000000 = false := by decide

theorem isNaN32_one : isNaN32 0x3F800000 = false := by decide

/-- The least code, the middle one and the greatest (R122). -/
theorem code8_boundaries : code8 0xBF800000 = 0 ∧ code8 0x00000000 = 128 ∧ code8 0x3F800000 = 255 := by decide +kernel

/-- The middle and the greatest code (R124); the least is `code16_negOne`. -/
theorem code16_boundaries : code16 0x00000000 = 0 ∧ code16 0x3F800000 = 32767 := by decide +kernel

/-- The least code, the middle one and the greatest (R126). -/
theorem code32_boundaries :
    code32 0xBF800000 = -2147483648 ∧ code32 0x00000000 = 0 ∧ code32 0x3F800000 = 2147483647 := by decide +kernel

/-- Settles O34: the three samples are numbers, so each response is the code of its width, read as a word. -/
theorem encoderBoundaries : Obligations.EncoderBoundaries := by
  unfold Obligations.EncoderBoundaries
  intro s
  obtain ⟨hmin8, hmid8, hmax8⟩ := code8_boundaries
  obtain ⟨hmid16, hmax16⟩ := code16_boundaries
  obtain ⟨hmin32, hmid32, hmax32⟩ := code32_boundaries
  refine ⟨?_, ?_, ?_, ?_, ?_, ?_, ?_, ?_, ?_⟩
  · exact exec_enc8_of_code s isNaN32_negOne hmin8
  · exact exec_enc8_of_code s isNaN32_zero hmid8
  · exact exec_enc8_of_code s isNaN32_one hmax8
  · exact exec_enc16_negOne s
  · exact exec_enc16_of_code s isNaN32_zero hmid16
  · exact exec_enc16_of_code s isNaN32_one hmax16
  · exact exec_enc32_of_code s isNaN32_negOne hmin32
  · exact exec_enc32_of_code s isNaN32_zero hmid32
  · exact exec_enc32_of_code s isNaN32_one hmax32

end Sys2Proof.Machine
end

section
/-! PROOFS. The register-access commands (43_register_access.md R140 to R142): each is one response after at most one register write,
so what it does is its arm of `exec` field by field; the worked words go through the decoder's classes. -/

namespace Sys2Proof.Machine

/-! ### The response, and the words of a class, as the statements write them -/

/-- An OK response ends the command and touches nothing else (30_encoding.md R69). -/
theorem respond_eq (s : State) (r : Response) : s.respond r = { s with busy := false, resp := some r } := rfl

/-- A `PHWR` word with its unused fields zero is legal and keeps the first operand word (30_encoding.md R62, R65). -/
theorem decode_phwr_ok {w : Word} (a b : Word) (hrsv : fieldRsv w = 0) (hop : (fieldOp w).toNat = 11) (hc : fieldHc w = 0) :
    decode ⟨w, a, b⟩ = .ok (.phwr (fieldPr w) a) := (decode_phwr (c := ⟨w, a, b⟩) hrsv hop).trans (decodeA_ok _ hc)

/-- A `PHRD` word with its unused fields zero is legal whatever the operand words (30_encoding.md R62, R65). -/
theorem decode_phrd_ok {w : Word} (a b : Word) (hrsv : fieldRsv w = 0) (hop : (fieldOp w).toNat = 12) (hc : fieldHc w = 0) :
    decode ⟨w, a, b⟩ = .ok (.phrd (fieldPr w)) := (decode_phrd (c := ⟨w, a, b⟩) hrsv hop).trans (decodeA_ok _ hc)

/-- An `RDFS` word with its unused fields zero is legal whatever the operand words (30_encoding.md R62, R65). -/
theorem decode_rdfs_ok {w : Word} (a b : Word) (hrsv : fieldRsv w = 0) (hop : (fieldOp w).toNat = 13) (hp : fieldPr w = 0)
    (hc : fieldHc w = 0) : decode ⟨w, a, b⟩ = .ok .rdfs := (decode_rdfs (c := ⟨w, a, b⟩) hrsv hop).trans (decodeE_ok _ hp hc)

/-! ### `PHWR` (43_register_access.md R140) -/

/-- Settles O38: the arm is a register write followed by an OK response, and the worked word has the register field 5. -/
theorem phwrResult : Obligations.PhwrResult := by
  unfold Obligations.PhwrResult
  constructor
  · intro pr v s
    rw [exec_phwr, respond_eq, State.setPhase]
  · intro v b
    have hpr : fieldPr 0x0000005B = 5 := by decide
    rw [decode_phwr_ok v b (by decide) (by decide) (by decide), hpr]

/-! ### `PHRD` (43_register_access.md R141) -/

/-- What `PHWR` stored is what `PHRD` of the same register answers, for every register and pattern. -/
theorem exec_phrd_of_exec_phwr {pr : Fin 16} {v : Word} {s t : State} (h : exec (.phwr pr v) s = .next t) :
    exec (.phrd pr) t = .next (t.respond ⟨0, 4, v⟩) := by
  rw [exec_phwr, next_inj] at h
  have hv : t.phase pr = v := by rw [← h, respond_phase, setPhase_phase_self]
  rw [exec_phrd, hv]

/-- Settles O39: the arm is an OK response with the register and no write; the read-back holds for every register and pattern. -/
theorem phrdResult : Obligations.PhrdResult := by
  unfold Obligations.PhrdResult
  refine ⟨fun pr s => ?arm, fun a b => ?word, fun s t h => ?readBack⟩
  case arm => rw [exec_phrd, respond_eq, State.phase]
  case word =>
    have hpr : fieldPr 0x0000005C = 5 := by decide
    rw [decode_phrd_ok a b (by decide) (by decide) (by decide), hpr]
  case readBack => rw [exec_phrd_of_exec_phwr h, respond_eq]

/-! ### `RDFS` (43_register_access.md R142) -/

/-- `RES[31:4]` of an `RDFS` response: each of these bits lies past the four of `FSTAT`, where zero-extension puts a zero. -/
theorem extractLsb'_setWidth_fstat (x : BitVec 4) : (x.setWidth 32).extractLsb' 4 28 = 0 := by
  ext
  simp

/-- Settles O40: the arm is an OK response with `FSTAT` zero-extended and no write; a NaN encoded from clear flags leaves the
EncodeNaN bit alone set, which is the number read. -/
theorem rdfsResult : Obligations.RdfsResult := by
  unfold Obligations.RdfsResult
  refine ⟨fun s => ⟨?arm, extractLsb'_setWidth_fstat s.fstat⟩, fun a b => ?word, fun s t hclear h => ?nanThenRead⟩
  case arm => rw [exec_rdfs, respond_eq]
  case word => exact decode_rdfs_ok a b (by decide) (by decide) (by decide) (by decide)
  case nanThenRead =>
    have hnan : isNaN32 0x7FC00000 = true := by decide
    rw [exec_enc16, encodeSample_nan hnan, next_inj, raise_encodeNaN, hclear] at h
    subst h
    exact ⟨rfl, exec_rdfs _⟩

end Sys2Proof.Machine
end

section
/-! PROOFS. Illegal words and faults (60_exceptions.md R151, R153, R157, R162). Which words are illegal is said in fields, once for the
decoder and once for the opcode map; a step on one raises IllegalCommand. What a legal command can fault with is read off the status
of its response, by one lemma per shared operation. -/

namespace Sys2Proof.Machine

/-! ### Illegal words (30_encoding.md R66) -/

/-- The four cases of R66, in fields of the command word. -/
def IllegalWord (w : Word) : Prop :=
  (fieldOp w).toNat ∈ [0, 14, 15] ∨ fieldRsv w ≠ 0 ∨
  ((fieldOp w).toNat ∈ [1, 2, 3, 4, 8, 9, 10, 11, 12, 13] ∧ fieldHc w ≠ 0) ∨
  ((fieldOp w).toNat ∈ [8, 9, 10, 13] ∧ fieldPr w ≠ 0)

/-- Every opcode is reserved or of one of the three classes (30_encoding.md R62, R65). -/
theorem opcode_class (op : BitVec 4) :
    op.toNat ∈ [0, 14, 15] ∨ op.toNat ∈ [1, 2, 3, 4, 11, 12] ∨ op.toNat ∈ [5, 6, 7] ∨ op.toNat ∈ [8, 9, 10, 13] := by
  revert op; decide

/-- The opcodes that allow no count are those of the classes A and E (30_encoding.md R62). -/
theorem opcode_noCount_iff (n : Nat) :
    n ∈ [1, 2, 3, 4, 8, 9, 10, 11, 12, 13] ↔ n ∈ [1, 2, 3, 4, 11, 12] ∨ n ∈ [8, 9, 10, 13] := by
  simp only [List.mem_cons, List.not_mem_nil, or_false]
  omega

/-- A legal word has a zero `RSV`, and zero in the fields its class does not use (30_encoding.md R62, R66). -/
theorem legalWord_cases {w : Word} (h : ¬ IllegalWord w) :
    fieldRsv w = 0 ∧
    ((fieldOp w).toNat ∈ [1, 2, 3, 4, 11, 12] ∧ fieldHc w = 0 ∨ (fieldOp w).toNat ∈ [5, 6, 7] ∨
      (fieldOp w).toNat ∈ [8, 9, 10, 13] ∧ fieldPr w = 0 ∧ fieldHc w = 0) := by
  simp only [IllegalWord, not_or, not_and, not_not] at h
  obtain ⟨hres, hrsv, hcount, hreg⟩ := h
  refine ⟨hrsv, ?_⟩
  rcases opcode_class (fieldOp w) with hop | hop | hop | hop
  · exact absurd hop hres
  · exact .inl ⟨hop, hcount ((opcode_noCount_iff _).mpr (.inl hop))⟩
  · exact .inr (.inl hop)
  · exact .inr (.inr ⟨hop, hreg hop, hcount ((opcode_noCount_iff _).mpr (.inr hop))⟩)

/-! ### The decoder on illegal and on legal words (30_encoding.md R72) -/

/-- The opcodes of class B, whatever register and count they carry. -/
theorem decode_classB_ok {c : Command} (hrsv : fieldRsv c.cw = 0) (hop : (fieldOp c.cw).toNat ∈ [5, 6, 7]) :
    ∃ i, decode c = .ok i := by
  simp only [List.mem_cons, List.not_mem_nil, or_false] at hop
  rcases hop with h | h | h
  exacts [⟨_, decode_advblsqr hrsv h⟩, ⟨_, decode_advblsaw hrsv h⟩, ⟨_, decode_advbltri hrsv h⟩]

theorem decode_error_of_illegal {c : Command} (h : IllegalWord c.cw) : ∃ e, decode c = .error e := by
  by_cases hrsv : fieldRsv c.cw = 0
  · rcases h with hop | hne | ⟨hop, hc⟩ | ⟨hop, hp⟩
    · exact ⟨_, decode_reservedOpcode hrsv hop⟩
    · exact absurd hrsv hne
    · rcases (opcode_noCount_iff _).mp hop with hA | hE
      · exact decode_classA_error hrsv hA hc
      · exact decode_classE_error hrsv hE (.inr hc)
    · exact decode_classE_error hrsv hop (.inl hp)
  · exact ⟨_, decode_reservedField hrsv⟩

theorem decode_ok_of_legal {c : Command} (h : ¬ IllegalWord c.cw) : ∃ i, decode c = .ok i := by
  obtain ⟨hrsv, ⟨hop, hc⟩ | hop | ⟨hop, hp, hc⟩⟩ := legalWord_cases h
  · obtain ⟨i, hi⟩ := decode_classA hrsv hop
    exact ⟨i, hi.trans (decodeA_ok i hc)⟩
  · exact decode_classB_ok hrsv hop
  · obtain ⟨i, hi⟩ := decode_classE hrsv hop
    exact ⟨i, hi.trans (decodeE_ok i hp hc)⟩

/-! ### The opcode map on legal words (30_encoding.md R65) -/

/-- A command word is its four fields side by side (30_encoding.md R61). -/
theorem append_fields (w : Word) :
    w.extractLsb' 16 16 ++ w.extractLsb' 8 8 ++ w.extractLsb' 4 4 ++ w.extractLsb' 0 4 = w := by
  have h8 : w.extractLsb' 4 4 ++ w.extractLsb' 0 4 = w.extractLsb' 0 8 :=
    BitVec.extractLsb'_append_extractLsb'_eq_extractLsb' rfl
  have h16 : w.extractLsb' 8 8 ++ w.extractLsb' 0 8 = w.extractLsb' 0 16 :=
    BitVec.extractLsb'_append_extractLsb'_eq_extractLsb' rfl
  have h32 : w.extractLsb' 16 16 ++ w.extractLsb' 0 16 = w.extractLsb' 0 32 :=
    BitVec.extractLsb'_append_extractLsb'_eq_extractLsb' rfl
  rw [BitVec.append_assoc, BitVec.append_assoc]
  simp [h8, h16, h32]

/-- A word whose reserved field is zero is packed from its other three fields (30_encoding.md R61). -/
theorem packCw_fields {w : Word} (hrsv : fieldRsv w = 0) : packCw (fieldHc w) (fieldPr w) (fieldOp w) = w := by
  have h0 : (0#8 : BitVec 8) = w.extractLsb' 8 8 := hrsv.symm
  simp only [packCw, fieldHc, fieldPr, fieldOp, h0, BitVec.ofNat_toNat, BitVec.setWidth_eq, BitVec.ofFin_toFin]
  exact append_fields w

theorem selectsRow_of_mem {w : Word} {row : Word × Word} (hrow : row ∈ opcodeRows) (h : w &&& row.2 = row.1) :
    selectsRow w = true :=
  List.any_eq_true.mpr ⟨row, hrow, beq_iff_eq.mpr h⟩

/-- Every class's opcodes have their rows in the map, with the mask of the class (30_encoding.md R62, R65). -/
theorem opcodeRows_classA {op : BitVec 4} (hop : op.toNat ∈ [1, 2, 3, 4, 11, 12]) :
    (0#16 ++ 0#8 ++ 0#4 ++ op, 0xFFFFFF0F) ∈ opcodeRows := by
  revert op; decide

theorem opcodeRows_classB {op : BitVec 4} (hop : op.toNat ∈ [5, 6, 7]) :
    (0#16 ++ 0#8 ++ 0#4 ++ op, 0x0000FF0F) ∈ opcodeRows := by
  revert op; decide

theorem opcodeRows_classE {op : BitVec 4} (hop : op.toNat ∈ [8, 9, 10, 13]) :
    (0#16 ++ 0#8 ++ 0#4 ++ op, 0xFFFFFFFF) ∈ opcodeRows := by
  revert op; decide

/-- A legal word shows its opcode alone under the mask of its class, and so selects the opcode's row. -/
theorem selectsRow_of_legal {w : Word} (h : ¬ IllegalWord w) : selectsRow w = true := by
  obtain ⟨hrsv, hclass⟩ := legalWord_cases h
  have hw := packCw_fields hrsv
  rcases hclass with ⟨hop, hc⟩ | hop | ⟨hop, hp, hc⟩
  · refine selectsRow_of_mem (opcodeRows_classA hop) ?_
    rw [hc] at hw
    simpa only [hw] using Laws.packCw_and_maskA (fieldPr w) (fieldOp w)
  · refine selectsRow_of_mem (opcodeRows_classB hop) ?_
    simpa only [hw] using Laws.packCw_and_maskB (fieldHc w) (fieldPr w) (fieldOp w)
  · refine selectsRow_of_mem (opcodeRows_classE hop) ?_
    rw [hc, hp] at hw
    simpa only [hw] using Laws.packCw_and_maskE (fieldOp w)

/-! ### The status of a response (60_exceptions.md R150) -/

/-- An advance command without harmonics responds OK in the domain and OperandFault outside it. -/
theorem advance_st {pr : Fin 16} {f r inc m : Word} {sample : Word → Word} {s t : State} {a : Response}
    (h : advance pr f r inc m sample s = .next t) (hr : t.resp = some a) :
    (domainOK f r (s.phase pr) = true ∧ a.st = 0) ∨ (domainOK f r (s.phase pr) = false ∧ a.st = 2) := by
  rcases advance_cases h with ⟨hd, rfl⟩ | ⟨hd, _, _, rfl⟩ | ⟨_, _, rfl⟩
  · obtain rfl : _ = a := Option.some.inj hr
    exact .inr ⟨hd, rfl⟩
  · obtain rfl : _ = a := Option.some.inj hr
    exact .inl ⟨hd, rfl⟩
  · cases hr

/-- A band-limited command responds OK in the domain with a count, HarmonicRange there without one, and OperandFault outside. -/
theorem advanceBandlimited_st {pr : Fin 16} {f r : Word} {count : Option Nat} {sample : Nat → Word → Word} {s t : State}
    {a : Response} (h : advanceBandlimited pr f r count sample s = .next t) (hr : t.resp = some a) :
    (domainOK f r (s.phase pr) = true ∧ count ≠ none ∧ a.st = 0) ∨
    (domainOK f r (s.phase pr) = true ∧ count = none ∧ a.st = 3) ∨
    (domainOK f r (s.phase pr) = false ∧ a.st = 2) := by
  rcases advanceBandlimited_cases h with ⟨hd, rfl⟩ | ⟨hd, hnone, rfl⟩ | ⟨hd, _, _, hsome, _, rfl⟩ | ⟨_, _, _, _, rfl⟩
  · obtain rfl : _ = a := Option.some.inj hr
    exact .inr (.inr ⟨hd, rfl⟩)
  · obtain rfl : _ = a := Option.some.inj hr
    exact .inr (.inl ⟨hd, hnone, rfl⟩)
  · obtain rfl : _ = a := Option.some.inj hr
    exact .inl ⟨hd, by simp [hsome], rfl⟩
  · cases hr

/-- An encode command responds OK to a number and EncodeNaN to a NaN. -/
theorem encodeSample_st {x : Word} {nb : BitVec 3} {code : Word → Word} {s t : State} {a : Response}
    (h : encodeSample x nb code s = .next t) (hr : t.resp = some a) :
    (isNaN32 x = false ∧ a.st = 0) ∨ (isNaN32 x = true ∧ a.st = 4) := by
  rcases encodeSample_cases h with ⟨hn, rfl⟩ | ⟨hn, rfl⟩
  · obtain rfl : _ = a := Option.some.inj hr
    exact .inr ⟨hn, rfl⟩
  · obtain rfl : _ = a := Option.some.inj hr
    exact .inl ⟨hn, rfl⟩

/-- A command that decodes never responds IllegalCommand (60_exceptions.md R153). -/
theorem exec_st_ne_illegalCommand {i : Instr} {s t : State} {a : Response} (h : exec i s = .next t)
    (hr : t.resp = some a) : a.st ≠ 1 := by
  cases i with
  | advsin pr f r | advsqr pr f r | advsaw pr f r | advtri pr f r =>
    rcases advance_st h hr with ⟨_, hst⟩ | ⟨_, hst⟩ <;> simp [hst]
  | advblsqr pr hc f r | advblsaw pr hc f r | advbltri pr hc f r =>
    rcases advanceBandlimited_st h hr with ⟨_, _, hst⟩ | ⟨_, _, hst⟩ | ⟨_, hst⟩ <;> simp [hst]
  | enc8 x | enc16 x | enc32 x =>
    simp only [exec_enc8, exec_enc16, exec_enc32] at h
    rcases encodeSample_st h hr with ⟨_, hst⟩ | ⟨_, hst⟩ <;> simp [hst]
  | phwr _ _ | phrd _ | rdfs =>
    obtain rfl := next_inj.mp h
    obtain rfl : _ = a := Option.some.inj hr
    simp

/-! ### A busy block's step on an illegal word (60_exceptions.md R153) -/

/-- IllegalCommand, field by field (60_exceptions.md R150, R151; 10_state.md R25). -/
theorem raise_illegalCommand (s : State) :
    s.raise .illegalCommand = { s with fstat := s.fstat ||| 0b0001, busy := false, resp := some ⟨1, 0, 0⟩ } := rfl

/-- OperandFault, field by field (60_exceptions.md R150, R151; 10_state.md R25). -/
theorem raise_operandFault (s : State) :
    s.raise .operandFault = { s with fstat := s.fstat ||| 0b0010, busy := false, resp := some ⟨2, 0, 0⟩ } := rfl

theorem step_of_illegalWord {s : State} (hr : s.rst = false) (hb : s.busy = true) (h : IllegalWord s.cmd.cw) :
    step s = .next (s.raise .illegalCommand) := by
  obtain ⟨e, he⟩ := decode_error_of_illegal h
  rw [step_busy hr hb, runCommand_error he]

/-- Settles O9: the number cases of the statement are those of `IllegalWord`; the decoder rejects each of them by the command word
alone, and what decodes never responds with status 1. -/
theorem illegalWordFaults : Obligations.IllegalWordFaults := by
  unfold Obligations.IllegalWordFaults
  intro s hr hb
  simp only [ne_eq, ← fieldRsv_eq_zero_iff, ← fieldPr_eq_zero_iff, ← fieldHc_eq, ← toNat_fieldOp]
  constructor
  · intro (hill : IllegalWord s.cmd.cw)
    rw [step_of_illegalWord hr hb hill, raise_illegalCommand]
  · intro (hlegal : ¬ IllegalWord s.cmd.cw) t a h hresp
    obtain ⟨i, hi⟩ := decode_ok_of_legal hlegal
    rw [step_busy hr hb, runCommand_ok hi] at h
    exact exec_st_ne_illegalCommand h hresp

/-! ### Faults are precise (60_exceptions.md R151) -/

/-- A busy block that responds with a nonzero status has taken a fault and nothing else. -/
theorem step_fault_response {s t : State} {a : Response} (hb : s.busy = true) (hr : s.rst = false)
    (h : step s = .next t) (hresp : t.resp = some a) (hst : a.st ≠ 0) : ∃ c, t = s.raise c := by
  rcases step_cases h with ⟨hrst, _⟩ | ⟨_, _, i, _, hexec⟩ | ⟨_, _, _, ht⟩ | ⟨_, hidle, _⟩ | ⟨_, hidle, _⟩
  · simp [hr] at hrst
  · rcases exec_cases hexec with hraise | ⟨_, _, _, _, rfl, hok⟩ | ⟨_, rfl, hok⟩ | ⟨_, rfl⟩
    · exact hraise
    · obtain rfl := Option.some.inj hresp
      exact absurd hok hst
    · obtain rfl := Option.some.inj hresp
      exact absurd hok hst
    · cases hresp
  · exact ⟨_, ht⟩
  · simp [hb] at hidle
  · simp [hb] at hidle

/-- The code of a fault is its `FSTAT` bit plus one (60_exceptions.md R150). -/
theorem FaultCause.toNat_code (c : FaultCause) : c.code.toNat = c.bitIndex + 1 := by cases c <;> rfl

/-- Settles O42: only `State.raise` gives a nonzero status, and its fields are those of the statement. -/
theorem faultResponseIsPrecise : Obligations.FaultResponseIsPrecise := by
  unfold Obligations.FaultResponseIsPrecise
  intro s t a hr hb h hresp hst
  obtain ⟨c, rfl⟩ := step_fault_response hb hr h hresp hst
  obtain rfl := Option.some.inj hresp
  exact ⟨c, rfl, c.toNat_code, rfl⟩

/-! ### The advance commands inside and outside the domain (60_exceptions.md R152, R162) -/

/-- The seven advance commands on the same register and operands; `hc` is the count of the band-limited ones (00_scope.md R19). -/
def advanceCommands (pr : Fin 16) (hc : Nat) (f r : Word) : List Instr :=
  [.advsin pr f r, .advsqr pr f r, .advsaw pr f r, .advtri pr f r, .advblsqr pr hc f r, .advblsaw pr hc f r,
    .advbltri pr hc f r]

/-- The advance commands are those without harmonics, which are one shared operation, and the band-limited ones. -/
theorem exec_advance_cases {i : Instr} {pr : Fin 16} {hc : Nat} {f r : Word}
    (hi : i ∈ advanceCommands pr hc f r) :
    (∃ inc m sample, ∀ s, exec i s = advance pr f r inc m sample s) ∨
    i ∈ [Instr.advblsqr pr hc f r, .advblsaw pr hc f r, .advbltri pr hc f r] := by
  rw [advanceCommands, List.mem_cons, List.mem_cons, List.mem_cons, List.mem_cons] at hi
  rcases hi with rfl | rfl | rfl | rfl | hi
  · exact .inl ⟨_, _, _, exec_advsin pr f r⟩
  · exact .inl ⟨_, _, _, exec_advsqr pr f r⟩
  · exact .inl ⟨_, _, _, exec_advsaw pr f r⟩
  · exact .inl ⟨_, _, _, exec_advtri pr f r⟩
  · exact .inr hi

theorem mem_advanceCommands {i : Instr} {pr : Fin 16} {hc : Nat} {f r : Word}
    (hi : i ∈ [Instr.advblsqr pr hc f r, .advblsaw pr hc f r, .advbltri pr hc f r]) : i ∈ advanceCommands pr hc f r :=
  List.mem_append_right [Instr.advsin pr f r, .advsqr pr f r, .advsaw pr f r, .advtri pr f r] hi

theorem harmonicCount_ne_none {hc : Nat} {auto : Option Nat} (h : hc ≠ 0 ∨ auto ≠ none) :
    harmonicCount hc auto ≠ none := by
  by_cases hz : hc = 0
  · rw [hz, harmonicCount_auto]
    exact h.resolve_left (not_not_intro hz)
  · simp [harmonicCount_explicit auto hz]

/-- Outside the domain every advance command raises OperandFault, whatever its count. -/
theorem exec_outside_domain {i : Instr} {pr : Fin 16} {hc : Nat} {f r : Word} {s : State}
    (hi : i ∈ advanceCommands pr hc f r)
    (hd : domainOK f r (s.phase pr) = false) : exec i s = .next (s.raise .operandFault) := by
  rcases exec_advance_cases hi with ⟨inc, m, sample, hexec⟩ | hbl
  · rw [hexec, advance_fault hd]
  · obtain ⟨auto, sample, _, hexec⟩ := exec_bandlimited hbl s
    rw [hexec, advanceBandlimited_fault hd]

/-- In the domain an advance command responds OK, or, in auto mode only, HarmonicRange. -/
theorem exec_inside_domain_st {i : Instr} {pr : Fin 16} {hc : Nat} {f r : Word} {s t : State} {a : Response}
    (hi : i ∈ advanceCommands pr hc f r)
    (hd : domainOK f r (s.phase pr) = true) (h : exec i s = .next t) (hr : t.resp = some a) :
    a.st = 0 ∨ (hc = 0 ∧ a.st = 3) := by
  rcases exec_advance_cases hi with ⟨inc, m, sample, hexec⟩ | hbl
  · rw [hexec] at h
    rcases advance_st h hr with ⟨_, hst⟩ | ⟨hd', _⟩
    · exact .inl hst
    · simp [hd] at hd'
  · obtain ⟨auto, sample, _, hexec⟩ := exec_bandlimited hbl s
    rw [hexec] at h
    rcases advanceBandlimited_st h hr with ⟨_, _, hst⟩ | ⟨_, hnone, hst⟩ | ⟨hd', _⟩
    · exact .inl hst
    · refine .inr ⟨?_, hst⟩
      by_contra hne
      exact harmonicCount_ne_none (.inl hne) hnone
    · simp [hd] at hd'

/-- In the domain a band-limited command whose automatic count exists responds OK in either mode. -/
theorem advanceBandlimited_st_of_auto {pr : Fin 16} {hc : Nat} {f r : Word} {auto : Option Nat}
    {sample : Nat → Word → Word} {s t : State} {a : Response} (hauto : auto ≠ none)
    (hd : domainOK f r (s.phase pr) = true)
    (h : advanceBandlimited pr f r (harmonicCount hc auto) sample s = .next t) (hr : t.resp = some a) : a.st = 0 := by
  rcases advanceBandlimited_st h hr with ⟨_, _, hst⟩ | ⟨_, hnone, _⟩ | ⟨hd', _⟩
  · exact hst
  · exact absurd hnone (harmonicCount_ne_none (.inr hauto))
  · simp [hd] at hd'

/-! ### The saw search ends from a 65536th of Nyquist on (60_exceptions.md R162) -/

/-- What is at most another is not above it (00_scope.md R9). -/
theorem flt32_false_of_fle32 {a b : Word} (h : fle32 a b = true) : flt32 b a = false := by
  obtain ⟨_, _, hle⟩ := fle32_iff.mp h
  refine Bool.eq_false_iff.mpr fun hgt => ?_
  obtain ⟨_, _, hlt⟩ := flt32_iff.mp hgt
  omega

/-- The search finds a count when its last candidate is not below Nyquist (41_bandlimited.md R104). -/
theorem harmonicSearch_ne_none {below : Nat → Bool} {left h : Nat} (hlast : below (h + left) = false) :
    harmonicSearch below left h ≠ none := by
  intro hnone
  have hall := harmonicSearch_spec below left h
  rw [hnone] at hall
  simp [hall (h + left) (Nat.le_add_right ..) (Nat.le_refl _)] at hlast

/-- The last candidate of the saw search is harmonic 65536; without it below Nyquist there is a count. -/
theorem autohSaw_ne_none_of_le {f r : Word} (hpos : flt32 fZero f = true)
    (hle : fle32 (nyquist r) (fmul32 f (i2f32 65536)) = true) : autohSaw f r ≠ none := by
  have hlast : flt32 (fmul32 f (i2f32 ((0 + Config.hmax : Nat) + 1))) (nyquist r) = false := flt32_false_of_fle32 hle
  by_cases hz : feq32 f fZero = true
  · simp [autohSaw_zero r hz]
  · have hneg : flt32 f fZero = false := flt32_false_of_fle32 (fle32_of_flt32 hpos)
    rw [autohSaw, if_neg hz, hneg, if_neg Bool.false_ne_true]
    exact harmonicSearch_ne_none hlast

/-- Settles O46: in the domain the only fault an advance command can have is a missing count, and each condition of the statement
gives one; an encode command can only fault on a NaN. -/
theorem noFaultInsideTheDomain : Obligations.NoFaultInsideTheDomain := by
  unfold Obligations.NoFaultInsideTheDomain
  refine ⟨fun i pr hc f r s t a hi hf hr hpos hp h hresp => ?advance, fun x s t a i hi hnum h hresp => ?encode⟩
  case advance =>
    have hd : domainOK f r (s.phase pr) = true := domainOK_iff.mpr ⟨hf, hr, hpos, hp⟩
    have hst := exec_inside_domain_st hi hd h hresp
    have hother : a.st ≠ 1 ∧ a.st ≠ 2 ∧ a.st ≠ 4 := by
      rcases hst with hst | ⟨_, hst⟩ <;> simp [hst]
    obtain ⟨hne1, hne2, hne4⟩ := hother
    refine ⟨hne1, hne2, hne4, fun hne => hst.resolve_right fun ⟨hauto, _⟩ => hne hauto, ?saw, ?odd⟩
    case saw =>
      rintro rfl hcount
      have hauto : autohSaw f r ≠ none := by
        rcases hcount with hsome | hz | ⟨hfpos, hle⟩
        · exact hsome
        · simp [autohSaw_zero r hz]
        · exact autohSaw_ne_none_of_le hfpos hle
      exact advanceBandlimited_st_of_auto hauto hd h hresp
    case odd =>
      intro hodd hcount
      have hauto : autohOdd f r ≠ none := by
        rcases hcount with hsome | hz
        · exact hsome
        · simp [autohOdd_zero r hz]
      rcases hodd with rfl | rfl
      · exact advanceBandlimited_st_of_auto hauto hd h hresp
      · exact advanceBandlimited_st_of_auto hauto hd h hresp
  case encode =>
    obtain ⟨nb, code, hexec⟩ := exec_encode hi
    rw [hexec] at h
    rcases encodeSample_st h hresp with ⟨_, hst⟩ | ⟨hnan, _⟩
    · exact hst
    · simp [hnum] at hnan

/-! ### The order of the checks (60_exceptions.md R157) -/

/-- The domain check fails as soon as one of its four conditions does (60_exceptions.md R152). -/
theorem domainOK_eq_false {f r p0 : Word}
    (h : isFinite32 f = false ∨ isFinite32 r = false ∨ flt32 fZero r = false ∨ isFinite32 p0 = false) :
    domainOK f r p0 = false := by
  refine Bool.eq_false_iff.mpr fun hd => ?_
  obtain ⟨hf, hr, hpos, hp⟩ := domainOK_iff.mp hd
  simp [hf, hr, hpos, hp] at h

/-- Settles O47: a word without a row is illegal, so the step faults before any operand is read; outside the domain every advance
command faults before its count; and in the domain a negative frequency faults in auto mode (O21) before the loop is entered. -/
theorem faultPriority : Obligations.FaultPriority := by
  unfold Obligations.FaultPriority
  refine ⟨fun s hr hb hrow => ?word, fun pr hc f r s => ⟨fun hout i hi => ?operand, ?count⟩⟩
  case word =>
    have hill : IllegalWord s.cmd.cw := by
      by_contra hlegal
      simp [selectsRow_of_legal hlegal] at hrow
    rw [step_of_illegalWord hr hb hill, raise_illegalCommand]
  case operand =>
    have hd : domainOK f r (s.phase pr) = false := domainOK_eq_false hout
    rw [← raise_operandFault]
    rcases List.mem_append.mp hi with hauto | hadv
    · exact exec_outside_domain (mem_advanceCommands hauto) hd
    · exact exec_outside_domain hadv hd
  case count =>
    intro hf hr hpos hp hneg _
    obtain ⟨_, hfault, _⟩ := autoModeZeroAndNegative
    exact hfault pr f r s hf hr hpos hp hneg

end Sys2Proof.Machine
end

section
/-! PROOFS. The encoder and the opcode map against the decoder (30_encoding.md R61, R62, R65, R66): the fields of a packed word are what
was packed, so decoding undoes encoding; a decoded word is packed from its fields, so encoding undoes decoding; and a word that selects
a row of the map has the row's opcode and no field its class does not use. -/

namespace Sys2Proof.Machine

/-! ### The fields of a packed word (30_encoding.md R61) -/

theorem fieldOp_packCw (hc : Nat) (pr : Fin 16) (op : BitVec 4) : fieldOp (packCw hc pr op) = op :=
  BitVec.extractLsb'_append_eq_right

theorem fieldPr_packCw (hc : Nat) (pr : Fin 16) (op : BitVec 4) : fieldPr (packCw hc pr op) = pr := by
  have hpr : (BitVec.ofNat 16 hc ++ 0#8 ++ (BitVec.ofFin pr : BitVec 4) ++ op).extractLsb' 4 4 = BitVec.ofFin pr := by
    rw [BitVec.extractLsb'_append_eq_of_le (by decide), BitVec.extractLsb'_append_eq_right]
  exact congrArg BitVec.toFin hpr

theorem fieldRsv_packCw (hc : Nat) (pr : Fin 16) (op : BitVec 4) : fieldRsv (packCw hc pr op) = 0 := by
  have hrsv : (BitVec.ofNat 16 hc ++ 0#8 ++ (BitVec.ofFin pr : BitVec 4) ++ op).extractLsb' 8 8 = 0#8 := by
    rw [BitVec.extractLsb'_append_eq_of_le (by decide), BitVec.extractLsb'_append_eq_of_le (by decide),
      BitVec.extractLsb'_append_eq_right]
  exact hrsv

theorem fieldHc_packCw {hc : Nat} (h : countFits hc = true) (pr : Fin 16) (op : BitVec 4) :
    fieldHc (packCw hc pr op) = hc := by
  have hhc : (BitVec.ofNat 16 hc ++ 0#8 ++ (BitVec.ofFin pr : BitVec 4) ++ op).extractLsb' 16 16 = BitVec.ofNat 16 hc := by
    rw [BitVec.extractLsb'_append_eq_of_le (by decide), BitVec.extractLsb'_append_eq_of_le (by decide),
      BitVec.extractLsb'_append_eq_of_le (by decide)]
    exact BitVec.extractLsb'_eq_self
  have hlt : hc < 2 ^ 16 := Nat.lt_succ_of_le (of_decide_eq_true h)
  calc fieldHc (packCw hc pr op)
    _ = (BitVec.ofNat 16 hc).toNat := congrArg BitVec.toNat hhc
    _ = hc := by rw [BitVec.toNat_ofNat, Nat.mod_eq_of_lt hlt]

theorem countFits_zero : countFits 0 = true := by decide

/-! ### Decoding undoes encoding (30_encoding.md R62, R70) -/

theorem decodeA_packCw (pr : Fin 16) (op : BitVec 4) (i : Instr) : decodeA (packCw 0 pr op) i = .ok i :=
  decodeA_ok i (fieldHc_packCw countFits_zero pr op)

theorem decodeE_packCw (op : BitVec 4) (i : Instr) : decodeE (packCw 0 0 op) i = .ok i :=
  decodeE_ok i (fieldPr_packCw 0 0 op) (fieldHc_packCw countFits_zero 0 op)

/-- The opcode of a packed word as the number the decoder dispatches on. -/
theorem toNat_fieldOp_packCw (hc : Nat) (pr : Fin 16) (op : BitVec 4) : (fieldOp (packCw hc pr op)).toNat = op.toNat := by
  rw [fieldOp_packCw]

/-- Settles O1: a packed word has a zero reserved field and its row's opcode, so the decoder takes the row's arm, and the arm reads
the packed fields back. -/
theorem decodeEncodeAgree : Obligations.DecodeEncodeAgree := by
  unfold Obligations.DecodeEncodeAgree
  intro i hwf
  have hrsv := fieldRsv_packCw
  have hop := toNat_fieldOp_packCw
  cases i with
  | advsin pr f r =>
    rw [encode, decode_advsin (c := ⟨packCw 0 pr 1, f, r⟩) (hrsv ..) (hop ..), fieldPr_packCw, decodeA_packCw]
  | advsqr pr f r =>
    rw [encode, decode_advsqr (c := ⟨packCw 0 pr 2, f, r⟩) (hrsv ..) (hop ..), fieldPr_packCw, decodeA_packCw]
  | advsaw pr f r =>
    rw [encode, decode_advsaw (c := ⟨packCw 0 pr 3, f, r⟩) (hrsv ..) (hop ..), fieldPr_packCw, decodeA_packCw]
  | advtri pr f r =>
    rw [encode, decode_advtri (c := ⟨packCw 0 pr 4, f, r⟩) (hrsv ..) (hop ..), fieldPr_packCw, decodeA_packCw]
  | advblsqr pr hc f r =>
    rw [encode, decode_advblsqr (c := ⟨packCw hc pr 5, f, r⟩) (hrsv ..) (hop ..), fieldPr_packCw, fieldHc_packCw hwf]
  | advblsaw pr hc f r =>
    rw [encode, decode_advblsaw (c := ⟨packCw hc pr 6, f, r⟩) (hrsv ..) (hop ..), fieldPr_packCw, fieldHc_packCw hwf]
  | advbltri pr hc f r =>
    rw [encode, decode_advbltri (c := ⟨packCw hc pr 7, f, r⟩) (hrsv ..) (hop ..), fieldPr_packCw, fieldHc_packCw hwf]
  | enc8 x => rw [encode, decode_enc8 (c := ⟨packCw 0 0 8, x, 0⟩) (hrsv ..) (hop ..), decodeE_packCw]
  | enc16 x => rw [encode, decode_enc16 (c := ⟨packCw 0 0 9, x, 0⟩) (hrsv ..) (hop ..), decodeE_packCw]
  | enc32 x => rw [encode, decode_enc32 (c := ⟨packCw 0 0 10, x, 0⟩) (hrsv ..) (hop ..), decodeE_packCw]
  | phwr pr v =>
    rw [encode, decode_phwr (c := ⟨packCw 0 pr 11, v, 0⟩) (hrsv ..) (hop ..), fieldPr_packCw, decodeA_packCw]
  | phrd pr =>
    rw [encode, decode_phrd (c := ⟨packCw 0 pr 12, 0, 0⟩) (hrsv ..) (hop ..), fieldPr_packCw, decodeA_packCw]
  | rdfs => rw [encode, decode_rdfs (c := ⟨packCw 0 0 13, 0, 0⟩) (hrsv ..) (hop ..), decodeE_packCw]

/-! ### Encoding undoes decoding (30_encoding.md R66) -/

/-- A word that decodes is none of the illegal words. -/
theorem legal_of_decode_ok {c : Command} {i : Instr} (h : decode c = .ok i) : ¬ IllegalWord c.cw := fun hill => by
  obtain ⟨e, he⟩ := decode_error_of_illegal hill
  rw [h] at he
  cases he

/-- The count field always fits, being 16 bits wide. -/
theorem countFits_fieldHc (w : Word) : countFits (fieldHc w) = true :=
  decide_eq_true (Nat.le_of_lt_succ (BitVec.isLt _))

/-- The instruction is well formed and its command word is `w`. -/
def EncodesTo (w : Word) (i : Instr) : Prop := i.wellFormed = true ∧ (encode i).cw = w

/-- Packing the fields of a word with a zero reserved field, the opcode given as a number. -/
theorem packCw_fields_of_op {w : Word} {op : BitVec 4} (hrsv : fieldRsv w = 0) (hop : (fieldOp w).toNat = op.toNat) :
    packCw (fieldHc w) (fieldPr w) op = w := by
  rw [← BitVec.eq_of_toNat_eq hop]
  exact packCw_fields hrsv

/-- What a legal word decodes to encodes to the word: its class's unused fields are zero, as the encoder writes them. -/
theorem encodesTo_of_decode {c : Command} {i : Instr} (h : decode c = .ok i) : EncodesTo c.cw i := by
  obtain ⟨hrsv, hclass⟩ := legalWord_cases (legal_of_decode_ok h)
  have hpack {op : BitVec 4} (hop : (fieldOp c.cw).toNat = op.toNat) := packCw_fields_of_op hrsv hop
  simp only [List.mem_cons, List.not_mem_nil, or_false] at hclass
  rcases hclass with ⟨hop, hc⟩ | hop | ⟨hop, hp, hc⟩
  case inl =>
    rw [hc] at hpack
    have hA {j : Instr} (hj : decode c = decodeA c.cw j) : j = i := by
      rw [hj, decodeA_ok j hc] at h
      exact Except.ok.inj h
    rcases hop with hop | hop | hop | hop | hop | hop
    · obtain rfl := hA (decode_advsin hrsv hop); exact ⟨rfl, hpack hop⟩
    · obtain rfl := hA (decode_advsqr hrsv hop); exact ⟨rfl, hpack hop⟩
    · obtain rfl := hA (decode_advsaw hrsv hop); exact ⟨rfl, hpack hop⟩
    · obtain rfl := hA (decode_advtri hrsv hop); exact ⟨rfl, hpack hop⟩
    · obtain rfl := hA (decode_phwr hrsv hop); exact ⟨rfl, hpack hop⟩
    · obtain rfl := hA (decode_phrd hrsv hop); exact ⟨rfl, hpack hop⟩
  case inr.inl =>
    have hB {j : Instr} (hj : decode c = .ok j) : j = i := Except.ok.inj (hj.symm.trans h)
    rcases hop with hop | hop | hop
    · obtain rfl := hB (decode_advblsqr hrsv hop); exact ⟨countFits_fieldHc _, hpack hop⟩
    · obtain rfl := hB (decode_advblsaw hrsv hop); exact ⟨countFits_fieldHc _, hpack hop⟩
    · obtain rfl := hB (decode_advbltri hrsv hop); exact ⟨countFits_fieldHc _, hpack hop⟩
  case inr.inr =>
    rw [hc, hp] at hpack
    have hE {j : Instr} (hj : decode c = decodeE c.cw j) : j = i := by
      rw [hj, decodeE_ok j hp hc] at h
      exact Except.ok.inj h
    rcases hop with hop | hop | hop | hop
    · obtain rfl := hE (decode_enc8 hrsv hop); exact ⟨rfl, hpack hop⟩
    · obtain rfl := hE (decode_enc16 hrsv hop); exact ⟨rfl, hpack hop⟩
    · obtain rfl := hE (decode_enc32 hrsv hop); exact ⟨rfl, hpack hop⟩
    · obtain rfl := hE (decode_rdfs hrsv hop); exact ⟨rfl, hpack hop⟩

/-- Settles O2: the word is packed from the fields the instruction carries, and the third clause is O1 for that instruction. -/
theorem decodedWordIsItsEncoding : Obligations.DecodedWordIsItsEncoding := by
  unfold Obligations.DecodedWordIsItsEncoding
  intro c i h
  obtain ⟨hwf, hcw⟩ := encodesTo_of_decode h
  refine ⟨hwf, hcw, ?_⟩
  rw [← hcw]
  exact decodeEncodeAgree i hwf

/-! ### The opcode map (30_encoding.md R65) -/

/-- The fields of a masked word are the masked fields; for the masks of the opcode map each is kept whole or cleared. -/
theorem fieldOp_and (w m : Word) : fieldOp (w &&& m) = fieldOp w &&& fieldOp m := BitVec.extractLsb'_and

theorem fieldRsv_and (w m : Word) : fieldRsv (w &&& m) = fieldRsv w &&& fieldRsv m := BitVec.extractLsb'_and

theorem fieldPr_and {w m : Word} (hm : m.extractLsb' 4 4 = 0xF#4) : fieldPr (w &&& m) = fieldPr w := by
  simp only [fieldPr, BitVec.extractLsb'_and, hm]
  exact congrArg BitVec.toFin (BitVec.and_allOnes (x := w.extractLsb' 4 4))

theorem fieldHc_and {w m : Word} (hm : m.extractLsb' 16 16 = 0xFFFF#16) : fieldHc (w &&& m) = fieldHc w := by
  simp only [fieldHc, BitVec.extractLsb'_and, hm]
  exact congrArg BitVec.toNat (BitVec.and_allOnes (x := w.extractLsb' 16 16))

/-- Every mask of the map keeps the opcode and the reserved field whole. -/
theorem opcodeRows_mask {row : Word × Word} (h : row ∈ opcodeRows) : fieldOp row.2 = 0xF ∧ fieldRsv row.2 = 0xFF :=
  of_decide_eq_true (List.all_eq_true.mp
    (show opcodeRows.all (fun row => decide (fieldOp row.2 = 0xF ∧ fieldRsv row.2 = 0xFF)) = true by decide) row h)

/-- A word that selects a row has the row's opcode and a zero reserved field. -/
theorem fields_of_row {w : Word} {row : Word × Word} (hrow : row ∈ opcodeRows) (h : w &&& row.2 = row.1) :
    fieldOp w = fieldOp row.1 ∧ fieldRsv w = fieldRsv row.1 := by
  obtain ⟨hop, hrsv⟩ := opcodeRows_mask hrow
  constructor
  · rw [← h, fieldOp_and, hop]
    exact BitVec.and_allOnes.symm
  · rw [← h, fieldRsv_and, hrsv]
    exact BitVec.and_allOnes.symm

/-- A row's match has a legal opcode, and its mask keeps the fields that its class must leave zero. -/
def LegalRow (row : Word × Word) : Prop :=
  fieldRsv row.1 = 0 ∧ (fieldOp row.1).toNat ∉ [0, 14, 15] ∧
  ((fieldOp row.1).toNat ∈ [1, 2, 3, 4, 8, 9, 10, 11, 12, 13] →
    row.2.extractLsb' 16 16 = 0xFFFF#16 ∧ fieldHc row.1 = 0) ∧
  ((fieldOp row.1).toNat ∈ [8, 9, 10, 13] → row.2.extractLsb' 4 4 = 0xF#4 ∧ fieldPr row.1 = 0)

theorem opcodeRows_legal {row : Word × Word} (h : row ∈ opcodeRows) : LegalRow row := by
  simp only [opcodeRows, List.mem_cons, List.not_mem_nil, or_false] at h
  unfold LegalRow
  rcases h with rfl | rfl | rfl | rfl | rfl | rfl | rfl | rfl | rfl | rfl | rfl | rfl | rfl <;> decide

/-- A word that selects a row is none of the illegal words. -/
theorem legal_of_selectsRow {w : Word} (h : selectsRow w = true) : ¬ IllegalWord w := by
  obtain ⟨row, hrow, hsel⟩ := List.any_eq_true.mp h
  have hw : w &&& row.2 = row.1 := beq_iff_eq.mp hsel
  obtain ⟨hop, hrsv⟩ := fields_of_row hrow hw
  obtain ⟨hrsv0, hres, hcount, hreg⟩ := opcodeRows_legal hrow
  rw [← hop] at hres hcount hreg
  rintro (hill | hill | ⟨hill, hc⟩ | ⟨hill, hp⟩)
  · exact hres hill
  · exact hill (hrsv.trans hrsv0)
  · obtain ⟨hmask, hzero⟩ := hcount hill
    exact hc (by rw [← fieldHc_and hmask, hw, hzero])
  · obtain ⟨hmask, hzero⟩ := hreg hill
    exact hp (by rw [← fieldPr_and hmask, hw, hzero])

/-- The rows of the map have different opcodes. -/
theorem opcodeRows_op_unique (op : BitVec 4) : (opcodeRows.filter fun row => fieldOp row.1 == op).length ≤ 1 := by
  revert op; decide

/-- Settles O4: what decodes is legal and so selects its opcode's row; what selects a row is legal and so decodes; and rows selected
by one word share its opcode, which only one row has. -/
theorem legalExactlyWhenOneRowIsSelected : Obligations.LegalExactlyWhenOneRowIsSelected := by
  unfold Obligations.LegalExactlyWhenOneRowIsSelected
  refine ⟨fun c => ⟨fun ⟨i, hi⟩ => selectsRow_of_legal (legal_of_decode_ok hi),
    fun h => decode_ok_of_legal (legal_of_selectsRow h)⟩, fun w => ?_⟩
  have hcongr : (opcodeRows.filter fun row => (w &&& row.2) == row.1) =
      opcodeRows.filter fun row => (w &&& row.2) == row.1 && fieldOp row.1 == fieldOp w :=
    List.filter_congr fun row hrow => by
      cases hsel : (w &&& row.2) == row.1 with
      | false => rfl
      | true => simp [(fields_of_row hrow (beq_iff_eq.mp hsel)).1]
  rw [hcongr]
  calc _ ≤ (opcodeRows.filter fun row => fieldOp row.1 == fieldOp w).length :=
        (List.monotone_filter_right _ fun _ h => (Bool.and_eq_true_iff.mp h).2).length_le
    _ ≤ 1 := opcodeRows_op_unique _

/-! ### Words written out from the tables (95_test_vectors.md 2.1) -/

/-- The fields of a command word with a zero reserved field. -/
def HasFields (w : Word) (op : Nat) (pr : Fin 16) (hc : Nat) : Prop :=
  fieldRsv w = 0 ∧ (fieldOp w).toNat = op ∧ fieldPr w = pr ∧ fieldHc w = hc

/-- Settles O5: the fields of each word are computed, and the equation of its opcode says what they stand for or why the word is
rejected. -/
theorem sampleWordsDecode : Obligations.SampleWordsDecode := by
  unfold Obligations.SampleWordsDecode
  intro a b
  refine ⟨?_, ?_, ?_, ?_, ?_, ?_, ?_, ?_, ?_, ?_, ?_, ?_⟩
  · obtain ⟨hrsv, hop, hpr, hc⟩ : HasFields 0x000000F1 1 15 0 := by unfold HasFields; decide
    rw [decode_advsin (c := ⟨_, a, b⟩) hrsv hop, decodeA_ok _ hc, hpr]
  · obtain ⟨hrsv, hop, hpr, hc⟩ : HasFields 0x00160036 6 3 22 := by unfold HasFields; decide
    rw [decode_advblsaw (c := ⟨_, a, b⟩) hrsv hop, hpr, hc]
  · obtain ⟨hrsv, hop, hpr, hc⟩ : HasFields 0xFFFF00F5 5 15 65535 := by unfold HasFields; decide
    rw [decode_advblsqr (c := ⟨_, a, b⟩) hrsv hop, hpr, hc]
  · obtain ⟨hrsv, hop, hpr, hc⟩ : HasFields 0x00000007 7 0 0 := by unfold HasFields; decide
    rw [decode_advbltri (c := ⟨_, a, b⟩) hrsv hop, hpr, hc]
  · obtain ⟨hrsv, hop, hpr, hc⟩ : HasFields 0x00000009 9 0 0 := by unfold HasFields; decide
    rw [decode_enc16 (c := ⟨_, a, b⟩) hrsv hop, decodeE_ok _ hpr hc]
  · obtain ⟨hrsv, hop, hpr, hc⟩ : HasFields 0x0000005B 11 5 0 := by unfold HasFields; decide
    rw [decode_phwr_ok a b hrsv hop hc, hpr]
  · obtain ⟨hrsv, hop, hpr, hc⟩ : HasFields 0x0000005C 12 5 0 := by unfold HasFields; decide
    rw [decode_phrd_ok a b hrsv hop hc, hpr]
  · obtain ⟨hrsv, hop, hpr, hc⟩ : HasFields 0x0000000D 13 0 0 := by unfold HasFields; decide
    exact decode_rdfs_ok a b hrsv hop hpr hc
  · obtain ⟨hrsv, hop, _, _⟩ : HasFields 0x00000000 0 0 0 := by unfold HasFields; decide
    exact decode_reservedOpcode (c := ⟨_, a, b⟩) hrsv (List.mem_cons.mpr (.inl hop))
  · have hrsv : fieldRsv 0x00000101 ≠ 0 := by decide
    exact decode_reservedField (c := ⟨_, a, b⟩) hrsv
  · obtain ⟨hrsv, hop, _, hc⟩ : HasFields 0x00010041 1 4 1 := by unfold HasFields; decide
    rw [decode_advsin (c := ⟨_, a, b⟩) hrsv hop, decodeA_error _ (by rw [hc]; decide)]
  · obtain ⟨hrsv, hop, hpr, hc⟩ : HasFields 0x0000001D 13 1 0 := by unfold HasFields; decide
    rw [decode_rdfs (c := ⟨_, a, b⟩) hrsv hop, decodeE, hc, hpr]
    rfl

end Sys2Proof.Machine
end

section
/-! PROOFS. The response, the fault bits and the registers over every step (10_state.md R23, R25; 30_encoding.md R69; 60_exceptions.md
R150, R151): each follows from the cases of `step` and of `exec`, with one lemma that says what response a command can give. -/

namespace Sys2Proof.Machine

/-! ### Recorded faults (10_state.md R25) -/

theorem FaultCause.code_injective : Function.Injective FaultCause.code := fun c d h => by
  revert h; cases c <;> cases d <;> decide

/-- Recording a fault sets its own bit and keeps every other. -/
theorem recordFault_getLsbD (x : BitVec 4) (c d : FaultCause) :
    (recordFault x c).getLsbD d.bitIndex = (x.getLsbD d.bitIndex || decide (c = d)) := by
  have hmask : c.mask.getLsbD d.bitIndex = decide (c = d) := by cases c <;> cases d <;> rfl
  rw [recordFault, BitVec.getLsbD_or, hmask]

theorem raise_recorded_iff (s : State) (c d : FaultCause) :
    (s.raise c).recorded d = true ↔ s.recorded d = true ∨ c = d := by
  simp [State.recorded, recordFault_getLsbD]

/-! ### The responses of a command are valid (30_encoding.md R69) -/

/-- An OK response with all four lanes is valid whatever it carries in them. -/
theorem valid_ok_word (x : Word) : Response.Valid ⟨0, 4, x⟩ :=
  ⟨by simp, by simp, fun h => absurd rfl h, fun k hk hlt => absurd hk (not_le.mpr hlt)⟩

/-- A response with no lanes and result 0 is valid with each of the five statuses. -/
theorem valid_empty {st : BitVec 4} (h : st.toNat ≤ 4) : Response.Valid ⟨st, 0, 0⟩ :=
  ⟨h, .inl rfl, fun _ => ⟨rfl, rfl⟩, fun k _ _ => by simp [Response.lane]⟩

theorem valid_fault (c : FaultCause) : Response.Valid ⟨c.code, 0, 0⟩ := valid_empty (by cases c <;> decide)

/-- An encode response is valid: its code fits in its lanes. -/
theorem valid_encode {i : Instr} {x : Word} {s t : State} {a : Response}
    (hi : i = .enc8 x ∨ i = .enc16 x ∨ i = .enc32 x) (h : exec i s = .next t) (hr : t.resp = some a) (ha : a.st = 0) :
    a.Valid := by
  obtain ⟨hnb, hfits⟩ := encode_response_fitsLanes hi h hr ha
  exact ⟨by simp [ha], .inr hnb, fun hne => absurd ha hne, fun k hk _ => hfits.lane_eq_zero hk⟩

/-- An OK response is an encoder's, or it has no lanes, or it carries a whole word. -/
theorem exec_ok_response {i : Instr} {s t : State} {a : Response} (h : exec i s = .next t) (hr : t.resp = some a)
    (ha : a.st = 0) : (∃ x, i = .enc8 x ∨ i = .enc16 x ∨ i = .enc32 x) ∨ a = ⟨0, 0, 0⟩ ∨ ∃ x, a = ⟨0, 4, x⟩ := by
  cases i with
  | advsin pr f r | advsqr pr f r | advsaw pr f r | advtri pr f r =>
    rcases advance_cases h with ⟨_, rfl⟩ | ⟨_, p1, _, rfl⟩ | ⟨_, _, rfl⟩
    · exact absurd ha (not_ok_of_raise hr)
    · exact .inr (.inr ⟨_, (Option.some.inj hr).symm⟩)
    · cases hr
  | advblsqr pr hc f r | advblsaw pr hc f r | advbltri pr hc f r =>
    rcases advanceBandlimited_cases h with ⟨_, rfl⟩ | ⟨_, _, rfl⟩ | ⟨_, n, p1, _, _, rfl⟩ | ⟨_, n, _, _, rfl⟩
    · exact absurd ha (not_ok_of_raise hr)
    · exact absurd ha (not_ok_of_raise hr)
    · exact .inr (.inr ⟨_, (Option.some.inj hr).symm⟩)
    · cases hr
  | enc8 x => exact .inl ⟨x, .inl rfl⟩
  | enc16 x => exact .inl ⟨x, .inr (.inl rfl)⟩
  | enc32 x => exact .inl ⟨x, .inr (.inr rfl)⟩
  | phwr pr v =>
    obtain rfl := next_inj.mp h
    exact .inr (.inl (Option.some.inj hr).symm)
  | phrd pr =>
    obtain rfl := next_inj.mp h
    exact .inr (.inr ⟨_, (Option.some.inj hr).symm⟩)
  | rdfs =>
    obtain rfl := next_inj.mp h
    exact .inr (.inr ⟨_, (Option.some.inj hr).symm⟩)

theorem valid_of_exec_ok {i : Instr} {s t : State} {a : Response} (h : exec i s = .next t) (hr : t.resp = some a)
    (ha : a.st = 0) : a.Valid := by
  rcases exec_ok_response h hr ha with ⟨x, hi⟩ | rfl | ⟨x, rfl⟩
  · exact valid_encode hi h hr ha
  · exact valid_empty (by decide)
  · exact valid_ok_word x

/-! ### The invariant of the response (30_encoding.md R69, 60_exceptions.md R150, R151) -/

/-- A state with no response meets the invariant. -/
theorem responseInv_of_none {s : State} (h : s.resp = none) : s.ResponseInv :=
  ⟨fun _ => h, fun r hr => by rw [h] at hr; cases hr⟩

/-- The invariant reads only `BUSY`, the response and `FSTAT`. -/
theorem responseInv_congr {s t : State} (hb : t.busy = s.busy) (hr : t.resp = s.resp) (hf : t.fstat = s.fstat)
    (h : s.ResponseInv) : t.ResponseInv := by
  simpa only [State.ResponseInv, State.recorded, hb, hr, hf] using h

/-- A fault leaves the block idle with its own, valid, response, and its bit set. -/
theorem raise_responseInv (s : State) (c : FaultCause) : (s.raise c).ResponseInv := by
  refine ⟨by simp, fun r hr => ?_⟩
  obtain rfl : _ = r := Option.some.inj hr
  exact ⟨valid_fault c, fun d hd => (raise_recorded_iff s c d).mpr (.inr (FaultCause.code_injective hd))⟩

/-- An OK response on an idle block reports no fault. -/
theorem responseInv_of_ok {t : State} {r : Response} (hb : t.busy = false) (hr : t.resp = some r) (hst : r.st = 0)
    (hv : r.Valid) : t.ResponseInv := by
  refine ⟨by simp [hb], fun r' hr' => ?_⟩
  obtain rfl : r = r' := Option.some.inj (hr.symm.trans hr')
  exact ⟨hv, fun c hc => absurd (hc.symm.trans hst) c.code_ne_zero⟩

theorem exec_responseInv {i : Instr} {s t : State} (h : exec i s = .next t) : t.ResponseInv := by
  rcases exec_cases h with ⟨c, rfl⟩ | ⟨pr, v, r, _, rfl, hst⟩ | ⟨r, rfl, hst⟩ | ⟨_, rfl⟩
  · exact raise_responseInv s c
  · exact responseInv_of_ok rfl rfl hst (valid_of_exec_ok h rfl hst)
  · exact responseInv_of_ok rfl rfl hst (valid_of_exec_ok h rfl hst)
  · exact responseInv_of_none rfl

/-- Settles O52: a command in progress ends in a state that meets the invariant whatever it started from; the other steps and the
host's actions leave the response and its fault bit alone or clear the response. -/
theorem stepKeepsTheResponseInvariant : Obligations.StepKeepsTheResponseInvariant := by
  unfold Obligations.StepKeepsTheResponseInvariant
  intro s hs
  refine ⟨fun t h => ?_, fun c => responseInv_congr rfl rfl rfl hs, responseInv_congr rfl rfl rfl hs⟩
  rcases step_cases h with ⟨_, rfl⟩ | ⟨_, _, i, _, hexec⟩ | ⟨_, _, _, rfl⟩ | ⟨_, _, _, rfl⟩ | ⟨_, _, c, rest, _, rfl⟩
  · exact responseInv_of_none rfl
  · exact exec_responseInv hexec
  · exact raise_responseInv s _
  · exact hs
  · exact responseInv_of_none rfl

/-- Settles O53: after reset there is no response. -/
theorem responseInvariantAtReset : Obligations.ResponseInvariantAtReset := by
  unfold Obligations.ResponseInvariantAtReset
  exact responseInv_of_none rfl

/-! ### Fault bits are sticky (10_state.md R25) -/

/-- In a step without reset `FSTAT` stays as it is, or one fault is taken. -/
theorem step_fstat {s t : State} (hr : s.rst = false) (h : step s = .next t) :
    t.fstat = s.fstat ∨ ∃ c, t = s.raise c := by
  rcases step_cases h with ⟨hrst, _⟩ | ⟨_, _, i, _, hexec⟩ | ⟨_, _, _, ht⟩ | ⟨_, _, _, rfl⟩ | ⟨_, _, c, rest, _, rfl⟩
  · simp [hr] at hrst
  · rcases exec_cases hexec with hraise | ⟨_, _, _, _, rfl, _⟩ | ⟨_, rfl, _⟩ | ⟨_, rfl⟩
    exacts [.inr hraise, .inl rfl, .inl rfl, .inl rfl]
  · exact .inr ⟨_, ht⟩
  · exact .inl rfl
  · exact .inl rfl

/-- Settles O48: `FSTAT` changes without reset only by a fault, which sets its own bit and responds; a reset clears it. -/
theorem faultBitsAreSticky : Obligations.FaultBitsAreSticky := by
  unfold Obligations.FaultBitsAreSticky
  intro s t h
  refine ⟨fun hr c hc => ?sticky, fun hr c hclear hset => ?set, fun hr => ?reset⟩
  case sticky =>
    rcases step_fstat hr h with heq | ⟨d, rfl⟩
    · rwa [State.recorded, heq]
    · exact (raise_recorded_iff s d c).mpr (.inl hc)
  case set =>
    rcases step_fstat hr h with heq | ⟨d, rfl⟩
    · rw [State.recorded, heq] at hset
      exact absurd hset (Bool.eq_false_iff.mp hclear)
    · obtain rfl := ((raise_recorded_iff s d c).mp hset).resolve_left (Bool.eq_false_iff.mp hclear)
      rfl
  case reset =>
    obtain rfl := next_inj.mp ((step_reset hr).symm.trans h)
    rfl

/-! ### Only the named register changes (10_state.md R23) -/

/-- A command that changes a register is an advance command or a `PHWR`, and names that register. -/
theorem exec_phase_ne {i : Instr} {s t : State} {j : Fin 16} (h : exec i s = .next t) (hne : t.phase j ≠ s.phase j) :
    instrRegister i = some j ∧ (isAdvance i = true ∨ ∃ v, i = .phwr j v) := by
  have hreg : instrRegister i = some j := by
    rcases exec_cases h with ⟨c, rfl⟩ | ⟨pr, v, r, hpr, rfl, _⟩ | ⟨r, rfl, _⟩ | ⟨_, rfl⟩
    · exact absurd rfl hne
    · by_cases heq : pr = j
      · rw [hpr, heq]
      · exact absurd (setPhase_phase_ne s v heq) hne
    · exact absurd rfl hne
    · exact absurd rfl hne
  refine ⟨hreg, ?_⟩
  cases i with
  | advsin _ _ _ | advsqr _ _ _ | advsaw _ _ _ | advtri _ _ _ | advblsqr _ _ _ _ | advblsaw _ _ _ _
  | advbltri _ _ _ _ => exact .inl rfl
  | phwr pr v =>
    obtain rfl : pr = j := Option.some.inj hreg
    exact .inr ⟨v, rfl⟩
  | phrd pr =>
    obtain rfl := next_inj.mp h
    exact absurd rfl hne
  | enc8 _ | enc16 _ | enc32 _ | rdfs => cases hreg

/-- Settles O49: without reset only the execution of the accepted command touches a register. -/
theorem onlyTheNamedRegisterChanges : Obligations.OnlyTheNamedRegisterChanges := by
  unfold Obligations.OnlyTheNamedRegisterChanges
  intro s t j hr h hne
  rcases step_cases h with ⟨hrst, _⟩ | ⟨_, hb, i, hi, hexec⟩ | ⟨_, _, _, rfl⟩ | ⟨_, _, _, rfl⟩ | ⟨_, _, c, rest, _, rfl⟩
  · simp [hr] at hrst
  · exact ⟨hb, i, hi, exec_phase_ne hexec hne⟩
  · exact absurd rfl hne
  · exact absurd rfl hne
  · exact absurd rfl hne

/-! ### The step (00_scope.md R16, 10_state.md R27) -/

/-- Settles O6: a busy step runs the command, and a command that decodes runs its instruction. -/
theorem stepRunsTheAcceptedCommand : Obligations.StepRunsTheAcceptedCommand := by
  unfold Obligations.StepRunsTheAcceptedCommand
  intro s i hr hb hi
  rw [step_busy hr hb, runCommand_ok hi]

/-- Executing a command touches neither the commands held nor the accepted one. -/
theorem exec_held_cmd {i : Instr} {s t : State} (h : exec i s = .next t) : t.held = s.held ∧ t.cmd = s.cmd := by
  rcases exec_cases h with ⟨_, rfl⟩ | ⟨_, _, _, _, rfl, _⟩ | ⟨_, rfl, _⟩ | ⟨_, rfl⟩ <;> exact ⟨rfl, rfl⟩

/-- Settles O7: the idle cases are those of `step`; a busy step executes the command or raises IllegalCommand. -/
theorem commandsAreAcceptedOneAtATime : Obligations.CommandsAreAcceptedOneAtATime := by
  unfold Obligations.CommandsAreAcceptedOneAtATime
  intro s hr
  refine ⟨step_idle hr, fun c rest hb hh => step_accept hr hb hh, fun t hb h => ?_⟩
  rcases step_cases h with ⟨hrst, _⟩ | ⟨_, _, i, _, hexec⟩ | ⟨_, _, _, rfl⟩ | ⟨_, hidle, _⟩ | ⟨_, hidle, _⟩
  · simp [hr] at hrst
  · exact exec_held_cmd hexec
  · exact ⟨rfl, rfl⟩
  · simp [hb] at hidle
  · simp [hb] at hidle

/-- A command makes an update of the state, whatever the state: `exec` never stops. -/
theorem exec_answers (i : Instr) (s : State) : ∃ t, exec i s = .next t := by
  obtain ⟨u, _, h, _⟩ := exec_sameUpdate (i := i) (s := s) (s' := s) (fun _ _ => rfl) (fun _ => rfl)
  exact ⟨u s, h⟩

/-- Settles O8: reset, idling and acceptance answer a state, and so does every command, legal or not. -/
theorem everyStepAnswersANextState : Obligations.EveryStepAnswersANextState := by
  unfold Obligations.EveryStepAnswersANextState
  intro s
  cases hr : s.rst with
  | true => exact ⟨_, step_reset hr⟩
  | false =>
    cases hb : s.busy with
    | true =>
      rw [step_busy hr hb]
      cases hd : decode s.cmd with
      | ok i => rw [runCommand_ok hd]; exact exec_answers i s
      | error e => exact ⟨_, runCommand_error hd⟩
    | false =>
      cases hh : s.held with
      | nil => exact ⟨_, step_idle hr hb hh⟩
      | cons c rest => exact ⟨_, step_accept hr hb hh⟩

/-- Settles O51: a step with reset asserted takes the reset state, field by field. -/
theorem resetTakesTheResetState : Obligations.ResetTakesTheResetState := by
  unfold Obligations.ResetTakesTheResetState
  exact ⟨fun s => ⟨_, step_reset rfl, rfl, rfl, rfl, rfl, rfl⟩, rfl, rfl⟩

/-! ### A hung block (60_exceptions.md R158) -/

/-- A run takes the step first. -/
theorem core_run_succ {s t : State} (h : step s = .next t) (n : Nat) :
    Sys2Proof.core.run (n + 1) s = Sys2Proof.core.run n t := by
  have hcore : Sys2Proof.core.step s = .next t := h
  simp only [Host.Core.run, hcore]

/-- A state that a step leaves as it is stays for every number of steps. -/
theorem run_of_step_self {s : State} (h : step s = .next s) (n : Nat) : Sys2Proof.core.run n s = .next s := by
  induction n with
  | zero => rfl
  | succ n ih => exact (core_run_succ h n).trans ih

/-- An update that leaves one busy state without response as it is is the hang, and so leaves every such state as it is. -/
theorem CommandUpdate.hang_of_fixed {reg : Option (Fin 16)} {u : State → State} (hu : CommandUpdate reg u) {s : State}
    (hb : s.busy = true) (h : u s = s) : u = State.hang := by
  have hbusy : (u s).busy = true := by rw [h, hb]
  cases hu with
  | raise _ | write _ _ _ _ | respond _ => cases hbusy
  | hang => rfl

theorem hang_eq_self {s : State} (hb : s.busy = true) (hresp : s.resp = none) : s.hang = s := by
  obtain ⟨p, fstat, busy, cmd, held, rst, resp, resets⟩ := s
  cases hb; cases hresp; rfl

/-- Settles O30: the step of a hung block is a step to itself; with a command held behind it the execution makes the same update (O50),
which is the hang again; a reset is taken before the command. -/
theorem hungBlockStaysHung : Obligations.HungBlockStaysHung := by
  unfold Obligations.HungBlockStaysHung
  intro s i hr hb hresp hi hexec
  have hself : exec i s = .next s := hexec.trans (congrArg _ (hang_eq_self hb hresp))
  have hstep : step s = .next s := by rw [step_busy hr hb, runCommand_ok hi, hself]
  refine ⟨run_of_step_self hstep, fun c => run_of_step_self ?_, _, step_reset rfl, rfl⟩
  obtain ⟨u, hu, hus, hus'⟩ := exec_sameUpdate (i := i) (s := s) (s' := s.present c) (fun _ _ => rfl) (fun _ => rfl)
  have hfix : u s = s := next_inj.mp (hus.symm.trans hself)
  rw [step_busy (s := s.present c) hr hb, runCommand_ok (s := s.present c) hi, hus', hu.hang_of_fixed hb hfix, hang_eq_self (s := s.present c) hb hresp]

/-! ### Reads and encodes (20_memory.md R44) -/

/-- Settles O41: a read or an encode that responds OK only responds, and its response depends on nothing it changes. -/
theorem readsAndEncodesHaveNoSideEffect : Obligations.ReadsAndEncodesHaveNoSideEffect := by
  unfold Obligations.ReadsAndEncodesHaveNoSideEffect
  refine ⟨fun i s t a hadv hphwr h hr ha => ?_, fun pr v s t h => ?_⟩
  · cases i with
    | advsin _ _ _ | advsqr _ _ _ | advsaw _ _ _ | advtri _ _ _ | advblsqr _ _ _ _ | advblsaw _ _ _ _
    | advbltri _ _ _ _ => cases hadv
    | phwr pr v => exact absurd rfl (hphwr pr v)
    | phrd pr =>
      obtain rfl := next_inj.mp h
      obtain rfl := Option.some.inj hr
      exact ⟨rfl, rfl⟩
    | rdfs =>
      obtain rfl := next_inj.mp h
      obtain rfl := Option.some.inj hr
      exact ⟨rfl, rfl⟩
    | enc8 x | enc16 x | enc32 x =>
      simp only [exec_enc8, exec_enc16, exec_enc32] at h ⊢
      rcases encodeSample_cases h with ⟨_, rfl⟩ | ⟨hnum, rfl⟩
      · exact absurd ha (not_ok_of_raise hr)
      · obtain rfl := Option.some.inj hr
        exact ⟨rfl, encodeSample_ok hnum⟩
  · obtain rfl := next_inj.mp h
    rw [exec_phwr, next_inj]
    simp [State.setPhase, State.respond]

/-! ### Outside the domain (60_exceptions.md R152) -/

/-- Settles O43: outside the domain every advance command raises OperandFault. -/
theorem operandFaultOutsideTheDomain : Obligations.OperandFaultOutsideTheDomain := by
  unfold Obligations.OperandFaultOutsideTheDomain
  intro pr hc f r s hout i hi
  have hd : domainOK f r (s.phase pr) = false := Bool.eq_false_iff.mpr fun hd => hout (domainOK_iff.mp hd)
  rw [← raise_operandFault]
  exact exec_outside_domain hi hd

/-! ### The sine (00_scope.md R12) -/

/-- Settles O57: S1 is the interval of `within_sin32`; S2 are the first two cases of the definition. -/
theorem sineHasS1AndS2 : Obligations.SineHasS1AndS2 := by
  unfold Obligations.SineHasS1AndS2
  refine ⟨fun x hx => ?_, rfl, rfl⟩
  have h := within_sin32 hx
  exact ⟨h.finite, h.lo_le, h.le_hi⟩

end Sys2Proof.Machine
end

section
/-! PROOFS. The bounded loop is the unbounded one (40_nco_sine_naive.md R82; log 6), and with it what the advance commands do where the
loop ends and where it does not (R80, R84 to R88, R107 to R110; 60_exceptions.md R158). The idea for the bound: from a phase that
returns in `n` passes the loop visits phases that return in `n - 1`, ..., 1 passes, all different, and there are 2^32 phases. -/

namespace Sys2Proof.Machine

/-! ### Passes of the loop -/

/-- The loop of period `m` returns from the phase in exactly `n` passes, the returning one counted. -/
inductive ReturnsIn (m : Word) : Nat → Word → Prop where
  | done {p : Word} : wrapPass m p = .done → ReturnsIn m 1 p
  | again {p q : Word} {n : Nat} : wrapPass m p = .again q → ReturnsIn m n q → ReturnsIn m (n + 1) p

/-- A phase returns in one number of passes only. -/
theorem ReturnsIn.unique {m p : Word} {n k : Nat} (hn : ReturnsIn m n p) (hk : ReturnsIn m k p) : n = k := by
  induction hn generalizing k with
  | done hw =>
    cases hk with
    | done _ => rfl
    | again hw' _ => simp [hw] at hw'
  | again hw _ ih =>
    cases hk with
    | done hw' => simp [hw] at hw'
    | again hw' hk' =>
      obtain rfl := WrapPass.again.inj (hw.symm.trans hw')
      rw [ih hk']

/-- On the way the loop meets a phase for every smaller number of passes. -/
theorem ReturnsIn.exists_of_le {m p : Word} {n k : Nat} (hn : ReturnsIn m n p) (hpos : 1 ≤ k) (hle : k ≤ n) :
    ∃ q, ReturnsIn m k q := by
  induction hn with
  | done hw =>
    obtain rfl : k = 1 := Nat.le_antisymm hle hpos
    exact ⟨_, .done hw⟩
  | @again p q n hw hret ih =>
    rcases Nat.lt_or_eq_of_le hle with hlt | rfl
    · exact ih (Nat.le_of_lt_succ hlt)
    · exact ⟨p, .again hw hret⟩

/-- A loop that returns does so in at most 2^32 passes: the phases it meets are different words. -/
theorem ReturnsIn.le_numWords {m p : Word} {n : Nat} (hn : ReturnsIn m n p) : n ≤ 4294967296 := by
  have hmeet (i : Fin n) : ∃ q, ReturnsIn m (i + 1) q := hn.exists_of_le (Nat.le_add_left ..) i.isLt
  choose phase hphase using hmeet
  have hinj : Function.Injective fun i => (phase i).toFin := fun i j hij => by
    have heq : phase i = phase j := BitVec.toFin_inj.mp hij
    have := (hphase i).unique (heq ▸ hphase j)
    exact Fin.ext (Nat.succ_injective this)
  simpa using Fintype.card_le_of_injective _ hinj

/-! ### `wrap` and the loop (40_nco_sine_naive.md R82, R85) -/

/-- The loop of the spec takes the passes of `wrapPass`. -/
theorem wrapsTo_iff_of_again {m p p' q : Word} (h : wrapPass m p = .again p') : WrapsTo m p q ↔ WrapsTo m p' q := by
  rcases wrapPass_cases m p with ⟨hlo, hw⟩ | ⟨hlo, hhi, hw⟩ | ⟨_, _, hw⟩
  · obtain rfl := WrapPass.again.inj (hw.symm.trans h)
    refine ⟨fun hq => ?_, .add p q hlo⟩
    cases hq with
    | done _ hlo' _ => simp [hlo] at hlo'
    | add _ _ _ hq => exact hq
    | sub _ _ hlo' _ _ => simp [hlo] at hlo'
  · obtain rfl := WrapPass.again.inj (hw.symm.trans h)
    refine ⟨fun hq => ?_, .sub p q hlo hhi⟩
    cases hq with
    | done _ _ hhi' => simp [hhi] at hhi'
    | add _ _ hlo' _ => simp [hlo] at hlo'
    | sub _ _ _ _ hq => exact hq
  · simp [hw] at h

theorem wrapsTo_self_of_done {m p : Word} (h : wrapPass m p = .done) : WrapsTo m p p := by
  rcases wrapPass_cases m p with ⟨_, hw⟩ | ⟨_, _, hw⟩ | ⟨hlo, hhi, _⟩
  · simp [hw] at h
  · simp [hw] at h
  · exact .done p hlo hhi

theorem wrapLoop_of_done {m p : Word} (h : wrapPass m p = .done) (n : Nat) : wrapLoop m (n + 1) p = some p := by
  rw [wrapLoop_succ, h]

theorem wrapLoop_of_again {m p q : Word} (h : wrapPass m p = .again q) (hne : q ≠ p) (n : Nat) :
    wrapLoop m (n + 1) p = wrapLoop m n q := by
  simp [wrapLoop_succ, h, hne]

theorem wrapsTo_of_wrapLoop {m p q : Word} {n : Nat} (h : wrapLoop m n p = some q) : WrapsTo m p q := by
  induction n generalizing p with
  | zero => cases h
  | succ n ih =>
    cases hw : wrapPass m p with
    | done =>
      rw [wrapLoop_of_done hw] at h
      exact Option.some.inj h ▸ wrapsTo_self_of_done hw
    | again p' =>
      have hne : p' ≠ p := by
        rintro rfl
        simp [wrapLoop_succ, hw] at h
      rw [wrapLoop_of_again hw hne] at h
      exact (wrapsTo_iff_of_again hw).mpr (ih h)

/-- The loop returns `q` in some number of passes, and with any fuel from there on. -/
def LoopReturns (m p q : Word) : Prop :=
  ∃ n, ReturnsIn m n p ∧ ∀ fuel, n ≤ fuel → wrapLoop m fuel p = some q

theorem loopReturns_of_done {m p : Word} (h : wrapPass m p = .done) : LoopReturns m p p := by
  refine ⟨1, .done h, fun fuel hle => ?_⟩
  obtain ⟨fuel, rfl⟩ := Nat.exists_eq_add_of_le' hle
  exact wrapLoop_of_done h fuel

theorem LoopReturns.of_again {m p p' q : Word} (hw : wrapPass m p = .again p') (hq : WrapsTo m p' q)
    (ih : LoopReturns m p' q) : LoopReturns m p q := by
  obtain ⟨n, hret, hfuel⟩ := ih
  have hne : p' ≠ p := by
    rintro rfl
    exact not_wrapsTo_of_absorbed hw q hq
  refine ⟨n + 1, .again hw hret, fun fuel hle => ?_⟩
  obtain ⟨fuel, rfl⟩ := Nat.exists_eq_add_of_le' (Nat.le_of_add_left_le hle)
  rw [wrapLoop_of_again hw hne]
  exact hfuel _ (Nat.le_of_succ_le_succ hle)

theorem WrapsTo.loopReturns {m p q : Word} (h : WrapsTo m p q) : LoopReturns m p q := by
  induction h with
  | done p hlo hhi => exact loopReturns_of_done (by simp [wrapPass, hlo, hhi])
  | add p q hlo hq ih => exact ih.of_again (by simp [wrapPass, hlo]) hq
  | sub p q hlo hhi hq ih => exact ih.of_again (by simp [wrapPass, hlo, hhi]) hq

/-- `wrap` returns exactly what the loop returns (log 6). -/
theorem wrap_eq_some_iff {m p q : Word} : wrap p m = some q ↔ WrapsTo m p q := by
  refine ⟨wrapsTo_of_wrapLoop, fun h => ?_⟩
  obtain ⟨n, hret, hfuel⟩ := h.loopReturns
  exact hfuel _ hret.le_numWords

/-- `wrap` returns nothing exactly where the loop never ends. -/
theorem wrap_eq_none_iff {m p : Word} : wrap p m = none ↔ ∀ q, ¬ WrapsTo m p q := by
  simp only [Option.eq_none_iff_forall_ne_some, ne_eq, wrap_eq_some_iff]

theorem wrap_of_absorbed {m p : Word} (h : wrapPass m p = .again p) : wrap p m = none :=
  wrap_eq_none_iff.mpr (not_wrapsTo_of_absorbed h)

theorem wrap_of_done {m p : Word} (h : wrapPass m p = .done) : wrap p m = some p :=
  wrap_eq_some_iff.mpr (wrapsTo_self_of_done h)

/-- A NaN violates neither bound (00_scope.md R9). -/
theorem wrapPass_nan {p : Word} (m : Word) (h : isNaN32 p = true) : wrapPass m p = .done := by
  have hlo : flt32 p fZero = false := Bool.eq_false_iff.mpr fun hlt => by simp [flt32_iff, h] at hlt
  have hhi : fle32 m p = false := Bool.eq_false_iff.mpr fun hle => by simp [fle32_iff, h] at hle
  simp [wrapPass, hlo, hhi]

/-- Settles O23: `wrap` is the loop, by the bound on the passes; of the corner cases -0 and a NaN return at once, the period steps to
+0, and an infinity is absorbed. -/
theorem wrapIsTheLoop : Obligations.WrapIsTheLoop := by
  unfold Obligations.WrapIsTheLoop
  refine ⟨fun m p q => wrap_eq_some_iff, fun m hm => ?_⟩
  have hstep : wrapPass m m = .again 0x00000000 := by rcases hm with rfl | rfl <;> decide
  have hzero : wrapPass m 0x00000000 = .done := by rcases hm with rfl | rfl <;> decide
  refine ⟨wrap_of_done ?_, ?_, fun p hp => wrap_of_done (wrapPass_nan m hp), wrap_of_absorbed ?_, wrap_of_absorbed ?_⟩
  · rcases hm with rfl | rfl <;> decide
  · exact wrap_eq_some_iff.mpr ((wrapsTo_iff_of_again hstep).mpr (wrapsTo_self_of_done hzero))
  · rcases hm with rfl | rfl <;> decide
  · rcases hm with rfl | rfl <;> decide

/-! ### The advance commands where the loop ends (40_nco_sine_naive.md R80, R83) -/

/-- The commit, field by field (40_nco_sine_naive.md R80 step 7). -/
theorem commit_eq (s : State) (pr : Fin 16) (p1 x : Word) :
    s.commit pr p1 x = { s with p := s.p.set pr p1, busy := false, resp := some ⟨0, 4, x⟩ } := rfl

theorem advance_of_wrapsTo {pr : Fin 16} {f r inc m p1 : Word} {sample : Word → Word} {s : State}
    (hd : domainOK f r (s.phase pr) = true) (hw : WrapsTo m (fadd32 (s.phase pr) inc) p1) :
    advance pr f r inc m sample s = .next (s.commit pr p1 (sample p1)) := by
  rw [advance_ok hd, finishAdvance_some (wrap_eq_some_iff.mpr hw)]

theorem advanceBandlimited_of_wrapsTo {pr : Fin 16} {f r p1 : Word} {h : Nat} {sample : Nat → Word → Word} {s : State}
    (hd : domainOK f r (s.phase pr) = true) (hw : WrapsTo twoPi (fadd32 (s.phase pr) (radianInc f r)) p1) :
    advanceBandlimited pr f r (some h) sample s = .next (s.commit pr p1 (sample h p1)) := by
  rw [advanceBandlimited_ok hd, finishAdvance_some (wrap_eq_some_iff.mpr hw)]

/-- Settles O10: `ADVSIN` is the shared operation with the radian increment and the sine, and in the domain it commits what the loop returns. -/
theorem advsinResult : Obligations.AdvsinResult := by
  unfold Obligations.AdvsinResult
  intro pr f r s p1 hf hr hpos hp hw
  exact advance_of_wrapsTo (domainOK_iff.mpr ⟨hf, hr, hpos, hp⟩) hw

/-- Settles O11: `ADVSQR` is the shared operation with the unit increment and the square, and in the domain it commits what the loop returns. -/
theorem advsqrResult : Obligations.AdvsqrResult := by
  unfold Obligations.AdvsqrResult
  intro pr f r s p1 hf hr hpos hp hw
  exact advance_of_wrapsTo (domainOK_iff.mpr ⟨hf, hr, hpos, hp⟩) hw

/-- Settles O12: `ADVSAW` is the shared operation with the unit increment and the saw, and in the domain it commits what the loop returns. -/
theorem advsawResult : Obligations.AdvsawResult := by
  unfold Obligations.AdvsawResult
  intro pr f r s p1 hf hr hpos hp hw
  exact advance_of_wrapsTo (domainOK_iff.mpr ⟨hf, hr, hpos, hp⟩) hw

/-- Settles O13: `ADVTRI` is the shared operation with the unit increment and the triangle, and in the domain it commits what the loop returns. -/
theorem advtriResult : Obligations.AdvtriResult := by
  unfold Obligations.AdvtriResult
  intro pr f r s p1 hf hr hpos hp hw
  exact advance_of_wrapsTo (domainOK_iff.mpr ⟨hf, hr, hpos, hp⟩) hw

/-! ### The band-limited commands where the loop ends (41_bandlimited.md R107 to R110) -/

/-- The count of R101, explicit or found. -/
theorem harmonicCount_eq_some {hc h : Nat} {auto : Option Nat} (hcount : hc ≠ 0 ∧ h = hc ∨ hc = 0 ∧ auto = some h) :
    harmonicCount hc auto = some h := by
  rcases hcount with ⟨hne, rfl⟩ | ⟨rfl, hauto⟩
  · exact harmonicCount_explicit auto hne
  · rw [harmonicCount_auto, hauto]

/-- The `i + 1`-th odd harmonic is `2 i + 1`. -/
theorem oddHarmonic_succ (i : Nat) : oddHarmonic (i + 1) = i2f32 (2 * (i : Int) + 1) := by
  have : 2 * ((i + 1 : Nat) : Int) - 1 = 2 * i + 1 := by push_cast; ring
  rw [oddHarmonic, this]

/-- Settles O16: the accumulator of the statement is the one of `harmonicSum`. -/
theorem advblsawResult : Obligations.AdvblsawResult := by
  unfold Obligations.AdvblsawResult
  intro pr hc f r s h p1 acc hf hr hpos hp hcount hw h0 hacc
  have hsum : harmonicSum (fun i acc => fadd32 acc (sawTerm p1 i)) h = acc h :=
    harmonicSum_unique h0 (fun i => by rw [hacc, sawTerm, Nat.cast_succ]) h
  rw [exec_advblsaw, harmonicCount_eq_some hcount,
    advanceBandlimited_of_wrapsTo (domainOK_iff.mpr ⟨hf, hr, hpos, hp⟩) hw, blSawSample, hsum]
  rfl

/-- Settles O17: the accumulator of the statement is the one of `harmonicSum`. -/
theorem advblsqrResult : Obligations.AdvblsqrResult := by
  unfold Obligations.AdvblsqrResult
  intro pr hc f r s h p1 acc hf hr hpos hp hcount hw h0 hacc
  have hsum : harmonicSum (fun i acc => fadd32 acc (squareTerm p1 i)) h = acc h :=
    harmonicSum_unique h0 (fun i => by rw [hacc, squareTerm, oddHarmonic_succ]) h
  rw [exec_advblsqr, harmonicCount_eq_some hcount,
    advanceBandlimited_of_wrapsTo (domainOK_iff.mpr ⟨hf, hr, hpos, hp⟩) hw, blSquareSample, hsum]
  rfl

/-- Settles O18: the accumulator of the statement is the one of `harmonicSum`, whichever sign comes first. -/
theorem advbltriResult : Obligations.AdvbltriResult := by
  unfold Obligations.AdvbltriResult
  intro pr hc f r s h p1 acc hf hr hpos hp hcount hw h0 hacc
  have hsum : harmonicSum (fun i acc =>
      if triangleTermPositive i then fadd32 acc (triangleTerm p1 i) else fsub32 acc (triangleTerm p1 i)) h = acc h :=
    harmonicSum_unique h0 (fun i => by simp only [hacc, triangleTerm, oddHarmonic_succ, triangleTermPositive, beq_iff_eq]) h
  rw [exec_advbltri, harmonicCount_eq_some hcount,
    advanceBandlimited_of_wrapsTo (domainOK_iff.mpr ⟨hf, hr, hpos, hp⟩) hw, blTriangleSample, hsum]
  rfl

/-! ### The hang (40_nco_sine_naive.md R85; 60_exceptions.md R158) -/

theorem advance_hang {pr : Fin 16} {f r inc m : Word} {sample : Word → Word} {s : State}
    (hd : domainOK f r (s.phase pr) = true) (hw : wrap (fadd32 (s.phase pr) inc) m = none) :
    advance pr f r inc m sample s = .next s.hang := by
  rw [advance_ok hd, finishAdvance_none hw]

/-- With a count a band-limited command hangs where its loop never ends. -/
theorem advanceBandlimited_hang {pr : Fin 16} {f r : Word} {hc : Nat} {auto : Option Nat} {sample : Nat → Word → Word}
    {s : State} (hd : domainOK f r (s.phase pr) = true) (hcount : hc ≠ 0 ∨ auto ≠ none)
    (hw : wrap (fadd32 (s.phase pr) (radianInc f r)) twoPi = none) :
    advanceBandlimited pr f r (harmonicCount hc auto) sample s = .next s.hang := by
  obtain ⟨h, hh⟩ := Option.ne_none_iff_exists'.mp (harmonicCount_ne_none hcount)
  rw [hh, advanceBandlimited_ok hd, finishAdvance_none hw]

/-- The three commands of the unit family on the same operands hang together. -/
theorem exec_unit_hang {pr : Fin 16} {f r : Word} {s : State} (hd : domainOK f r (s.phase pr) = true)
    (hw : wrap (fadd32 (s.phase pr) (unitInc f r)) fOne = none) :
    exec (.advsqr pr f r) s = .next s.hang ∧ exec (.advsaw pr f r) s = .next s.hang ∧
    exec (.advtri pr f r) s = .next s.hang :=
  ⟨advance_hang hd hw, advance_hang hd hw, advance_hang hd hw⟩

/-- The four commands of the radian family hang together, the band-limited ones where they have a count. -/
theorem exec_radian_hang {pr : Fin 16} (hc : Nat) {f r : Word} {s : State} (hd : domainOK f r (s.phase pr) = true)
    (hw : wrap (fadd32 (s.phase pr) (radianInc f r)) twoPi = none) :
    exec (.advsin pr f r) s = .next s.hang ∧
    (hc ≠ 0 ∨ autohSaw f r ≠ none → exec (.advblsaw pr hc f r) s = .next s.hang) ∧
    (hc ≠ 0 ∨ autohOdd f r ≠ none →
      exec (.advblsqr pr hc f r) s = .next s.hang ∧ exec (.advbltri pr hc f r) s = .next s.hang) :=
  ⟨advance_hang hd hw, fun h => advanceBandlimited_hang hd h hw,
    fun h => ⟨advanceBandlimited_hang hd h hw, advanceBandlimited_hang hd h hw⟩⟩

/-- Settles O29: where the loop never ends `wrap` returns nothing, and every command of its family hangs. -/
theorem advanceHangsWhenTheLoopNeverEnds : Obligations.AdvanceHangsWhenTheLoopNeverEnds := by
  unfold Obligations.AdvanceHangsWhenTheLoopNeverEnds
  intro pr hc f r s hf hr hpos hp
  have hd : domainOK f r (s.phase pr) = true := domainOK_iff.mpr ⟨hf, hr, hpos, hp⟩
  exact ⟨fun hw => exec_unit_hang hd (wrap_eq_none_iff.mpr hw),
    fun hw => exec_radian_hang hc hd (wrap_eq_none_iff.mpr hw)⟩

/-! ### An infinite increment (40_nco_sine_naive.md R81) -/

/-- The infinities are two words. -/
theorem infinite_eq {a : Word} (hnum : isNaN32 a = false) (hfin : isFinite32 a = false) :
    a = 0x7F800000 ∨ a = 0xFF800000 := by
  have hmag : (unpack32 a).mag = infMag binary32 := by
    simp only [isNaN32, isNaNBits, isFinite32, isFiniteBits, decide_eq_false_iff_not, not_lt] at hnum hfin
    exact Nat.le_antisymm hnum hfin
  have hbits : unpack32 a = ⟨(unpack32 a).neg, infMag binary32⟩ := by rw [← hmag]
  cases hneg : (unpack32 a).neg with
  | false => exact .inl (unpack32_injective (hbits.trans (by rw [hneg]; decide)))
  | true => exact .inr (unpack32_injective (hbits.trans (by rw [hneg]; decide)))

/-- A finite word and an infinity add up to the infinity (00_scope.md R8). -/
theorem fadd32_infinite {a b : Word} (ha : isFinite32 a = true) (hnum : isNaN32 b = false) (hb : isFinite32 b = false) :
    fadd32 a b = b := by
  have hNa := not_isNaN32_of_isFinite32 ha
  have hinf : isInfBits binary32 (unpack32 b) = true := by
    rcases infinite_eq hnum hb with rfl | rfl <;> decide
  rw [isNaN32_eq] at hNa hnum
  refine unpack32_injective ?_
  simp [unpack32_fadd32, addBits, hNa, hnum, isInfBits_of_isFinite32 ha, hinf]

/-- From an infinite sum the loop of either period never ends. -/
theorem wrap_of_infinite_inc {m p0 inc : Word} (hm : m = twoPi ∨ m = fOne) (hp : isFinite32 p0 = true)
    (hnum : isNaN32 inc = false) (hinc : isFinite32 inc = false) : wrap (fadd32 p0 inc) m = none := by
  obtain ⟨_, hcorner⟩ := wrapIsTheLoop
  obtain ⟨_, _, _, hpos, hneg⟩ := hcorner m hm
  rw [fadd32_infinite hp hnum hinc]
  rcases infinite_eq hnum hinc with rfl | rfl
  · exact hpos
  · exact hneg

/-- Settles O28: the increments are no NaN in the domain; an infinite one makes the sum infinite, from which the loop never ends. -/
theorem incrementIsNoNaNAndInfinityHangs : Obligations.IncrementIsNoNaNAndInfinityHangs := by
  unfold Obligations.IncrementIsNoNaNAndInfinityHangs
  intro pr hc f r s hf hr hpos hp
  have hd : domainOK f r (s.phase pr) = true := domainOK_iff.mpr ⟨hf, hr, hpos, hp⟩
  have hradian := isNaN32_radianInc hd
  have hunit := isNaN32_unitInc hd
  exact ⟨hradian, hunit,
    fun hinf => exec_radian_hang hc hd (wrap_of_infinite_inc (.inl rfl) hp hradian hinf),
    fun hinf => exec_unit_hang hd (wrap_of_infinite_inc (.inr rfl) hp hunit hinf)⟩

end Sys2Proof.Machine
end

section
/-! PROOFS. Rounding to the nearest magnitude (00_scope.md R8). Next to a magnitude the values lie one gap apart; the rounded integer of
`roundNearestEven` is within half a unit of its shift, and that is within half the gap on either side. From the two half-gaps follow
the nearest value, the even one at a tie, and where the result overflows; and what is representable is converted exactly (R10, R11). -/

namespace Sys2Proof.Machine

/-! ### The gap above a magnitude -/

/-- The distance from a magnitude's value to the next one's: the unit of its exponent. -/
def magGap (F : FloatFormat) (k : Nat) : Nat := 2 ^ (k / 2 ^ F.fracBits - 1)

theorem magGap_pos (F : FloatFormat) (k : Nat) : 0 < magGap F k := Nat.two_pow_pos _

theorem magGap_mono (F : FloatFormat) {j k : Nat} (h : j ≤ k) : magGap F j ≤ magGap F k :=
  Nat.pow_le_pow_right (by decide) (Nat.sub_le_sub_right (Nat.div_le_div_right h) 1)

/-- The gap above a shift and a significand is the unit of the shift. -/
theorem magGap_add (F : FloatFormat) {e m : Nat} (hm : m < 2 ^ (F.fracBits + 1)) (h : e = 0 ∨ 2 ^ F.fracBits ≤ m) :
    magGap F (e * 2 ^ F.fracBits + m) = 2 ^ e := by
  have hp : 0 < 2 ^ F.fracBits := Nat.two_pow_pos _
  rw [Nat.pow_succ, Nat.mul_comm] at hm
  have hdiv : (e * 2 ^ F.fracBits + m) / 2 ^ F.fracBits = e + m / 2 ^ F.fracBits := by
    rw [Nat.add_comm, Nat.add_mul_div_right _ _ hp, Nat.add_comm]
  have hle : m / 2 ^ F.fracBits < 2 := (Nat.div_lt_iff_lt_mul hp).mpr hm
  rw [magGap, hdiv]
  congr 1
  rcases h with rfl | h
  · omega
  · have : 1 ≤ m / 2 ^ F.fracBits := (Nat.le_div_iff_mul_le hp).mpr (by omega)
    omega

theorem magValue_succ (F : FloatFormat) (k : Nat) : magValue F (k + 1) = magValue F k + magGap F k := by
  obtain ⟨e, m, rfl, hm, h⟩ := mag_split F k
  rw [magGap_add F hm h, magValue_add F e m hm.le h, Nat.add_assoc,
    magValue_add F e (m + 1) hm (h.imp id Nat.le_succ_of_le)]
  ring

/-! ### The rounded magnitude before the infinity cuts it off -/

/-- `roundMag` without the overflow. -/
def unboundedMag (F : FloatFormat) (num den : Nat) : Nat :=
  roundShift F num den * 2 ^ F.fracBits + roundNearestEven num (den * 2 ^ roundShift F num den)

theorem roundMag_eq_min (F : FloatFormat) (num den : Nat) : roundMag F num den = min (unboundedMag F num den) (infMag F) :=
  rfl

/-- Of two integers the one on the side of the midpoint where `n` lies is nearer to `n`, and equally near only at the midpoint. -/
theorem nearer_of_midpoint {a b n : Int} (h : a < b ∧ a + b ≤ 2 * n ∨ b < a ∧ 2 * n ≤ a + b) :
    |b - n| ≤ |a - n| ∧ (|b - n| = |a - n| → 2 * n = a + b) := by
  rcases abs_cases (b - n) with hb | hb <;> rcases abs_cases (a - n) with ha | ha <;> omega

section
variable (F : FloatFormat) {num den : Nat} (hd : 0 < den)
include hd

theorem magValue_unboundedMag :
    magValue F (unboundedMag F num den) =
      roundNearestEven num (den * 2 ^ roundShift F num den) * 2 ^ roundShift F num den := by
  obtain ⟨hle, hlead⟩ := roundShift_spec F num den hd
  exact magValue_add F _ _ hle hlead

/-- The rounded significand is within half a unit of the shift, and even at a tie. -/
theorem unboundedMag_spec :
    2 * num ≤ (2 * magValue F (unboundedMag F num den) + 2 ^ roundShift F num den) * den ∧
    2 * magValue F (unboundedMag F num den) * den ≤ 2 * num + 2 ^ roundShift F num den * den ∧
    (2 * num = (2 * magValue F (unboundedMag F num den) + 2 ^ roundShift F num den) * den ∨
      2 * magValue F (unboundedMag F num den) * den = 2 * num + 2 ^ roundShift F num den * den →
      roundNearestEven num (den * 2 ^ roundShift F num den) % 2 = 0) := by
  have hds : 0 < den * 2 ^ roundShift F num den := Nat.mul_pos hd (Nat.two_pow_pos _)
  obtain ⟨hup, hlo, hupEven, hloEven⟩ := roundNearestEven_spec num _ hds
  rw [magValue_unboundedMag F hd]
  generalize roundNearestEven num (den * 2 ^ roundShift F num den) = q at *
  generalize 2 ^ roundShift F num den = u at *
  have e1 : (2 * (q * u) + u) * den = (2 * q + 1) * (den * u) := by ring
  have e2 : 2 * (q * u) * den = 2 * q * (den * u) := by ring
  have e3 : u * den = den * u := Nat.mul_comm ..
  rw [e1, e2, e3]
  exact ⟨hup, hlo, Or.rec hupEven hloEven⟩

/-- The unit of the shift is at most the gap above the rounded magnitude. -/
theorem unit_le_magGap : 2 ^ roundShift F num den ≤ magGap F (unboundedMag F num den) := by
  have hp : 0 < 2 ^ F.fracBits := Nat.two_pow_pos _
  obtain ⟨_, hlead⟩ := roundShift_spec F num den hd
  refine Nat.pow_le_pow_right (by decide) ?_
  rcases hlead with h0 | hlead
  · omega
  · have : roundShift F num den + 1 ≤ unboundedMag F num den / 2 ^ F.fracBits := by
      rw [Nat.le_div_iff_mul_le hp, Nat.add_mul, Nat.one_mul]
      exact Nat.add_le_add_left hlead _
    omega

/-- Above the subnormals the quotient has its leading bit within the precision at the shift. -/
theorem lead_le_of_roundShift_pos (hs : 0 < roundShift F num den) :
    2 ^ F.fracBits * 2 ^ roundShift F num den * den ≤ num := by
  have hne : num / den ≠ 0 := fun h0 => by simp [roundShift, h0] at hs
  have hlog : F.fracBits + roundShift F num den = Nat.log2 (num / den) := by unfold roundShift at hs ⊢; omega
  rw [← Nat.pow_add, hlog]
  exact (Nat.le_div_iff_mul_le hd).mp (Nat.log2_self_le hne)

/-- Below the rounded magnitude the gap is the unit of the shift, except under a power of two, where nothing is rounded up. -/
theorem magGap_pred_cases {k : Nat} (hk : unboundedMag F num den = k + 1) :
    magGap F k = 2 ^ roundShift F num den ∨ magValue F (unboundedMag F num den) * den ≤ num := by
  obtain ⟨hle, hlead⟩ := roundShift_spec F num den hd
  have hval := magValue_unboundedMag F (num := num) hd
  have hunb : unboundedMag F num den = roundShift F num den * 2 ^ F.fracBits +
    roundNearestEven num (den * 2 ^ roundShift F num den) := rfl
  have hlead' := lead_le_of_roundShift_pos F (num := num) hd
  generalize roundNearestEven num (den * 2 ^ roundShift F num den) = q at *
  by_cases hs : roundShift F num den = 0
  · left
    have hkq : k = 0 * 2 ^ F.fracBits + k := by omega
    have hlt : k < 2 ^ (F.fracBits + 1) := by rw [hs] at hunb; omega
    rw [hkq, magGap_add F hlt (.inl rfl), hs]
  · have hlead := hlead.resolve_left hs
    rcases Nat.eq_or_lt_of_le hlead with heq | hlt
    · right
      rw [hval, ← heq]
      exact hlead' (Nat.pos_of_ne_zero hs)
    · left
      have hkq : k = roundShift F num den * 2 ^ F.fracBits + (q - 1) := by omega
      rw [hkq, magGap_add F (by omega) (.inr (by omega))]

/-- The exact quotient is at most half-way to the next magnitude, and the rounded one is even where it is half-way. -/
theorem unboundedMag_upper (hfrac : 1 ≤ F.fracBits) :
    2 * num ≤ (magValue F (unboundedMag F num den) + magValue F (unboundedMag F num den + 1)) * den ∧
    (2 * num = (magValue F (unboundedMag F num den) + magValue F (unboundedMag F num den + 1)) * den →
      unboundedMag F num den % 2 = 0) := by
  obtain ⟨hup, -, heven⟩ := unboundedMag_spec F (num := num) hd
  have hgap := Nat.mul_le_mul_right den (unit_le_magGap F (num := num) hd)
  have hmid : (magValue F (unboundedMag F num den) + magValue F (unboundedMag F num den + 1)) * den =
      2 * magValue F (unboundedMag F num den) * den + magGap F (unboundedMag F num den) * den := by
    rw [magValue_succ]; ring
  rw [Nat.add_mul] at hup heven
  rw [hmid]
  refine ⟨by omega, fun htie => ?_⟩
  have hq := heven (.inl (by omega))
  obtain ⟨n, hn⟩ := Nat.exists_eq_add_of_le' hfrac
  rw [unboundedMag, hn, Nat.pow_succ, ← Nat.mul_assoc]
  omega

/-- The exact quotient is at least half-way from the magnitude before, and the rounded one is even where it is half-way. -/
theorem unboundedMag_lower (hfrac : 1 ≤ F.fracBits) {k : Nat} (hk : unboundedMag F num den = k + 1) :
    (magValue F k + magValue F (k + 1)) * den ≤ 2 * num ∧
    (2 * num = (magValue F k + magValue F (k + 1)) * den → unboundedMag F num den % 2 = 0) := by
  obtain ⟨-, hlo, heven⟩ := unboundedMag_spec F (num := num) hd
  have hmid : (magValue F k + magValue F (k + 1)) * den + magGap F k * den = 2 * magValue F (k + 1) * den := by
    rw [magValue_succ]; ring
  have hpos : 0 < magGap F k * den := Nat.mul_pos (magGap_pos F k) hd
  rw [hk] at hlo heven
  rcases magGap_pred_cases F hd hk with hgap | hge
  · rw [← hgap] at hlo heven
    refine ⟨by omega, fun htie => ?_⟩
    have hq := heven (.inr (by omega))
    obtain ⟨n, hn⟩ := Nat.exists_eq_add_of_le' hfrac
    rw [unboundedMag, hn, Nat.pow_succ, ← Nat.mul_assoc]
    rw [hgap] at hq
    omega
  · rw [hk] at hge
    have htwice : 2 * magValue F (k + 1) * den = 2 * (magValue F (k + 1) * den) := Nat.mul_assoc ..
    exact ⟨by omega, fun htie => by omega⟩

/-! ### Rounding by half-gaps -/

/-- Below half-way to the next magnitude the quotient rounds to at most the magnitude. -/
theorem unboundedMag_le_of_lt_midpoint (hfrac : 1 ≤ F.fracBits) {k : Nat}
    (h : 2 * num < (magValue F k + magValue F (k + 1)) * den) : unboundedMag F num den ≤ k := by
  by_contra hlt
  obtain ⟨j, hj⟩ := Nat.exists_eq_add_of_lt (not_le.mp hlt)
  have hle := (magValue_le_iff F).mpr (show k ≤ k + j by omega)
  have hle' := (magValue_le_iff F).mpr (show k + 1 ≤ k + j + 1 by omega)
  have hmul := Nat.mul_le_mul_right den (Nat.add_le_add hle hle')
  have hlo := (unboundedMag_lower F hd hfrac hj).1
  omega

theorem roundMag_le_of_lt_midpoint (hfrac : 1 ≤ F.fracBits) {k : Nat}
    (h : 2 * num < (magValue F k + magValue F (k + 1)) * den) : roundMag F num den ≤ k :=
  (Nat.min_le_left ..).trans (unboundedMag_le_of_lt_midpoint F hd hfrac h)

/-- The rounded magnitude is at least as near as every other, and even where another is equally near. -/
theorem unboundedMag_nearest (hfrac : 1 ≤ F.fracBits) (k : Nat) :
    |(magValue F (unboundedMag F num den) : Int) * den - num| ≤ |(magValue F k : Int) * den - num| ∧
    (k ≠ unboundedMag F num den →
      |(magValue F (unboundedMag F num den) : Int) * den - num| = |(magValue F k : Int) * den - num| →
      unboundedMag F num den % 2 = 0) := by
  obtain ⟨hup, hupEven⟩ := unboundedMag_upper F (num := num) hd hfrac
  have hlower (j : Nat) (hj : unboundedMag F num den = j + 1) := unboundedMag_lower F (num := num) hd hfrac hj
  generalize unboundedMag F num den = u at *
  rcases Nat.lt_trichotomy k u with hlt | rfl | hgt
  · obtain ⟨j, rfl⟩ := Nat.exists_eq_add_of_le' (Nat.one_le_of_lt hlt)
    obtain ⟨hlo, hloEven⟩ := hlower j rfl
    have hk := Nat.mul_le_mul_right den ((magValue_le_iff F).mpr (show k ≤ j from Nat.le_of_lt_succ hlt))
    have hlt' := Nat.mul_lt_mul_of_pos_right ((magValue_lt_iff F).mpr hlt) hd
    rw [Nat.add_mul] at hlo hloEven
    obtain ⟨hnear, htie⟩ := nearer_of_midpoint (n := num) (.inl ⟨Int.ofNat_lt.mpr hlt', by omega⟩)
    push_cast at hnear htie
    exact ⟨hnear, fun _ heq => hloEven (by have := htie heq; zify at hk hlo ⊢; omega)⟩
  · exact ⟨le_rfl, fun hne => absurd rfl hne⟩
  · have hk := Nat.mul_le_mul_right den ((magValue_le_iff F).mpr (show u + 1 ≤ k from hgt))
    have hlt' := Nat.mul_lt_mul_of_pos_right ((magValue_lt_iff F).mpr hgt) hd
    rw [Nat.add_mul] at hup hupEven
    obtain ⟨hnear, htie⟩ := nearer_of_midpoint (n := num) (.inr ⟨Int.ofNat_lt.mpr hlt', by omega⟩)
    push_cast at hnear htie
    exact ⟨hnear, fun _ heq => hupEven (by have := htie heq; zify at hk hup ⊢; omega)⟩

end

/-- The infinity's magnitude is even and above zero, so the largest finite magnitude is odd. -/
theorem infMag_pred {F : FloatFormat} (hF : F = binary32 ∨ F = binary64) :
    1 ≤ F.fracBits ∧ infMag F % 2 = 0 ∧ 1 ≤ infMag F := by
  rcases hF with rfl | rfl <;> decide

/-- The result overflows exactly from half-way past the largest finite magnitude on: at the tie that magnitude is odd. -/
theorem infMag_le_unboundedMag_iff {F : FloatFormat} (hF : F = binary32 ∨ F = binary64) {num den : Nat} (hd : 0 < den) :
    infMag F ≤ unboundedMag F num den ↔ (magValue F (infMag F - 1) + magValue F (infMag F)) * den ≤ 2 * num := by
  obtain ⟨hfrac, heven, hpos⟩ := infMag_pred hF
  obtain ⟨k, hk⟩ := Nat.exists_eq_add_of_le' hpos
  rw [hk] at heven ⊢
  rw [Nat.add_sub_cancel]
  constructor
  · intro hle
    obtain ⟨j, hj⟩ := Nat.exists_eq_add_of_le' (Nat.le_of_add_left_le hle)
    have hj' : unboundedMag F num den = j + 1 := by omega
    calc (magValue F k + magValue F (k + 1)) * den
      _ ≤ (magValue F j + magValue F (j + 1)) * den :=
        Nat.mul_le_mul_right _ (Nat.add_le_add ((magValue_le_iff F).mpr (by omega)) ((magValue_le_iff F).mpr (by omega)))
      _ ≤ 2 * num := (unboundedMag_lower F hd hfrac hj').1
  · intro hmid
    by_contra hlt
    have hle : unboundedMag F num den ≤ k := Nat.le_of_lt_succ (not_le.mp hlt)
    obtain ⟨hup, hupEven⟩ := unboundedMag_upper F (num := num) hd hfrac
    rcases Nat.eq_or_lt_of_le hle with heq | hlt
    · rw [heq] at hup hupEven
      have := hupEven (Nat.le_antisymm hup hmid)
      omega
    · have hval := (magValue_lt_iff F).mpr hlt
      have hval' := (magValue_le_iff F).mpr (show unboundedMag F num den + 1 ≤ k + 1 by omega)
      have := Nat.mul_lt_mul_of_pos_right (Nat.add_lt_add_of_lt_of_le hval hval') hd
      omega

/-- Settles O54: below the infinity the result is the unbounded one, which is nearest and even at a tie; it is the infinity exactly
where the unbounded one is past the largest finite magnitude. -/
theorem roundingIsNearestEven : Obligations.RoundingIsNearestEven := by
  unfold Obligations.RoundingIsNearestEven
  intro F hF num den hd
  obtain ⟨hfrac, _, _⟩ := infMag_pred hF
  constructor
  · intro hfin k _
    have heq : roundMag F num den = unboundedMag F num den := by
      rw [roundMag_eq_min] at hfin ⊢
      omega
    rw [heq]
    exact unboundedMag_nearest F hd hfrac k
  · rw [← infMag_le_unboundedMag_iff hF hd, roundMag_eq_min]
    omega

/-! ### What is representable (00_scope.md R10, R11) -/

/-- A significand within the precision, at any exponent, is the value of a magnitude. -/
theorem exists_magValue (F : FloatFormat) {m e : Nat} (hm : m < 2 ^ (F.fracBits + 1)) : ∃ k, magValue F k = m * 2 ^ e := by
  induction e generalizing m with
  | zero => exact ⟨0 * 2 ^ F.fracBits + m, magValue_add F 0 m hm.le (.inl rfl)⟩
  | succ e ih =>
    by_cases hlead : 2 ^ F.fracBits ≤ m
    · exact ⟨_, magValue_add F (e + 1) m hm.le (.inr hlead)⟩
    · have hdouble : 2 * m < 2 ^ (F.fracBits + 1) := by rw [Nat.pow_succ]; omega
      obtain ⟨k, hk⟩ := ih hdouble
      exact ⟨k, by rw [hk, Nat.pow_succ]; ring⟩

/-- The infinity reads as the power of two above every finite value. -/
theorem magValue_infMag32 : magValue binary32 (infMag binary32) = 2 ^ 277 := by
  have hsplit : infMag binary32 = 254 * 2 ^ binary32.fracBits + 2 ^ 23 := by decide
  rw [hsplit, magValue_add binary32 254 (2 ^ 23) (by decide) (.inr (by decide)), ← Nat.pow_add]

theorem magValue_infMag64 : magValue binary64 (infMag binary64) = 2 ^ 2098 := by
  have hsplit : infMag binary64 = 2046 * 2 ^ binary64.fracBits + 2 ^ 52 := by decide
  rw [hsplit, magValue_add binary64 2046 (2 ^ 52) (by decide) (.inr (by decide)), ← Nat.pow_add]

theorem signedNat_mul_two_pow (neg : Bool) (n u : Nat) : signedNat neg (n * 2 ^ u) = signedNat neg n * 2 ^ u := by
  cases neg <;> simp [signedNat]

/-- A representable value below the infinity rounds to a finite magnitude of the same value. -/
theorem roundMag_of_representable {F : FloatFormat} {v k : Nat} (hk : magValue F k = v) (hv : v < magValue F (infMag F)) :
    roundMag F v 1 < infMag F ∧ magValue F (roundMag F v 1) = v := by
  have hfin : k < infMag F := (magValue_lt_iff F).mp (hk ▸ hv)
  have hround : roundMag F v 1 = k := by
    rw [← hk, ← Nat.mul_one (magValue F k)]
    exact roundMag_magValue F hfin.le Nat.one_pos
  rw [hround]
  exact ⟨hfin, hk⟩

/-- An integer of at most 24 bits is converted exactly. -/
theorem i2f32_exact {n : Int} (hn : n.natAbs < 2 ^ 24) : isFinite32 (i2f32 n) = true ∧ value32 (i2f32 n) = n * 2 ^ 149 := by
  obtain ⟨k, hk⟩ := exists_magValue binary32 (e := 149) hn
  have hlt : n.natAbs * 2 ^ 149 < magValue binary32 (infMag binary32) := by rw [magValue_infMag32]; omega
  obtain ⟨hfin, hval⟩ := roundMag_of_representable hk hlt
  have hmag : roundMag binary32 (n.natAbs * 2 ^ 149) 1 < 2 ^ 31 := hfin.trans (by decide)
  have hunpack : unpack32 (i2f32 n) = ⟨decide (n < 0), roundMag binary32 (n.natAbs * 2 ^ 149) 1⟩ := by
    rw [i2f32, unitExp_binary32]
    exact unpack32_pack32 _ hmag
  constructor
  · rw [isFinite32, hunpack]
    exact decide_eq_true hfin
  · rw [value32, hunpack, bitsValue_eq_signedNat, hval, signedNat_mul_two_pow, signedNat_natAbs]

/-- Settles O55: the integers of the rules have at most 18 bits. -/
theorem integersConvertExactly : Obligations.IntegersConvertExactly := by
  unfold Obligations.IntegersConvertExactly
  intro n hlo hhi
  exact i2f32_exact (by omega)

/-! ### Widening (00_scope.md R10) -/

theorem unpack64_pack64 (x : FloatBits) (h : x.mag < 2 ^ 63) : unpack64 (pack64 x) = x := by
  obtain ⟨neg, mag⟩ := x
  simp only at h
  have hn (n : Nat) : (BitVec.ofNat 64 n).getLsbD 63 = n.testBit 63 := by
    rw [BitVec.getLsbD_ofNat]; rfl
  simp only [unpack64, pack64, hn, BitVec.toNat_ofNat, FloatBits.mk.injEq]
  cases neg with
  | false =>
    simp only [Bool.false_eq_true, if_false, Nat.zero_add]
    exact ⟨Nat.testBit_lt_two_pow h, by omega⟩
  | true =>
    simp only [if_true, Nat.testBit_two_pow_add_eq, Nat.testBit_lt_two_pow h, Bool.not_false, true_and]
    omega

/-- A binary32 value is a binary64 one, in the smaller unit. -/
theorem roundMag_widen {k : Nat} (hk : k < infMag binary32) :
    roundMag binary64 (magValue binary32 k * 2 ^ 925) 1 < infMag binary64 ∧
    magValue binary64 (roundMag binary64 (magValue binary32 k * 2 ^ 925) 1) = magValue binary32 k * 2 ^ 925 := by
  have hlt : magValue binary32 k * 2 ^ 925 < magValue binary64 (infMag binary64) := by
    have := (magValue_lt_iff binary32).mpr hk
    rw [magValue_infMag32] at this
    rw [magValue_infMag64]
    calc magValue binary32 k * 2 ^ 925
      _ < 2 ^ 277 * 2 ^ 925 := Nat.mul_lt_mul_of_pos_right this (Nat.two_pow_pos _)
      _ ≤ 2 ^ 2098 := by rw [← Nat.pow_add]; exact Nat.pow_le_pow_right (by decide) (by decide)
  obtain ⟨e, m, rfl, hm, h⟩ := mag_split binary32 k
  obtain ⟨j, hj⟩ := exists_magValue binary64 (m := m) (e := e + 925) (hm.trans (by decide))
  refine roundMag_of_representable (k := j) ?_ hlt
  rw [magValue_add binary32 e m hm.le h, Nat.mul_assoc, ← Nat.pow_add]
  exact hj

/-- The widened pattern of a finite word. -/
theorem unpack64_f32to64 {a : Word} (ha : isFinite32 a = true) :
    unpack64 (f32to64 a) = ⟨(unpack32 a).neg, roundMag binary64 (magValue binary32 (unpack32 a).mag * 2 ^ 925) 1⟩ := by
  have hNa : isNaNBits binary32 (unpack32 a) = false := not_isNaN32_of_isFinite32 ha
  have hmag : roundMag binary64 (magValue binary32 (unpack32 a).mag * 2 ^ 925) 1 < 2 ^ 63 :=
    (roundMag_le_infMag ..).trans_lt (by decide)
  have hexp : unitExp binary64 - unitExp binary32 = 925 := by decide
  rw [f32to64, widenBits, hNa, isInfBits_of_isFinite32 ha, hexp]
  exact unpack64_pack64 _ hmag

/-- Settles O56: the significand has 24 bits of the 53, and the exponent is in range. -/
theorem wideningIsExact : Obligations.WideningIsExact := by
  unfold Obligations.WideningIsExact
  intro a ha
  obtain ⟨hfin, hval⟩ := roundMag_widen (of_decide_eq_true ha)
  constructor
  · rw [isFinite64, unpack64_f32to64 ha]
    exact decide_eq_true hfin
  · rw [value64, unpack64_f32to64 ha, value32, bitsValue_eq_signedNat, bitsValue_eq_signedNat, hval,
      signedNat_mul_two_pow]

end Sys2Proof.Machine
end

section
/-! PROOFS. The operations as one rounding function of the exact value (00_scope.md R8), and from it where the wrap loops end
(40_nco_sine_naive.md R85): a subtraction makes progress where half the gap below the phase is less than the period, and from the first
phase that is rounded back to itself on no phase ever gets smaller. -/

namespace Sys2Proof.Machine

/-! ### Rounding a signed quotient -/

/-- The value, in units, that the exact quotient `v / den` of a sign and a magnitude rounds to. -/
def roundRatio (F : FloatFormat) (v : Int) (den : Nat) : Int := bitsValue F ⟨decide (v < 0), roundMag F v.natAbs den⟩

section
variable {F : FloatFormat} {den : Nat}

@[simp] theorem roundMag_zero (F : FloatFormat) (hd : 0 < den) : roundMag F 0 den = 0 :=
  Nat.le_zero.mp (roundMag_le F hd (Nat.zero_le _) (by simp))

theorem roundRatio_of_nonneg {v : Int} (h : 0 ≤ v) : roundRatio F v den = magValue F (roundMag F v.natAbs den) := by
  simp [roundRatio, bitsValue, not_lt.mpr h]

theorem roundRatio_nonneg {v : Int} (h : 0 ≤ v) : 0 ≤ roundRatio F v den := by
  rw [roundRatio_of_nonneg h]
  exact Int.natCast_nonneg _

variable (hd : 0 < den)
include hd

theorem roundRatio_zero : roundRatio F 0 den = 0 := by simp [roundRatio, bitsValue, roundMag_zero F hd]

theorem roundRatio_neg (v : Int) : roundRatio F (-v) den = -roundRatio F v den := by
  rcases lt_trichotomy v 0 with h | rfl | h
  · simp [roundRatio, bitsValue, h, h.asymm]
  · rw [Int.neg_zero, roundRatio_zero hd, Int.neg_zero]
  · simp [roundRatio, bitsValue, h, h.asymm]

/-- A sign and a magnitude rounded are the signed quotient rounded, also for the two zeros. -/
theorem bitsValue_round (neg : Bool) (n : Nat) :
    bitsValue F ⟨neg, roundMag F n den⟩ = roundRatio F (signedNat neg n) den := by
  cases neg with
  | false => simp [signedNat, roundRatio_of_nonneg, bitsValue]
  | true => simp [signedNat, roundRatio_neg hd, roundRatio_of_nonneg, bitsValue]

theorem roundRatio_le {v : Int} {c : FloatBits} (hc : isNaNBits F c = false) (h : v ≤ bitsValue F c * den) :
    roundRatio F v den ≤ bitsValue F c :=
  bitsValue_round_le hd hc (by rwa [signedNat_natAbs])

theorem le_roundRatio {v : Int} {c : FloatBits} (hc : isNaNBits F c = false) (h : bitsValue F c * den ≤ v) :
    bitsValue F c ≤ roundRatio F v den :=
  le_bitsValue_round hd hc (by rwa [signedNat_natAbs])

/-- A representable value rounds to itself. -/
theorem roundRatio_exact {c : FloatBits} (hc : isNaNBits F c = false) : roundRatio F (bitsValue F c * den) den = bitsValue F c :=
  le_antisymm (roundRatio_le hd hc le_rfl) (le_roundRatio hd hc le_rfl)

/-- Rounding keeps order, across the signs. -/
theorem roundRatio_mono {v w : Int} (h : v ≤ w) : roundRatio F v den ≤ roundRatio F w den := by
  have hnonneg {v w : Int} (hv : 0 ≤ v) (h : v ≤ w) : roundRatio F v den ≤ roundRatio F w den := by
    rw [roundRatio_of_nonneg hv, roundRatio_of_nonneg (hv.trans h), Nat.cast_le, magValue_le_iff]
    exact roundMag_mono F hd hd (Nat.mul_le_mul_right _ (by omega))
  rcases le_or_gt 0 v with hv | hv
  · exact hnonneg hv h
  · rcases le_or_gt 0 w with hw | hw
    · have hneg := roundRatio_nonneg (F := F) (den := den) (show 0 ≤ -v by omega)
      rw [roundRatio_neg hd] at hneg
      exact (neg_nonneg.mp hneg).trans (roundRatio_nonneg hw)
    · have := hnonneg (show 0 ≤ -w by omega) (neg_le_neg h)
      rw [roundRatio_neg hd, roundRatio_neg hd] at this
      exact neg_le_neg_iff.mp this

end

/-! ### The operations on finite words -/

@[simp] theorem value32_fZero : value32 fZero = 0 := by decide

theorem abs_bitsValue (F : FloatFormat) (x : FloatBits) : |bitsValue F x| = magValue F x.mag := by
  unfold bitsValue
  split <;> simp

theorem abs_value32 (a : Word) : |value32 a| = magValue binary32 (unpack32 a).mag := abs_bitsValue ..

/-- Every number is worth at most what the infinity reads as. -/
theorem abs_value32_le {a : Word} (h : isNaN32 a = false) : |value32 a| ≤ 2 ^ 277 := by
  have hmag : (unpack32 a).mag ≤ infMag binary32 := by simpa [isNaN32, isNaNBits] using h
  rw [abs_value32, ← Nat.cast_ofNat, ← Nat.cast_pow, Nat.cast_le, ← magValue_infMag32]
  exact (magValue_le_iff _).mpr hmag

theorem isFinite32_iff_abs_lt {a : Word} : isFinite32 a = true ↔ |value32 a| < 2 ^ 277 := by
  rw [isFinite32_iff_abs_value32, magValue_infMag32, Nat.cast_pow, Nat.cast_ofNat]

theorem value32_fadd32 {a b : Word} (ha : isFinite32 a = true) (hb : isFinite32 b = true) :
    value32 (fadd32 a b) = roundRatio binary32 (value32 a + value32 b) 1 := by
  have hNa : isNaNBits binary32 (unpack32 a) = false := not_isNaN32_of_isFinite32 ha
  have hNb : isNaNBits binary32 (unpack32 b) = false := not_isNaN32_of_isFinite32 hb
  simp only [value32, unpack32_fadd32, addBits, hNa, hNb, isInfBits_of_isFinite32 ha, isInfBits_of_isFinite32 hb,
    Bool.or_self, Bool.false_eq_true, if_false]
  split
  case isTrue hzero =>
    rw [hzero, roundRatio_zero Nat.one_pos]
    simp [bitsValue]
  case isFalse => rfl

theorem value32_fsub32 {a b : Word} (ha : isFinite32 a = true) (hb : isFinite32 b = true) :
    value32 (fsub32 a b) = roundRatio binary32 (value32 a - value32 b) 1 := by
  rw [fsub32, value32_fadd32 ha (by simpa using hb), value32_fneg32, Int.sub_eq_add_neg]

/-- The product of finite patterns is the exact product in squared units, rounded. -/
theorem mulBits_of_finite {F : FloatFormat} {x y : FloatBits} (hx : isFiniteBits F x = true) (hy : isFiniteBits F y = true) :
    mulBits F x y = ⟨x.neg != y.neg, roundMag F (magValue F x.mag * magValue F y.mag) (2 ^ unitExp F)⟩ := by
  have hxlt : x.mag < infMag F := of_decide_eq_true hx
  have hylt : y.mag < infMag F := of_decide_eq_true hy
  simp [mulBits, isNaNBits, isInfBits, hxlt.not_gt, hylt.not_gt, hxlt.ne, hylt.ne]

theorem bitsValue_mulBits {F : FloatFormat} {x y : FloatBits} (hx : isFiniteBits F x = true) (hy : isFiniteBits F y = true) :
    bitsValue F (mulBits F x y) = roundRatio F (bitsValue F x * bitsValue F y) (2 ^ unitExp F) := by
  rw [mulBits_of_finite hx hy, bitsValue_round (Nat.two_pow_pos _), signedNat_mul]
  rfl

theorem value32_fmul32 {a b : Word} (ha : isFinite32 a = true) (hb : isFinite32 b = true) :
    value32 (fmul32 a b) = roundRatio binary32 (value32 a * value32 b) (2 ^ 149) := by
  rw [value32, unpack32_fmul32, bitsValue_mulBits ha hb, unitExp_binary32]
  rfl

/-! ### The passes of the loop on values (40_nco_sine_naive.md R82) -/

section
variable {m p : Word} (hp : isNaN32 p = false)
include hp

theorem wrapPass_of_neg (h : value32 p < 0) : wrapPass m p = .again (fadd32 p m) := by
  have hlo : flt32 p fZero = true := flt32_iff.mpr ⟨hp, by decide, by rwa [value32_fZero]⟩
  simp [wrapPass, hlo]

/-- No number at or above zero is below it. -/
theorem flt32_fZero_of_nonneg (h : 0 ≤ value32 p) : flt32 p fZero = false :=
  flt32_false_of_fle32 (fle32_iff.mpr ⟨by decide, hp, by rwa [value32_fZero]⟩)

theorem wrapPass_of_inRange (h0 : 0 ≤ value32 p) (h : value32 p < value32 m) : wrapPass m p = .done := by
  have hlo := flt32_fZero_of_nonneg hp h0
  have hhi : fle32 m p = false := Bool.eq_false_iff.mpr fun hle => by
    obtain ⟨_, _, hval⟩ := fle32_iff.mp hle
    omega
  simp [wrapPass, hlo, hhi]

variable (hm : isFinite32 m = true) (hpos : 0 < value32 m)
include hm hpos

theorem wrapPass_of_ge (h : value32 m ≤ value32 p) : wrapPass m p = .again (fsub32 p m) := by
  have hlo := flt32_fZero_of_nonneg hp (hpos.le.trans h)
  have hhi : fle32 m p = true := fle32_iff.mpr ⟨not_isNaN32_of_isFinite32 hm, hp, h⟩
  simp [wrapPass, hlo, hhi]

end

/-! ### Where the loop ends -/

/-- Subtracting the period from any number between the period and the bound gives a smaller one. -/
def ProgressUpTo (m : Word) (bound : Int) : Prop :=
  ∀ p, isNaN32 p = false → value32 m ≤ value32 p → value32 p ≤ bound →
    roundRatio binary32 (value32 p - value32 m) 1 < value32 p

section
variable {m : Word} (hm : isFinite32 m = true) (hpos : 0 < value32 m) {bound : Int} (hfin : bound < 2 ^ 277)
  (hprog : ProgressUpTo m bound)
include hm hpos hfin hprog

/-- From zero up the loop subtracts until it is in range: each pass makes the phase smaller and keeps it at least zero. -/
theorem exists_wrapsTo_of_nonneg {p : Word} (hp : isNaN32 p = false) (h0 : 0 ≤ value32 p) (hle : value32 p ≤ bound) :
    ∃ q, WrapsTo m p q := by
  obtain ⟨n, hn⟩ := Int.eq_ofNat_of_zero_le h0
  induction n using Nat.strong_induction_on generalizing p with
  | _ n ih =>
    rcases lt_or_ge (value32 p) (value32 m) with hlt | hge
    · exact ⟨p, wrapsTo_self_of_done (wrapPass_of_inRange hp h0 hlt)⟩
    · have hpfin : isFinite32 p = true := isFinite32_iff_abs_lt.mpr (by rw [abs_of_nonneg h0]; omega)
      have hpass := wrapPass_of_ge hp hm hpos hge
      have hval := value32_fsub32 hpfin hm
      have hless := hprog p hp hge hle
      rw [← hval] at hless
      have hnonneg : 0 ≤ value32 (fsub32 p m) := by
        rw [hval]
        exact roundRatio_nonneg (by omega)
      obtain ⟨q, hq⟩ := ih (value32 (fsub32 p m)).toNat (by omega) (isNaN32_of_wrapPass_again hm hp hpass) hnonneg
        (by omega) (by omega)
      exact ⟨q, (wrapsTo_iff_of_again hpass).mpr hq⟩

/-- From below zero the loop adds, making the phase smaller in magnitude, until it is at least zero. -/
theorem exists_wrapsTo (hmb : value32 m ≤ bound) {p : Word} (hp : isNaN32 p = false) (hle : |value32 p| ≤ bound) :
    ∃ q, WrapsTo m p q := by
  obtain ⟨hlo, hhi⟩ := abs_le.mp hle
  obtain ⟨n, hn⟩ := Int.eq_ofNat_of_zero_le (abs_nonneg (value32 p))
  induction n using Nat.strong_induction_on generalizing p with
  | _ n ih =>
    rcases le_or_gt 0 (value32 p) with h0 | hneg
    · exact exists_wrapsTo_of_nonneg hm hpos hfin hprog hp h0 hhi
    · rw [abs_of_neg hneg] at hn
      have hpfin : isFinite32 p = true := isFinite32_iff_abs_lt.mpr (by rw [abs_of_neg hneg]; omega)
      have hpass := wrapPass_of_neg (m := m) hp hneg
      have hnum := isNaN32_of_wrapPass_again hm hp hpass
      have hval := value32_fadd32 hpfin hm
      have hstep : ∃ q, WrapsTo m (fadd32 p m) q := by
        rcases le_or_gt (value32 m) (-value32 p) with hge | hlt
        · have hmirror : roundRatio binary32 (-value32 p - value32 m) 1 = -value32 (fadd32 p m) := by
            rw [hval, ← roundRatio_neg Nat.one_pos]
            congr 1
            ring
          have hless := hprog (fneg32 p) (by simpa using hp) (by rwa [value32_fneg32]) (by rw [value32_fneg32]; omega)
          have hnonneg := roundRatio_nonneg (F := binary32) (den := 1) (show 0 ≤ -value32 p - value32 m by omega)
          rw [value32_fneg32, hmirror] at hless
          rw [hmirror] at hnonneg
          have habs : |value32 (fadd32 p m)| = -value32 (fadd32 p m) := abs_of_nonpos (by omega)
          exact ih (-value32 (fadd32 p m)).toNat (by omega) hnum (by omega) (by omega) (by omega) (by omega)
        · have hnonneg : 0 ≤ value32 (fadd32 p m) := by
            rw [hval]
            exact roundRatio_nonneg (by omega)
          have hle : value32 (fadd32 p m) ≤ value32 m := by
            rw [hval]
            exact roundRatio_le (c := unpack32 m) Nat.one_pos (not_isNaN32_of_isFinite32 hm)
              (by rw [Nat.cast_one, mul_one]; exact (show value32 p + value32 m ≤ value32 m by omega))
          exact exists_wrapsTo_of_nonneg hm hpos hfin hprog hnum hnonneg (hle.trans hmb)
      obtain ⟨q, hq⟩ := hstep
      exact ⟨q, (wrapsTo_iff_of_again hpass).mpr hq⟩

end

/-! ### Where the loop never ends -/

/-- From an infinity the loop never returns (40_nco_sine_naive.md R82, corner cases). -/
theorem not_wrapsTo_of_infinite {m p : Word} (hm : m = twoPi ∨ m = fOne) (hp : isNaN32 p = false)
    (hinf : isFinite32 p = false) (q : Word) : ¬ WrapsTo m p q := by
  obtain ⟨_, hcorner⟩ := wrapIsTheLoop
  obtain ⟨_, _, _, hpos, hneg⟩ := hcorner m hm
  rcases infinite_eq hp hinf with rfl | rfl
  · exact wrap_eq_none_iff.mp hpos q
  · exact wrap_eq_none_iff.mp hneg q

/-- Where a pass from the bound leads back to the bound or past it, no phase from the bound on ever comes below it, by monotony. -/
theorem not_wrapsTo_of_stuck {m : Word} (hm : m = twoPi ∨ m = fOne) {bound : Int} (hmb : value32 m ≤ bound)
    (hstuck : bound ≤ roundRatio binary32 (bound - value32 m) 1) {p q : Word} (hp : isNaN32 p = false)
    (hge : bound ≤ |value32 p|) : ¬ WrapsTo m p q := by
  have hmfin : isFinite32 m = true := by rcases hm with rfl | rfl <;> decide
  have hpos : 0 < value32 m := by rcases hm with rfl | rfl <;> decide
  intro hw
  induction hw with
  | done p hlo hhi =>
    have hrange := inRange_of_wrapPass_done hmfin hp (by simp [wrapPass, hlo, hhi])
    obtain ⟨_, _, h0⟩ := fle32_iff.mp hrange.1
    obtain ⟨_, _, hlt⟩ := flt32_iff.mp hrange.2
    rw [value32_fZero] at h0
    rw [abs_of_nonneg h0] at hge
    omega
  | add p q hlo hq ih =>
    have hpass : wrapPass m p = .again (fadd32 p m) := by simp [wrapPass, hlo]
    obtain ⟨_, _, hneg⟩ := flt32_iff.mp hlo
    rw [value32_fZero] at hneg
    rw [abs_of_neg hneg] at hge
    cases hpfin : isFinite32 p with
    | false => exact not_wrapsTo_of_infinite hm hp hpfin q (.add p q hlo hq)
    | true =>
      refine ih (isNaN32_of_wrapPass_again hmfin hp hpass) ?_
      have hmirror : -value32 (fadd32 p m) = roundRatio binary32 (-value32 p - value32 m) 1 := by
        rw [value32_fadd32 hpfin hmfin, ← roundRatio_neg Nat.one_pos]
        congr 1
        ring
      have hmono := roundRatio_mono (F := binary32) Nat.one_pos (show bound - value32 m ≤ -value32 p - value32 m by omega)
      rw [← hmirror] at hmono
      exact (hstuck.trans hmono).trans (neg_le_abs _)
  | sub p q hlo hhi hq ih =>
    have hpass : wrapPass m p = .again (fsub32 p m) := by simp [wrapPass, hlo, hhi]
    obtain ⟨_, _, hmp⟩ := fle32_iff.mp hhi
    rw [abs_of_nonneg (hpos.le.trans hmp)] at hge
    cases hpfin : isFinite32 p with
    | false => exact not_wrapsTo_of_infinite hm hp hpfin q (.sub p q hlo hhi hq)
    | true =>
      refine ih (isNaN32_of_wrapPass_again hmfin hp hpass) ?_
      have hmono := roundRatio_mono (F := binary32) Nat.one_pos (show bound - value32 m ≤ value32 p - value32 m by omega)
      rw [← value32_fsub32 hpfin hmfin] at hmono
      exact (hstuck.trans hmono).trans (le_abs_self _)

/-! ### The two periods (40_nco_sine_naive.md R85 (a), (b)) -/

/-- A number above zero is its magnitude's value. -/
theorem value32_eq_magValue {p : Word} (h : 0 ≤ value32 p) : value32 p = magValue binary32 (unpack32 p).mag := by
  unfold value32 bitsValue at h ⊢
  split at h <;> rename_i hneg
  · have : magValue binary32 (unpack32 p).mag = 0 := by omega
    simp [this]
  · simp [hneg]

/-- Subtracting makes progress where the gap below the phase is less than twice the period. -/
theorem roundRatio_sub_lt {m p : Word} {k : Nat} (hmp : value32 m ≤ value32 p) (hval : value32 p = magValue binary32 (k + 1))
    (hgap : (magGap binary32 k : Int) < 2 * value32 m) :
    roundRatio binary32 (value32 p - value32 m) 1 < value32 p := by
  have hlt : roundMag binary32 (value32 p - value32 m).natAbs 1 ≤ k := by
    refine roundMag_le_of_lt_midpoint binary32 Nat.one_pos (by decide) ?_
    have := magValue_succ binary32 k
    omega
  rw [roundRatio_of_nonneg (by omega), hval, Nat.cast_lt, magValue_lt_iff]
  rw [hval] at hlt
  exact Nat.lt_succ_of_le hlt

theorem progressUpTo_twoPi : ProgressUpTo twoPi (2 ^ 27 * 2 ^ 149) := by
  intro p _ hmp hle
  have hpos : 0 < value32 twoPi := by decide
  have hval := value32_eq_magValue (hpos.le.trans hmp)
  have hbound : (2 ^ 27 * 2 ^ 149 : Int) = magValue binary32 (154 * 2 ^ 23) := by decide
  rw [hval, hbound, Nat.cast_le, magValue_le_iff] at hle
  obtain ⟨k, hk⟩ : ∃ k, (unpack32 p).mag = k + 1 := Nat.exists_eq_succ_of_ne_zero fun h0 => by
    rw [hval, h0, magValue_zero] at hmp
    omega
  rw [hk] at hval hle
  refine roundRatio_sub_lt hmp hval ?_
  calc (magGap binary32 k : Int)
    _ ≤ magGap binary32 (154 * 2 ^ 23 - 1) := Nat.cast_le.mpr (magGap_mono _ (by omega))
    _ < 2 * value32 twoPi := by decide

theorem progressUpTo_fOne : ProgressUpTo fOne (16777218 * 2 ^ 149) := by
  intro p _ hmp hle
  have hpos : 0 < value32 fOne := by decide
  have hval := value32_eq_magValue (hpos.le.trans hmp)
  have hbound : (16777218 * 2 ^ 149 : Int) = magValue binary32 0x4B800001 := by decide
  rcases eq_or_lt_of_le hle with heq | hlt
  · rw [heq]
    decide
  · rw [hval, hbound, Nat.cast_lt, magValue_lt_iff] at hlt
    obtain ⟨k, hk⟩ : ∃ k, (unpack32 p).mag = k + 1 := Nat.exists_eq_succ_of_ne_zero fun h0 => by
      rw [hval, h0, magValue_zero] at hmp
      omega
    rw [hk] at hval hlt
    refine roundRatio_sub_lt hmp hval ?_
    calc (magGap binary32 k : Int)
      _ ≤ magGap binary32 0x4B7FFFFF := Nat.cast_le.mpr (magGap_mono _ (by omega))
      _ < 2 * value32 fOne := by decide

/-- Above a magnitude's value the next value is the next magnitude's. -/
theorem magValue_succ_le_abs_value32 {p : Word} {k : Nat} (h : (magValue binary32 k : Int) < |value32 p|) :
    (magValue binary32 (k + 1) : Int) ≤ |value32 p| := by
  rw [abs_value32, Nat.cast_lt, magValue_lt_iff] at h
  rw [abs_value32, Nat.cast_le, magValue_le_iff]
  exact h

/-- Settles O25: up to 2^27 the loop makes progress; the next magnitude, 2^27 + 16, is absorbed. -/
theorem radianLoopEndsExactlyUpTo2Pow27 : Obligations.RadianLoopEndsExactlyUpTo2Pow27 := by
  unfold Obligations.RadianLoopEndsExactlyUpTo2Pow27
  intro p hp
  have hbound : (2 ^ 27 * 2 ^ 149 : Int) = magValue binary32 (154 * 2 ^ 23) := by decide
  refine ⟨fun ⟨q, hq⟩ => ?_, exists_wrapsTo (by decide) (by decide) (by decide) progressUpTo_twoPi (by decide) hp⟩
  by_contra hgt
  rw [hbound] at hgt
  exact not_wrapsTo_of_stuck (.inl rfl) (by decide) (by decide) hp (magValue_succ_le_abs_value32 (not_le.mp hgt)) hq

/-- Settles O26: up to 16777218 the loop makes progress, at that magnitude by the tie that goes to 2^24; 16777220 is absorbed, by
the tie that goes back to it. -/
theorem unitLoopEndsExactlyBelow16777220 : Obligations.UnitLoopEndsExactlyBelow16777220 := by
  unfold Obligations.UnitLoopEndsExactlyBelow16777220
  intro p hp
  have hpred : (16777218 * 2 ^ 149 : Int) = magValue binary32 0x4B800001 := by decide
  have hbound : (16777220 * 2 ^ 149 : Int) = magValue binary32 (0x4B800001 + 1) := by decide
  constructor
  · rintro ⟨q, hq⟩
    by_contra hge
    exact not_wrapsTo_of_stuck (.inr rfl) (by decide) (by decide) hp (not_lt.mp hge) hq
  · intro hlt
    refine exists_wrapsTo (by decide) (by decide) (by decide) progressUpTo_fOne (by decide) hp ?_
    by_contra hgt
    rw [hpred] at hgt
    rw [hbound] at hlt
    exact absurd (magValue_succ_le_abs_value32 (not_le.mp hgt)) (not_le.mpr hlt)

/-! ### At most two steps (40_nco_sine_naive.md R85 (d)) -/

section
variable {m : Word} (hm : isFinite32 m = true) (hpos : 0 < value32 m)
include hm hpos

/-- A phase from zero to the period, the period included, returns in its second pass at the latest: the period steps to zero. -/
theorem wrapLoop_two_of_le {p : Word} (hp : isNaN32 p = false) (h0 : 0 ≤ value32 p) (hle : value32 p ≤ value32 m) :
    ∃ q, wrapLoop m 2 p = some q := by
  rcases lt_or_eq_of_le hle with hlt | heq
  · exact ⟨p, wrapLoop_of_done (wrapPass_of_inRange hp h0 hlt) 1⟩
  · have hpfin : isFinite32 p = true := by rw [isFinite32_iff_abs_lt, heq]; exact isFinite32_iff_abs_lt.mp hm
    have hpass := wrapPass_of_ge hp hm hpos heq.ge
    have hval : value32 (fsub32 p m) = 0 := by
      rw [value32_fsub32 hpfin hm, heq, Int.sub_self, roundRatio_zero Nat.one_pos]
    have hne : fsub32 p m ≠ p := fun h => by
      rw [h] at hval
      omega
    refine ⟨fsub32 p m, ?_⟩
    rw [wrapLoop_of_again hpass hne]
    exact wrapLoop_of_done (wrapPass_of_inRange (isNaN32_of_wrapPass_again hm hp hpass) hval.ge (by omega)) 0

/-- A phase from minus one period to two periods is between zero and one period after its first pass. -/
theorem wrapLoop_three_of_le {p : Word} (hp : isFinite32 p = true) (hlo : -value32 m ≤ value32 p)
    (hhi : value32 p ≤ 2 * value32 m) : ∃ q, wrapLoop m 3 p = some q := by
  have hnum := not_isNaN32_of_isFinite32 hp
  have hround {v : Int} (h0 : 0 ≤ v) (h : v ≤ value32 m) :
      0 ≤ roundRatio binary32 v 1 ∧ roundRatio binary32 v 1 ≤ value32 m :=
    ⟨roundRatio_nonneg h0, roundRatio_le (c := unpack32 m) Nat.one_pos (not_isNaN32_of_isFinite32 hm)
      (by rwa [Nat.cast_one, mul_one])⟩
  rcases lt_or_ge (value32 p) 0 with hneg | h0
  · have hpass := wrapPass_of_neg (m := m) hnum hneg
    obtain ⟨hlo', hhi'⟩ := hround (show 0 ≤ value32 p + value32 m by omega) (by omega)
    rw [← value32_fadd32 hp hm] at hlo' hhi'
    have hne : fadd32 p m ≠ p := fun h => by rw [h] at hlo'; omega
    rw [wrapLoop_of_again hpass hne]
    exact wrapLoop_two_of_le hm hpos (isNaN32_of_wrapPass_again hm hnum hpass) hlo' hhi'
  · rcases lt_or_ge (value32 p) (value32 m) with hlt | hge
    · exact ⟨p, wrapLoop_of_done (wrapPass_of_inRange hnum h0 hlt) 2⟩
    · have hpass := wrapPass_of_ge hnum hm hpos hge
      obtain ⟨hlo', hhi'⟩ := hround (show 0 ≤ value32 p - value32 m by omega) (by omega)
      rw [← value32_fsub32 hp hm] at hlo' hhi'
      have hne : fsub32 p m ≠ p := fun h => by
        have heq : value32 p = value32 m := by rw [h] at hhi'; omega
        have hzero : value32 (fsub32 p m) = 0 := by
          rw [value32_fsub32 hp hm, heq, Int.sub_self, roundRatio_zero Nat.one_pos]
        rw [h] at hzero
        omega
      rw [wrapLoop_of_again hpass hne]
      exact wrapLoop_two_of_le hm hpos (isNaN32_of_wrapPass_again hm hnum hpass) hlo' hhi'

end

/-- Settles O27: the start is the rounded sum of a phase in [0, m) and an increment in [-m, m], so it lies in [-m, 2 m], whose ends
are values of the format. -/
theorem atMostTwoWrapSteps : Obligations.AtMostTwoWrapSteps := by
  unfold Obligations.AtMostTwoWrapSteps
  intro m p0 inc hm hrange hinc hle
  have hmfin : isFinite32 m = true := by rcases hm with rfl | rfl <;> decide
  have hpos : 0 < value32 m := by rcases hm with rfl | rfl <;> decide
  obtain ⟨twice, htwice, hval⟩ : ∃ u, isFinite32 u = true ∧ value32 u = 2 * value32 m := by
    rcases hm with rfl | rfl
    · exact ⟨0x41490FDB, by decide⟩
    · exact ⟨fTwo, by decide⟩
  have hp := hrange.within hmfin
  obtain ⟨h0, hlt⟩ := hp.value
  rw [value32_fZero] at h0
  obtain ⟨hlo, hhi⟩ := abs_le.mp hle
  have hincfin : isFinite32 inc = true :=
    isFinite32_iff_abs_lt.mpr (hle.trans_lt ((le_abs_self _).trans_lt (isFinite32_iff_abs_lt.mp hmfin)))
  obtain ⟨hlo', hhi'⟩ := value32_fadd32_bounds hp.finite hincfin (l := fneg32 m) (u := twice)
    (by simpa using not_isNaN32_of_isFinite32 hmfin) (not_isNaN32_of_isFinite32 htwice)
    (by rw [value32_fneg32]; omega) (by omega)
  rw [value32_fneg32] at hlo'
  rw [hval] at hhi'
  have hsum : isFinite32 (fadd32 p0 inc) = true := by
    rw [isFinite32_iff_abs_lt, abs_lt]
    have := isFinite32_iff_abs_lt.mp htwice
    rw [abs_of_nonneg (by omega), hval] at this
    omega
  exact wrapLoop_three_of_le hmfin hpos hsum hlo' hhi'

end Sys2Proof.Machine
end

section
/-! PROOFS. The automatic counts (41_bandlimited.md R104 to R106; 60_exceptions.md R154) and the zero frequency (40_nco_sine_naive.md
R89). The searches go through partials whose rounded frequencies grow with the harmonic, so the first one that is not below Nyquist
decides about all; a zero increment leaves a phase in range as it is, but for the sign of a zero. -/

namespace Sys2Proof.Machine

/-! ### Quotients by a number above zero -/

theorem unpack32_neg_of_pos {b : Word} (h : 0 < value32 b) : (unpack32 b).neg = false := by
  cases hneg : (unpack32 b).neg with
  | false => rfl
  | true => simp [value32, bitsValue, hneg] at h; omega

theorem value32_fdiv32 {a b : Word} (ha : isFinite32 a = true) (hb : isFinite32 b = true) (hpos : 0 < value32 b) :
    value32 (fdiv32 a b) = roundRatio binary32 (value32 a * 2 ^ 149) (value32 b).natAbs := by
  have hNa : isNaNBits binary32 (unpack32 a) = false := not_isNaN32_of_isFinite32 ha
  have hNb : isNaNBits binary32 (unpack32 b) = false := not_isNaN32_of_isFinite32 hb
  have hval := value32_eq_magValue hpos.le
  have hmag : (unpack32 b).mag ≠ 0 := fun h0 => by rw [hval, h0, magValue_zero] at hpos; omega
  rw [hval, Int.natAbs_natCast, value32, unpack32_fdiv32]
  simp only [divBits, hNa, hNb, isInfBits_of_isFinite32 ha, isInfBits_of_isFinite32 hb, hmag, Bool.or_self,
    Bool.false_eq_true, if_false, unitExp_binary32]
  rw [bitsValue_round (by omega), unpack32_neg_of_pos hpos, Bool.bne_false, signedNat_mul_two_pow]
  rfl

theorem pos_of_flt32 {a : Word} (h : flt32 fZero a = true) : 0 < value32 a := by
  obtain ⟨_, _, hlt⟩ := flt32_iff.mp h
  rwa [value32_fZero] at hlt

/-! ### The partials against Nyquist (41_bandlimited.md R102, R104) -/

/-- The partial of the factor `k` is below the Nyquist frequency: the test of both searches. -/
def partialBelow (f r : Word) (k : Int) : Bool := flt32 (fmul32 f (i2f32 k)) (nyquist r)

theorem flt32_of_fle32_of_flt32 {a b c : Word} (h : fle32 a b = true) (h' : flt32 b c = true) : flt32 a c = true := by
  obtain ⟨ha, _, hle⟩ := fle32_iff.mp h
  obtain ⟨_, hc, hlt⟩ := flt32_iff.mp h'
  exact flt32_iff.mpr ⟨ha, hc, hle.trans_lt hlt⟩

section
variable {f r : Word} (hf : isFinite32 f = true) (hfpos : flt32 fZero f = true)
include hf hfpos

/-- A higher factor gives a partial that is at least as high. -/
theorem fle32_partial {j k : Int} (hj : -1 ≤ j) (hjk : j ≤ k) (hk : k ≤ 131071) :
    fle32 (fmul32 f (i2f32 j)) (fmul32 f (i2f32 k)) = true := by
  obtain ⟨hjfin, hjval⟩ := integersConvertExactly j hj (hjk.trans hk)
  obtain ⟨hkfin, hkval⟩ := integersConvertExactly k (hj.trans hjk) hk
  refine fle32_iff.mpr ⟨isNaN32_fmul32 hf hjfin, isNaN32_fmul32 hf hkfin, ?_⟩
  rw [value32_fmul32 hf hjfin, value32_fmul32 hf hkfin, hjval, hkval]
  have hfactor : j * 2 ^ 149 ≤ k * 2 ^ 149 := by omega
  exact roundRatio_mono (Nat.two_pow_pos _) (mul_le_mul_of_nonneg_left hfactor (pos_of_flt32 hfpos).le)

theorem partialBelow_of_le {j k : Int} (hj : -1 ≤ j) (hjk : j ≤ k) (hk : k ≤ 131071) (h : partialBelow f r k = true) :
    partialBelow f r j = true :=
  flt32_of_fle32_of_flt32 (fle32_partial hf hfpos hj hjk hk) h

/-- The candidate -1, with which the odd search starts, is below zero and so below Nyquist. -/
theorem partialBelow_negOne (hr : isFinite32 r = true) (hrpos : flt32 fZero r = true) : partialBelow f r (-1) = true := by
  have htwo : isFinite32 fTwo = true := by decide
  have hnyquist : isNaN32 (nyquist r) = false := isNaN32_fdiv32 (not_isNaN32_of_isFinite32 hr) htwo (by decide)
  have hnonneg : 0 ≤ value32 (nyquist r) := by
    have := pos_of_flt32 hrpos
    rw [nyquist, value32_fdiv32 hr htwo (by decide)]
    exact roundRatio_nonneg (by omega)
  obtain ⟨hfin, hval⟩ := integersConvertExactly (-1) le_rfl (by decide)
  have hneg : value32 (fmul32 f (i2f32 (-1))) = -value32 f := by
    have hunit : value32 f * (-1 * 2 ^ 149) = -(value32 f * (2 ^ 149 : Nat)) := by push_cast; ring
    rw [value32_fmul32 hf hfin, hval, hunit, roundRatio_neg (Nat.two_pow_pos _), value32,
      roundRatio_exact (Nat.two_pow_pos _) (not_isNaN32_of_isFinite32 hf)]
  refine flt32_iff.mpr ⟨isNaN32_fmul32 hf hfin, hnyquist, ?_⟩
  have := pos_of_flt32 hfpos
  omega

end

/-! ### The searches (41_bandlimited.md R104, R106) -/

/-- Where the test holds below wherever it holds, the search fails exactly when the last candidate passes it. -/
theorem harmonicSearch_eq_none_iff {below : Nat → Bool} {left : Nat}
    (hdown : ∀ j, j ≤ left → below left = true → below j = true) :
    harmonicSearch below left 0 = none ↔ below left = true := by
  have hspec := harmonicSearch_spec below left 0
  cases hs : harmonicSearch below left 0 with
  | none =>
    rw [hs] at hspec
    exact ⟨fun _ => hspec left (Nat.zero_le _) (Nat.zero_add left).ge, fun _ => rfl⟩
  | some n =>
    rw [hs] at hspec
    obtain ⟨_, hn, hfalse, _⟩ := hspec
    refine ⟨nofun, fun hlast => ?_⟩
    rw [hdown n (by omega) hlast] at hfalse
    cases hfalse

theorem feq32_fZero_of_pos {f : Word} (h : flt32 fZero f = true) : feq32 f fZero = false := by
  refine Bool.eq_false_iff.mpr fun heq => ?_
  obtain ⟨_, _, hval⟩ := feq32_iff.mp heq
  have := pos_of_flt32 h
  rw [value32_fZero] at hval
  omega

theorem autohSaw_positive {f : Word} (r : Word) (h : flt32 fZero f = true) :
    autohSaw f r = harmonicSearch (fun n => partialBelow f r (n + 1)) 65535 0 := by
  have hneg : flt32 f fZero = false := flt32_false_of_fle32 (fle32_of_flt32 h)
  rw [autohSaw, if_neg (Bool.eq_false_iff.mp (feq32_fZero_of_pos h)), if_neg (Bool.eq_false_iff.mp hneg)]
  rfl

theorem autohOdd_positive {f : Word} (r : Word) (h : flt32 fZero f = true) :
    autohOdd f r = (harmonicSearch (fun n => partialBelow f r (2 * (n : Int) - 1)) 65535 0).map (fun n => n - 1) := by
  have hneg : flt32 f fZero = false := flt32_false_of_fle32 (fle32_of_flt32 h)
  rw [autohOdd, if_neg (Bool.eq_false_iff.mp (feq32_fZero_of_pos h)), if_neg (Bool.eq_false_iff.mp hneg)]
  rfl

section
variable {f r : Word} (hf : isFinite32 f = true) (hfpos : flt32 fZero f = true)
include hf hfpos

theorem autohSaw_eq_none_iff : autohSaw f r = none ↔ partialBelow f r 65536 = true := by
  rw [autohSaw_positive r hfpos]
  exact harmonicSearch_eq_none_iff fun j hj => partialBelow_of_le hf hfpos (by omega) (by omega) (by decide)

theorem autohOdd_eq_none_iff : autohOdd f r = none ↔ partialBelow f r 131069 = true := by
  rw [autohOdd_positive r hfpos, Option.map_eq_none_iff]
  exact harmonicSearch_eq_none_iff fun j hj => partialBelow_of_le hf hfpos (by omega) (by omega) (by decide)

end

/-- Settles O19: the search stops at the first count whose next partial is not below Nyquist, and no higher partial is. -/
theorem sawCountIsTheLargest : Obligations.SawCountIsTheLargest := by
  unfold Obligations.SawCountIsTheLargest
  intro f r hf hfpos _ _
  refine ⟨fun h hh => ?_, autohSaw_eq_none_iff hf hfpos⟩
  have hspec := harmonicSearch_spec (fun n => partialBelow f r (n + 1)) 65535 0
  rw [autohSaw_positive r hfpos] at hh
  rw [hh] at hspec
  obtain ⟨_, hle, hnext, hbelow⟩ := hspec
  refine ⟨by omega, fun hne => ?_, fun k hlt hk => Bool.eq_false_iff.mpr fun habove => ?_⟩
  · have hprev : partialBelow f r ((h - 1 : Nat) + 1) = true := hbelow (h - 1) (Nat.zero_le _) (by omega)
    have hcast : ((h - 1 : Nat) : Int) + 1 = h := by omega
    rwa [hcast] at hprev
  · have : partialBelow f r (h + 1) = true := partialBelow_of_le hf hfpos (by omega) (by omega) (by omega) habove
    rw [this] at hnext
    cases hnext

/-- Settles O20: the search passes the candidate -1 and stops one past the count, at the first odd harmonic not below Nyquist. -/
theorem oddCountBounds : Obligations.OddCountBounds := by
  unfold Obligations.OddCountBounds
  intro f r hf hfpos hr hrpos
  refine ⟨fun h hh => ?_, autohOdd_eq_none_iff hf hfpos⟩
  have hspec := harmonicSearch_spec (fun n => partialBelow f r (2 * (n : Int) - 1)) 65535 0
  rw [autohOdd_positive r hfpos, Option.map_eq_some_iff] at hh
  obtain ⟨n, hn, rfl⟩ := hh
  rw [hn] at hspec
  obtain ⟨_, hle, hnext, hbelow⟩ := hspec
  have hpos : n ≠ 0 := by
    rintro rfl
    have := partialBelow_negOne hf hfpos hr hrpos
    simp [this] at hnext
  refine ⟨by omega, fun hne => hbelow (n - 1) (Nat.zero_le _) (by omega), ?_⟩
  have hcast : 2 * ((n - 1 : Nat) : Int) + 1 = 2 * n - 1 := by omega
  rw [hcast]
  exact hnext

/-! ### HarmonicRange (60_exceptions.md R154) -/

/-- Settles O44: a negative frequency or a last candidate still below Nyquist gives no count; and of the commands only a band-limited one
without a count responds with status 3. -/
theorem harmonicRangeFault : Obligations.HarmonicRangeFault := by
  unfold Obligations.HarmonicRangeFault
  refine ⟨fun pr f r s hf hr hpos hp => ?_, fun i s t a h hresp hst => ?_⟩
  · have hd : domainOK f r (s.phase pr) = true := domainOK_iff.mpr ⟨hf, hr, hpos, hp⟩
    have hfault {auto : Option Nat} {sample : Nat → Word → Word} (hauto : auto = none) :
        advanceBandlimited pr f r (harmonicCount 0 auto) sample s = .next (s.raise .harmonicRange) := by
      rw [harmonicCount_auto, hauto, advanceBandlimited_range hd]
    rw [← raise_harmonicRange]
    constructor
    · rintro (hneg | ⟨hfpos, hbelow⟩)
      · exact hfault (autohSaw_negative r hneg)
      · exact hfault ((autohSaw_eq_none_iff hf hfpos).mpr hbelow)
    · rintro (hneg | ⟨hfpos, hbelow⟩)
      · exact ⟨hfault (autohOdd_negative r hneg), hfault (autohOdd_negative r hneg)⟩
      · have hnone := (autohOdd_eq_none_iff hf hfpos).mpr hbelow
        exact ⟨hfault hnone, hfault hnone⟩
  · have hauto {hc : Nat} {auto : Option Nat} {sample : Nat → Word → Word} {pr : Fin 16} {f r : Word}
        (h : advanceBandlimited pr f r (harmonicCount hc auto) sample s = .next t) : hc = 0 := by
      rcases advanceBandlimited_st h hresp with ⟨_, _, hok⟩ | ⟨_, hnone, _⟩ | ⟨_, hop⟩
      · simp [hst] at hok
      · by_contra hne
        exact harmonicCount_ne_none (.inl hne) hnone
      · simp [hst] at hop
    cases i with
    | advsin pr f r | advsqr pr f r | advsaw pr f r | advtri pr f r =>
      rcases advance_st h hresp with ⟨_, hst'⟩ | ⟨_, hst'⟩ <;> simp [hst] at hst'
    | advblsaw pr hc f r =>
      obtain rfl := hauto h
      exact ⟨pr, f, r, .inl rfl⟩
    | advblsqr pr hc f r =>
      obtain rfl := hauto h
      exact ⟨pr, f, r, .inr (.inl rfl)⟩
    | advbltri pr hc f r =>
      obtain rfl := hauto h
      exact ⟨pr, f, r, .inr (.inr rfl)⟩
    | enc8 x | enc16 x | enc32 x =>
      simp only [exec_enc8, exec_enc16, exec_enc32] at h
      rcases encodeSample_st h hresp with ⟨_, hst'⟩ | ⟨_, hst'⟩ <;> simp [hst] at hst'
    | phwr _ _ | phrd _ | rdfs =>
      obtain rfl := next_inj.mp h
      obtain rfl : _ = a := Option.some.inj hresp
      cases hst

/-! ### A zero frequency (40_nco_sine_naive.md R89) -/

/-- The zeros are two words. -/
theorem zero_eq {a : Word} (h : value32 a = 0) : a = 0x00000000 ∨ a = 0x80000000 := by
  have hmag : (unpack32 a).mag = 0 := by
    have hval := value32_eq_magValue h.ge
    rw [h] at hval
    exact (magValue_eq_zero_iff binary32).mp (by omega)
  have hbits : unpack32 a = ⟨(unpack32 a).neg, 0⟩ := by rw [← hmag]
  cases hneg : (unpack32 a).neg with
  | false => exact .inl (unpack32_injective (hbits.trans (by rw [hneg]; decide)))
  | true => exact .inr (unpack32_injective (hbits.trans (by rw [hneg]; decide)))

theorem zero_of_feq32 {f : Word} (h : feq32 f fZero = true) : f = 0x00000000 ∨ f = 0x80000000 := by
  obtain ⟨_, _, hval⟩ := feq32_iff.mp h
  exact zero_eq (hval.trans value32_fZero)

/-- A zero divided by a number above zero is that zero. -/
theorem fdiv32_zero {f r : Word} (hf : f = 0x00000000 ∨ f = 0x80000000) (hr : isFinite32 r = true)
    (hpos : flt32 fZero r = true) : fdiv32 f r = f := by
  have hNr : isNaNBits binary32 (unpack32 r) = false := not_isNaN32_of_isFinite32 hr
  have hmag := unpack32_mag_ne_zero_of_pos hpos
  have hneg := unpack32_neg_of_pos (pos_of_flt32 hpos)
  have hround : roundMag binary32 0 (magValue binary32 (unpack32 r).mag) = 0 :=
    roundMag_zero _ (Nat.pos_of_ne_zero fun h => hmag ((magValue_eq_zero_iff _).mp h))
  have hbits : ∃ neg, unpack32 f = ⟨neg, 0⟩ := by
    rcases hf with rfl | rfl
    exacts [⟨false, by decide⟩, ⟨true, by decide⟩]
  obtain ⟨neg, hbits⟩ := hbits
  have hinf : isInfBits binary32 ⟨neg, 0⟩ = false := by cases neg <;> decide
  refine unpack32_injective ?_
  rw [unpack32_fdiv32, hbits, divBits]
  simp [hNr, hinf, isInfBits_of_isFinite32 hr, hmag, hneg, hround]

theorem radianInc_zero {f r : Word} (hf : f = 0x00000000 ∨ f = 0x80000000) (hr : isFinite32 r = true)
    (hpos : flt32 fZero r = true) : radianInc f r = f := by
  have hmul : fmul32 twoPi f = f := by rcases hf with rfl | rfl <;> decide
  rw [radianInc, hmul, fdiv32_zero hf hr hpos]

/-- The phase that a zero frequency leaves: the stored one, but +0 for -0 under +0. -/
def heldPhase (f p0 : Word) : Word := if f = 0x00000000 ∧ p0 = 0x80000000 then 0x00000000 else p0

/-- Adding a zero keeps a finite word, but for the sign of a zero (00_scope.md R8). -/
theorem fadd32_zero {f p0 : Word} (hf : f = 0x00000000 ∨ f = 0x80000000) (hp : isFinite32 p0 = true) :
    fadd32 p0 f = heldPhase f p0 := by
  by_cases hzero : value32 p0 = 0
  · rcases hf with rfl | rfl <;> rcases zero_eq hzero with rfl | rfl <;> decide
  · have hkeep : heldPhase f p0 = p0 := if_neg fun ⟨_, hp0⟩ => hzero (by rw [hp0]; decide)
    have hffin : isFinite32 f = true := by rcases hf with rfl | rfl <;> decide
    have hfval : bitsValue binary32 (unpack32 f) = 0 := by rcases hf with rfl | rfl <;> decide
    have hNp : isNaNBits binary32 (unpack32 p0) = false := not_isNaN32_of_isFinite32 hp
    have hNf : isNaNBits binary32 (unpack32 f) = false := not_isNaN32_of_isFinite32 hffin
    rw [hkeep]
    refine unpack32_injective ?_
    rw [value32] at hzero
    simp only [unpack32_fadd32, addBits, hNp, hNf, isInfBits_of_isFinite32 hp, isInfBits_of_isFinite32 hffin, hfval,
      Bool.or_self, Bool.false_eq_true, if_false, add_zero, hzero]
    generalize unpack32 p0 = x at *
    obtain ⟨neg, k⟩ := x
    have hk : k ≤ infMag binary32 := by simpa [isNaNBits] using hNp
    have hround : roundMag binary32 (magValue binary32 k) 1 = k := by
      rw [← Nat.mul_one (magValue binary32 k)]
      exact roundMag_magValue _ hk Nat.one_pos
    cases neg with
    | false => simp [bitsValue, hround]
    | true =>
      have hpos : 0 < magValue binary32 k := by
        simp only [bitsValue] at hzero
        omega
      simp [bitsValue, hround, hpos]

theorem heldPhase_heldPhase (f p0 : Word) : heldPhase f (heldPhase f p0) = heldPhase f p0 := by
  unfold heldPhase
  split
  · simp
  · simp

/-- The held phase is in range where the stored one is, and the loop returns it at once. -/
theorem heldPhase_inRange {m f p0 : Word} (h : InRange m p0) (hm : flt32 fZero m = true) : InRange m (heldPhase f p0) := by
  unfold heldPhase
  split
  · exact ⟨by decide, hm⟩
  · exact h

theorem wrap_of_inRange {m p : Word} (h : InRange m p) : wrap p m = some p := by
  obtain ⟨_, hp, h0⟩ := fle32_iff.mp h.1
  obtain ⟨_, _, hlt⟩ := flt32_iff.mp h.2
  rw [value32_fZero] at h0
  exact wrap_of_done (wrapPass_of_inRange hp h0 hlt)

theorem isFinite32_of_inRange {m p : Word} (hm : isFinite32 m = true) (h : InRange m p) : isFinite32 p = true :=
  (h.within hm).finite

section
variable {pr : Fin 16} {f r : Word} {s : State} (hf : f = 0x00000000 ∨ f = 0x80000000) (hr : isFinite32 r = true)
  (hpos : flt32 fZero r = true)
include hf hr hpos

/-- With a zero increment and the phase in range the end of an advance command commits the held phase. -/
theorem finishAdvance_zero {m : Word} (sample : Word → Word) (hmfin : isFinite32 m = true) (hm : flt32 fZero m = true)
    (hrange : InRange m (s.phase pr)) :
    domainOK f r (s.phase pr) = true ∧
    finishAdvance pr (fadd32 (s.phase pr) f) m sample s =
      .next (s.commit pr (heldPhase f (s.phase pr)) (sample (heldPhase f (s.phase pr)))) := by
  have hp := isFinite32_of_inRange hmfin hrange
  have hffin : isFinite32 f = true := by rcases hf with rfl | rfl <;> decide
  refine ⟨domainOK_iff.mpr ⟨hffin, hr, hpos, hp⟩, ?_⟩
  rw [fadd32_zero hf hp]
  exact finishAdvance_some (wrap_of_inRange (heldPhase_inRange hrange hm))

theorem advance_unit_zero (sample : Word → Word) (hrange : InRange fOne (s.phase pr)) :
    advance pr f r (unitInc f r) fOne sample s =
      .next (s.commit pr (heldPhase f (s.phase pr)) (sample (heldPhase f (s.phase pr)))) := by
  obtain ⟨hd, hfinish⟩ := finishAdvance_zero hf hr hpos sample (by decide) (by decide) hrange
  rw [advance_ok hd, unitInc, fdiv32_zero hf hr hpos, hfinish]

theorem advance_radian_zero (sample : Word → Word) (hrange : InRange twoPi (s.phase pr)) :
    advance pr f r (radianInc f r) twoPi sample s =
      .next (s.commit pr (heldPhase f (s.phase pr)) (sample (heldPhase f (s.phase pr)))) := by
  obtain ⟨hd, hfinish⟩ := finishAdvance_zero hf hr hpos sample (by decide) (by decide) hrange
  rw [advance_ok hd, radianInc_zero hf hr hpos, hfinish]

/-- The band-limited commands have the automatic count 0, or their explicit one. -/
theorem advanceBandlimited_zero {auto : Option Nat} (hauto : auto = some 0) (hc : Nat) (sample : Nat → Word → Word)
    (hrange : InRange twoPi (s.phase pr)) :
    advanceBandlimited pr f r (harmonicCount hc auto) sample s =
      .next (s.commit pr (heldPhase f (s.phase pr)) (sample hc (heldPhase f (s.phase pr)))) := by
  obtain ⟨hd, hfinish⟩ := finishAdvance_zero hf hr hpos (sample hc) (by decide) (by decide) hrange
  have hcount : harmonicCount hc auto = some hc := by
    by_cases hz : hc = 0
    · rw [hz, harmonicCount_auto, hauto]
    · exact harmonicCount_explicit auto hz
  rw [hcount, advanceBandlimited_ok hd, radianInc_zero hf hr hpos, hfinish]

/-- Each advance command commits the held phase and a sample of it, whatever the state. -/
theorem exec_zero_frequency {i : Instr} {hc : Nat} (hi : i ∈ advanceCommands pr hc f r) :
    ∃ sample : Word → Word, ∀ s : State, InRange (period i) (s.phase pr) →
      exec i s = .next (s.commit pr (heldPhase f (s.phase pr)) (sample (heldPhase f (s.phase pr)))) := by
  have hzero : feq32 f fZero = true := by rcases hf with rfl | rfl <;> decide
  simp only [advanceCommands, List.mem_cons, List.not_mem_nil, or_false] at hi
  rcases hi with rfl | rfl | rfl | rfl | rfl | rfl | rfl
  · exact ⟨_, fun s => advance_radian_zero hf hr hpos sin32⟩
  · exact ⟨_, fun s => advance_unit_zero hf hr hpos squareSample⟩
  · exact ⟨_, fun s => advance_unit_zero hf hr hpos sawSample⟩
  · exact ⟨_, fun s => advance_unit_zero hf hr hpos triangleSample⟩
  · exact ⟨_, fun s => advanceBandlimited_zero hf hr hpos (autohOdd_zero r hzero) hc blSquareSample⟩
  · exact ⟨_, fun s => advanceBandlimited_zero hf hr hpos (autohSaw_zero r hzero) hc blSawSample⟩
  · exact ⟨_, fun s => advanceBandlimited_zero hf hr hpos (autohOdd_zero r hzero) hc blTriangleSample⟩

end

/-- Every command has one of the two periods. -/
theorem period_eq_or (i : Instr) : period i = twoPi ∨ period i = fOne := by
  cases i with
  | advsin _ _ _ | advblsqr _ _ _ _ | advblsaw _ _ _ _ | advbltri _ _ _ _ => exact .inl rfl
  | advsqr _ _ _ | advsaw _ _ _ | advtri _ _ _ | enc8 _ | enc16 _ | enc32 _ | phwr _ _ | phrd _ | rdfs => exact .inr rfl

theorem flt32_fZero_period (i : Instr) : flt32 fZero (period i) = true := by
  rcases period_eq_or i with h | h <;> rw [h] <;> decide

/-- Committing twice the same is committing once. -/
theorem commit_commit (s : State) (pr : Fin 16) (p1 x : Word) : (s.commit pr p1 x).commit pr p1 x = s.commit pr p1 x := by
  simp [commit_eq]

/-- The commit of the held phase, as the statement writes it. -/
theorem commit_heldPhase (s : State) (pr : Fin 16) (f x : Word) :
    s.commit pr (heldPhase f (s.phase pr)) x =
      { s with
        p := if f = 0x00000000 ∧ s.phase pr = 0x80000000 then s.p.set pr 0x00000000 else s.p
        busy := false
        resp := some ⟨0, 4, x⟩ } := by
  have hself : s.p.set pr (s.phase pr) = s.p := congrArg State.p (setPhase_phase_eq s pr)
  rw [commit_eq, heldPhase]
  split
  · rfl
  · rw [hself]

theorem blSquareSample_zero (p1 : Word) : blSquareSample 0 p1 = fZero := by
  have : fmul32 fZero kSqr = fZero := by decide
  exact this

theorem blSawSample_zero (p1 : Word) : blSawSample 0 p1 = fZero := by
  have : fmul32 fZero kSaw = fZero := by decide
  exact this

theorem blTriangleSample_zero (p1 : Word) : blTriangleSample 0 p1 = fZero := by
  have : fmul32 fZero kTri = fZero := by decide
  exact this

/-- Settles O15: a zero increment is added to a phase in range, so the loop returns at once with the held phase; the command issued
again finds that phase, holds it and commits the same. -/
theorem zeroFrequencyHoldsThePhase : Obligations.ZeroFrequencyHoldsThePhase := by
  unfold Obligations.ZeroFrequencyHoldsThePhase
  intro pr hc f r s hzero hr hpos
  have hf := zero_of_feq32 hzero
  simp only [← commit_heldPhase]
  refine ⟨fun hp => ?sine, fun hrange => ⟨?sin, ?auto, ?explicit⟩, fun hrange => ⟨?_, ?_, ?_⟩, fun i hi t hrange h => ?again⟩
  case sine =>
    have hheld : heldPhase f (s.phase pr) = 0x00000000 ∨ heldPhase f (s.phase pr) = 0x80000000 := by
      rw [hp]
      rcases hf with rfl | rfl <;> decide
    exact if_pos hheld
  case sin => exact advance_radian_zero hf hr hpos sin32 hrange
  case auto =>
    rintro rfl i hi
    simp only [List.mem_cons, List.not_mem_nil, or_false] at hi
    rcases hi with rfl | rfl | rfl
    · rw [exec_advblsqr, advanceBandlimited_zero hf hr hpos (autohOdd_zero r hzero) 0 _ hrange, blSquareSample_zero]
      rfl
    · rw [exec_advblsaw, advanceBandlimited_zero hf hr hpos (autohSaw_zero r hzero) 0 _ hrange, blSawSample_zero]
      rfl
    · rw [exec_advbltri, advanceBandlimited_zero hf hr hpos (autohOdd_zero r hzero) 0 _ hrange, blTriangleSample_zero]
      rfl
  case explicit =>
    intro _
    exact ⟨advanceBandlimited_zero hf hr hpos (autohOdd_zero r hzero) hc _ hrange,
      advanceBandlimited_zero hf hr hpos (autohSaw_zero r hzero) hc _ hrange,
      advanceBandlimited_zero hf hr hpos (autohOdd_zero r hzero) hc _ hrange⟩
  case again =>
    obtain ⟨sample, hexec⟩ := exec_zero_frequency hf hr hpos hi
    obtain rfl := next_inj.mp ((hexec s hrange).symm.trans h)
    have hagain := hexec (s.commit pr (heldPhase f (s.phase pr)) (sample (heldPhase f (s.phase pr))))
      (by rw [commit_phase_self]; exact heldPhase_inRange hrange (flt32_fZero_period i))
    rwa [commit_phase_self, heldPhase_heldPhase, commit_commit] at hagain
  · exact advance_unit_zero hf hr hpos squareSample hrange
  · exact advance_unit_zero hf hr hpos sawSample hrange
  · exact advance_unit_zero hf hr hpos triangleSample hrange

end Sys2Proof.Machine
end

section
/-! PROOFS. The PCM codes (42_pcm_encoder.md R122 to R127). A code is the one nearest integer to the clamped scaled sample; scaling,
clamping and rounding each keep order, and where a sample is infinite its code is an end code. -/

namespace Sys2Proof.Machine

/-! ### The nearest integer (00_scope.md R14) -/

/-- Nearest integers are ordered as what they are nearest to. Two out of order would both lie half-way, next to each other, and one of
them nearer to zero than the value. -/
theorem nearest_mono {u : Nat} {v v' n n' : Int} (h : NearestAwayFromZero u v n) (h' : NearestAwayFromZero u v' n')
    (hle : v ≤ v') : n ≤ n' := by
  obtain ⟨hnear, htie⟩ := h
  obtain ⟨hnear', htie'⟩ := h'
  have hpos : (0 : Int) < 2 ^ u := by positivity
  by_contra hlt
  have hstep : (n' + 1) * 2 ^ u ≤ n * 2 ^ u := mul_le_mul_of_nonneg_right (by omega) hpos.le
  rw [add_mul, one_mul] at hstep
  have hhalf : 2 * (n * 2 ^ u - v) ≤ 2 ^ u := by have := neg_abs_le (v - n * 2 ^ u); linarith
  have hhalf' : 2 * (v' - n' * 2 ^ u) ≤ 2 ^ u := by have := le_abs_self (v' - n' * 2 ^ u); linarith
  have hv : 2 * v = 2 * (n' * 2 ^ u) + 2 ^ u := by linarith
  have hv' : 2 * v' = 2 * (n' * 2 ^ u) + 2 ^ u := by linarith
  have hn : n * 2 ^ u = n' * 2 ^ u + 2 ^ u := by linarith
  have haway : |v| < |n * 2 ^ u| := by
    rw [abs_mul, abs_of_pos hpos]
    refine htie ?_
    rw [abs_of_nonpos (by linarith)]
    linarith
  have haway' : |v'| < |n' * 2 ^ u| := by
    rw [abs_mul, abs_of_pos hpos]
    refine htie' ?_
    rw [abs_of_nonneg (by linarith)]
    linarith
  rcases le_or_gt 0 n' with h0 | hneg
  · have hb : 0 ≤ n' * 2 ^ u := mul_nonneg h0 hpos.le
    rw [abs_of_nonneg hb, abs_of_nonneg (by linarith)] at haway'
    linarith
  · have ha : (n' + 1) * 2 ^ u ≤ 0 := mul_nonpos_of_nonpos_of_nonneg (by omega) hpos.le
    rw [add_mul, one_mul, ← hn] at ha
    rw [abs_of_nonpos ha, abs_of_nonpos (by linarith)] at haway
    linarith

theorem nearest_unique {u : Nat} {v n n' : Int} (h : NearestAwayFromZero u v n) (h' : NearestAwayFromZero u v n') : n = n' :=
  le_antisymm (nearest_mono h h' le_rfl) (nearest_mono h' h le_rfl)

theorem nearest_exact (u : Nat) (n : Int) : NearestAwayFromZero u (n * 2 ^ u) n := by
  have hpos : (0 : Int) < 2 ^ u := by positivity
  refine ⟨by simp [hpos.le], fun htie => ?_⟩
  simp only [sub_self, abs_zero, mul_zero] at htie
  omega

/-- The rounding of the encoders finds the nearest integer. -/
theorem nearest_rhaBits (F : FloatFormat) (x : FloatBits) : NearestAwayFromZero (unitExp F) (bitsValue F x) (rhaBits F x) := by
  have hcore (v : Nat) : ∃ q : Nat, (2 * v + 2 ^ unitExp F) / 2 ^ (unitExp F + 1) = q ∧
      NearestAwayFromZero (unitExp F) v q := by
    have hpos : 0 < 2 ^ (unitExp F + 1) := Nat.two_pow_pos _
    have hdm := Nat.div_add_mod (2 * v + 2 ^ unitExp F) (2 ^ (unitExp F + 1))
    have hlt := Nat.mod_lt (2 * v + 2 ^ unitExp F) hpos
    generalize (2 * v + 2 ^ unitExp F) / 2 ^ (unitExp F + 1) = q at *
    generalize (2 * v + 2 ^ unitExp F) % 2 ^ (unitExp F + 1) = rest at *
    have hcast : (2 : Int) ^ unitExp F = (2 ^ unitExp F : Nat) := by push_cast; rfl
    have hmul : 2 ^ (unitExp F + 1) * q = 2 * (q * 2 ^ unitExp F) := by ring
    refine ⟨q, rfl, ?_⟩
    rw [NearestAwayFromZero, hcast, ← Nat.cast_mul, Nat.abs_cast, Nat.abs_cast]
    rw [hmul] at hdm
    rw [Nat.pow_succ] at hlt
    generalize 2 ^ unitExp F = U at *
    have hcases := abs_cases ((v : Int) - (q * U : Nat))
    exact ⟨by omega, fun htie => by rw [← Nat.cast_mul]; omega⟩
  obtain ⟨q, hq, hnear, htie⟩ := hcore (magValue F x.mag)
  rw [rhaBits, hq, bitsValue]
  split
  · have hneg : -(magValue F x.mag : Int) - -(q : Int) * 2 ^ unitExp F = -((magValue F x.mag : Int) - q * 2 ^ unitExp F) := by
      ring
    rw [NearestAwayFromZero, hneg, abs_neg, abs_neg, abs_neg]
    exact ⟨hnear, htie⟩
  · exact ⟨hnear, htie⟩

theorem nearest_rha32 (v : Word) : NearestAwayFromZero 149 (value32 v) (rha32 v) := nearest_rhaBits binary32 (unpack32 v)

theorem nearest_rha64 (v : DWord) : NearestAwayFromZero 1074 (value64 v) (rha64 v) := nearest_rhaBits binary64 (unpack64 v)

/-! ### Clamping (00_scope.md R14) -/

/-- Clamping a number clamps its value. -/
theorem value32_clamp32 {v lo hi : Word} (hv : isNaN32 v = false) (hlo : isNaN32 lo = false) (hhi : isNaN32 hi = false)
    (hle : value32 lo ≤ value32 hi) : value32 (clamp32 v lo hi) = max (value32 lo) (min (value32 v) (value32 hi)) := by
  have hbelow : flt32 v lo = true ↔ value32 v < value32 lo := by simp [flt32_iff, hv, hlo]
  have habove : flt32 hi v = true ↔ value32 hi < value32 v := by simp [flt32_iff, hv, hhi]
  simp only [clamp32, hbelow, habove]
  split_ifs <;> omega

theorem flt64_iff {a b : DWord} :
    flt64 a b = true ↔ isNaN64 a = false ∧ isNaN64 b = false ∧ value64 a < value64 b := by
  simp [flt64, ltBits, isNaN64, value64, and_assoc]

theorem value64_clamp64 {v lo hi : DWord} (hv : isNaN64 v = false) (hlo : isNaN64 lo = false) (hhi : isNaN64 hi = false)
    (hle : value64 lo ≤ value64 hi) : value64 (clamp64 v lo hi) = max (value64 lo) (min (value64 v) (value64 hi)) := by
  have hbelow : flt64 v lo = true ↔ value64 v < value64 lo := by simp [flt64_iff, hv, hlo]
  have habove : flt64 hi v = true ↔ value64 hi < value64 v := by simp [flt64_iff, hv, hhi]
  simp only [clamp64, hbelow, habove]
  split_ifs <;> omega

/-! ### The scaled samples (42_pcm_encoder.md R122, R124, R126) -/

/-- The sample scaled for 8 bits (R122). -/
def scaled8 (x : Word) : Word := fmul32 (fadd32 x fOne) f127p5

/-- The sample scaled for 16 bits (R124, R125). -/
def scaled16 (x : Word) : Word := if flt32 x fZero then fmul32 x f32768 else fmul32 x f32767

/-- The sample scaled for 32 bits, in binary64 (R126). -/
def scaled32 (x : Word) : DWord :=
  if flt32 x fZero then fmul64 (f32to64 x) d2147483648 else fmul64 (f32to64 x) d2147483647

/-- A number is finite or one of the two infinities. -/
theorem number_cases {x : Word} (h : isNaN32 x = false) : isFinite32 x = true ∨ x = 0x7F800000 ∨ x = 0xFF800000 := by
  cases hfin : isFinite32 x with
  | true => exact .inl rfl
  | false => exact .inr (infinite_eq h hfin)

/-- Adding 1.0 does not overflow: the sum is less than half a gap above the largest finite value. -/
theorem isFinite32_fadd32_fOne {x : Word} (hx : isFinite32 x = true) : isFinite32 (fadd32 x fOne) = true := by
  have hone : value32 fOne = 2 ^ 149 := by decide
  have hsucc : infMag binary32 - 1 + 1 = infMag binary32 := by decide
  have hmax : magValue binary32 (infMag binary32) = magValue binary32 (infMag binary32 - 1) + 2 ^ 253 := by decide
  have hle : |value32 x| ≤ magValue binary32 (infMag binary32 - 1) := by
    have hmag : (unpack32 x).mag < infMag binary32 := of_decide_eq_true hx
    rw [abs_value32, Nat.cast_le, magValue_le_iff]
    omega
  obtain ⟨hlo, hhi⟩ := abs_le.mp hle
  have hround : roundMag binary32 (value32 x + 2 ^ 149).natAbs 1 ≤ infMag binary32 - 1 := by
    refine roundMag_le_of_lt_midpoint binary32 Nat.one_pos (by decide) ?_
    rw [hsucc, hmax]
    omega
  rw [isFinite32_iff_abs_value32, value32_fadd32 hx isFinite32_fOne, hone, roundRatio, abs_bitsValue, Nat.cast_lt,
    magValue_lt_iff]
  exact hround.trans_lt (show infMag binary32 - 1 < infMag binary32 by decide)

/-! ### Scaling keeps order -/

/-- Scaling by one factor below zero and by another from zero on keeps order, neither factor being negative. -/
theorem roundRatio_scale_mono (F : FloatFormat) {c d v w : Int} {den : Nat} (hd : 0 < den) (hc : 0 ≤ c) (hd' : 0 ≤ d)
    (h : v ≤ w) :
    (if v < 0 then roundRatio F (v * c) den else roundRatio F (v * d) den) ≤
      if w < 0 then roundRatio F (w * c) den else roundRatio F (w * d) den := by
  rcases lt_or_ge v 0 with hv | hv
  · rcases lt_or_ge w 0 with hw | hw
    · rw [if_pos hv, if_pos hw]
      exact roundRatio_mono hd (mul_le_mul_of_nonneg_right h hc)
    · rw [if_pos hv, if_neg hw.not_gt]
      exact roundRatio_mono hd ((mul_nonpos_of_nonpos_of_nonneg hv.le hc).trans (mul_nonneg hw hd'))
  · rw [if_neg hv.not_gt, if_neg (hv.trans h).not_gt]
    exact roundRatio_mono hd (mul_le_mul_of_nonneg_right h hd')

/-- The sign test of the wider encoders, on a number. -/
theorem flt32_fZero_iff {x : Word} (h : isNaN32 x = false) : flt32 x fZero = true ↔ value32 x < 0 := by
  have hzero : isNaN32 fZero = false := by decide
  simp [flt32_iff, h, hzero]

section
variable {x : Word} (hx : isFinite32 x = true)
include hx

theorem value32_scaled8 :
    value32 (scaled8 x) =
      roundRatio binary32 (roundRatio binary32 (value32 x + value32 fOne) 1 * value32 f127p5) (2 ^ 149) := by
  rw [scaled8, value32_fmul32 (isFinite32_fadd32_fOne hx) (by decide), value32_fadd32 hx isFinite32_fOne]

theorem value32_scaled16 :
    value32 (scaled16 x) =
      if value32 x < 0 then roundRatio binary32 (value32 x * value32 f32768) (2 ^ 149)
      else roundRatio binary32 (value32 x * value32 f32767) (2 ^ 149) := by
  rw [scaled16]
  simp only [flt32_fZero_iff (not_isNaN32_of_isFinite32 hx)]
  split
  · exact value32_fmul32 hx (by decide)
  · exact value32_fmul32 hx (by decide)

end

/-- A product of finite binary64 words is a number, the exact product rounded. -/
theorem fmul64_of_finite {a b : DWord} (ha : isFinite64 a = true) (hb : isFinite64 b = true) :
    isNaN64 (fmul64 a b) = false ∧ value64 (fmul64 a b) = roundRatio binary64 (value64 a * value64 b) (2 ^ 1074) := by
  have hbits := mulBits_of_finite ha hb
  have hunpack : unpack64 (fmul64 a b) = mulBits binary64 (unpack64 a) (unpack64 b) := by
    refine unpack64_pack64 _ ?_
    rw [hbits]
    exact (roundMag_le_infMag ..).trans_lt (by decide)
  constructor
  · rw [isNaN64, hunpack, hbits, isNaNBits_roundMag]
  · rw [value64, hunpack, bitsValue_mulBits ha hb, unitExp_binary64]
    rfl

/-- The scaled sample of a finite sample is a number, its exact value in binary64 units scaled. -/
theorem scaled32_of_finite {x : Word} (hx : isFinite32 x = true) :
    isNaN64 (scaled32 x) = false ∧
    value64 (scaled32 x) =
      if value32 x < 0 then roundRatio binary64 (value32 x * (2 ^ 925 * value64 d2147483648)) (2 ^ 1074)
      else roundRatio binary64 (value32 x * (2 ^ 925 * value64 d2147483647)) (2 ^ 1074) := by
  obtain ⟨hfin, hval⟩ := wideningIsExact x hx
  obtain ⟨hnum, hneg⟩ := fmul64_of_finite hfin (show isFinite64 d2147483648 = true by decide)
  obtain ⟨hnum', hpos⟩ := fmul64_of_finite hfin (show isFinite64 d2147483647 = true by decide)
  rw [scaled32]
  simp only [flt32_fZero_iff (not_isNaN32_of_isFinite32 hx), ← mul_assoc, ← hval]
  split
  · exact ⟨hnum, hneg⟩
  · exact ⟨hnum', hpos⟩

/-! ### The codes as nearest integers -/

section
variable {x : Word} (hx : isNaN32 x = false)
include hx

theorem isNaN32_scaled8 : isNaN32 (scaled8 x) = false := by
  rcases number_cases hx with hfin | rfl | rfl
  · exact isNaN32_fmul32 (isFinite32_fadd32_fOne hfin) (by decide)
  · decide
  · decide

theorem isNaN32_scaled16 : isNaN32 (scaled16 x) = false := by
  rcases number_cases hx with hfin | rfl | rfl
  · unfold scaled16
    split
    · exact isNaN32_fmul32 hfin (by decide)
    · exact isNaN32_fmul32 hfin (by decide)
  · decide
  · decide

theorem isNaN64_scaled32 : isNaN64 (scaled32 x) = false := by
  rcases number_cases hx with hfin | rfl | rfl
  · exact (scaled32_of_finite hfin).1
  · decide +kernel
  · decide +kernel

theorem nearest_code8 :
    NearestAwayFromZero 149 (max (0 * 2 ^ 149) (min (value32 (scaled8 x)) (255 * 2 ^ 149))) (code8 x) := by
  have hlo : value32 fZero = 0 * 2 ^ 149 := by decide
  have hhi : value32 f255 = 255 * 2 ^ 149 := by decide
  rw [← hlo, ← hhi, ← value32_clamp32 (isNaN32_scaled8 hx) (by decide) (by decide) (by decide)]
  exact nearest_rha32 _

theorem nearest_code16 :
    NearestAwayFromZero 149 (max (-32768 * 2 ^ 149) (min (value32 (scaled16 x)) (32767 * 2 ^ 149))) (code16 x) := by
  have hlo : value32 fNeg32768 = -32768 * 2 ^ 149 := by decide
  have hhi : value32 f32767 = 32767 * 2 ^ 149 := by decide
  rw [← hlo, ← hhi, ← value32_clamp32 (isNaN32_scaled16 hx) (by decide) (by decide) (by decide)]
  exact nearest_rha32 _

theorem nearest_code32 :
    NearestAwayFromZero 1074 (max (-2147483648 * 2 ^ 1074) (min (value64 (scaled32 x)) (2147483647 * 2 ^ 1074)))
      (code32 x) := by
  have hlo : value64 dNeg2147483648 = -2147483648 * 2 ^ 1074 := by decide +kernel
  have hhi : value64 d2147483647 = 2147483647 * 2 ^ 1074 := by decide +kernel
  rw [← hlo, ← hhi, ← value64_clamp64 (isNaN64_scaled32 hx) (by decide) (by decide) (by decide +kernel)]
  exact nearest_rha64 _

end

/-- What is nearest to a value clamped between two integers lies between them. -/
theorem nearest_clamp_bounds {u : Nat} {lo hi v n : Int} (hle : lo ≤ hi)
    (h : NearestAwayFromZero u (max (lo * 2 ^ u) (min v (hi * 2 ^ u))) n) : lo ≤ n ∧ n ≤ hi := by
  have hends : lo * 2 ^ u ≤ hi * 2 ^ u := mul_le_mul_of_nonneg_right hle (by positivity)
  exact ⟨nearest_mono (nearest_exact u lo) h (le_max_left ..),
    nearest_mono h (nearest_exact u hi) (max_le hends (min_le_right ..))⟩

/-- Clamping between two integers and rounding keeps order. -/
theorem nearest_clamp_mono {u : Nat} {l r v w n k : Int} (h : NearestAwayFromZero u (max l (min v r)) n)
    (h' : NearestAwayFromZero u (max l (min w r)) k) (hle : v ≤ w) : n ≤ k :=
  nearest_mono h h' (max_le_max le_rfl (min_le_min hle le_rfl))

theorem code8_range {x : Word} (hx : isNaN32 x = false) : 0 ≤ code8 x ∧ code8 x ≤ 255 :=
  nearest_clamp_bounds (by decide) (nearest_code8 hx)

theorem code16_range {x : Word} (hx : isNaN32 x = false) : -32768 ≤ code16 x ∧ code16 x ≤ 32767 :=
  nearest_clamp_bounds (by decide) (nearest_code16 hx)

theorem code32_range {x : Word} (hx : isNaN32 x = false) : -2147483648 ≤ code32 x ∧ code32 x ≤ 2147483647 :=
  nearest_clamp_bounds (by decide) (nearest_code32 hx)

/-! ### The results (42_pcm_encoder.md R122, R124, R126) -/

/-- An 8-bit code is the same number in the result word. -/
theorem setWidth_ofInt8 {n : Int} (h0 : 0 ≤ n) (h : n ≤ 255) : (BitVec.ofInt 8 n).setWidth 32 = BitVec.ofInt 32 n := by
  obtain ⟨k, rfl⟩ := Int.eq_ofNat_of_zero_le h0
  apply BitVec.eq_of_toNat_eq
  simp only [BitVec.ofInt_natCast, BitVec.toNat_setWidth, BitVec.toNat_ofNat]
  omega

/-- Settles O31: the code is the nearest integer to the clamped value, which has only one. -/
theorem enc8Result : Obligations.Enc8Result := by
  unfold Obligations.Enc8Result
  intro x s n hx hn
  obtain rfl : code8 x = n := nearest_unique (nearest_rha32 _) hn
  obtain ⟨h0, hle⟩ := code8_range hx
  refine ⟨?_, h0, hle⟩
  rw [exec_enc8_of_code s hx rfl, setWidth_ofInt8 h0 hle]
  rfl

/-- Settles O32: the code is the nearest integer to the clamped value, which has only one. -/
theorem enc16Result : Obligations.Enc16Result := by
  unfold Obligations.Enc16Result
  intro x s n hx hn
  obtain rfl : code16 x = n := nearest_unique (nearest_rha32 _) hn
  exact ⟨exec_enc16_of_code s hx rfl, code16_range hx⟩

/-- Settles O33: the code is the nearest integer to the clamped value, which has only one. -/
theorem enc32Result : Obligations.Enc32Result := by
  unfold Obligations.Enc32Result
  intro x s n hx hn
  obtain rfl : code32 x = n := nearest_unique (nearest_rha64 _) hn
  exact ⟨exec_enc32_of_code s hx rfl, code32_range hx⟩

/-! ### Monotony (42_pcm_encoder.md R127 (c)) -/

/-- A code that is monotone on finite samples, and takes its least and greatest value at the infinities, is monotone. -/
theorem code_mono_of_finite {code : Word → Int} {lo hi : Int} (hlo : code 0xFF800000 = lo) (hhi : code 0x7F800000 = hi)
    (hrange : ∀ x, isNaN32 x = false → lo ≤ code x ∧ code x ≤ hi)
    (hfin : ∀ x y, isFinite32 x = true → isFinite32 y = true → value32 x ≤ value32 y → code x ≤ code y)
    {x y : Word} (h : fle32 x y = true) : code x ≤ code y := by
  obtain ⟨hx, hy, hle⟩ := fle32_iff.mp h
  rcases number_cases hx with hxfin | rfl | rfl
  · rcases number_cases hy with hyfin | rfl | rfl
    · exact hfin x y hxfin hyfin hle
    · exact hhi ▸ (hrange x hx).2
    · have hval : value32 0xFF800000 = -2 ^ 277 := by decide
      have := abs_lt.mp (isFinite32_iff_abs_lt.mp hxfin)
      omega
  · rcases number_cases hy with hyfin | rfl | rfl
    · have hval : value32 0x7F800000 = 2 ^ 277 := by decide
      have := abs_lt.mp (isFinite32_iff_abs_lt.mp hyfin)
      omega
    · exact le_rfl
    · exact absurd hle (by decide)
  · exact hlo ▸ (hrange y hy).1

theorem code8_mono {x y : Word} (h : fle32 x y = true) : code8 x ≤ code8 y := by
  refine code_mono_of_finite (code := code8) (lo := 0) (hi := 255) (by decide +kernel) (by decide +kernel)
    (fun _ => code8_range) (fun x y hx hy hle => ?_) h
  refine nearest_clamp_mono (nearest_code8 (not_isNaN32_of_isFinite32 hx)) (nearest_code8 (not_isNaN32_of_isFinite32 hy)) ?_
  rw [value32_scaled8 hx, value32_scaled8 hy]
  have hsum := roundRatio_mono (F := binary32) Nat.one_pos (Int.add_le_add_right hle (value32 fOne))
  exact roundRatio_mono (Nat.two_pow_pos _) (mul_le_mul_of_nonneg_right hsum (by decide))

theorem code16_mono {x y : Word} (h : fle32 x y = true) : code16 x ≤ code16 y := by
  refine code_mono_of_finite (code := code16) (lo := -32768) (hi := 32767) (by decide +kernel) (by decide +kernel)
    (fun _ => code16_range) (fun x y hx hy hle => ?_) h
  refine nearest_clamp_mono (nearest_code16 (not_isNaN32_of_isFinite32 hx))
    (nearest_code16 (not_isNaN32_of_isFinite32 hy)) ?_
  rw [value32_scaled16 hx, value32_scaled16 hy]
  exact roundRatio_scale_mono binary32 (Nat.two_pow_pos _) (by decide) (by decide) hle

theorem code32_mono {x y : Word} (h : fle32 x y = true) : code32 x ≤ code32 y := by
  refine code_mono_of_finite (code := code32) (lo := -2147483648) (hi := 2147483647) (by decide +kernel)
    (by decide +kernel) (fun _ => code32_range) (fun x y hx hy hle => ?_) h
  refine nearest_clamp_mono (nearest_code32 (not_isNaN32_of_isFinite32 hx))
    (nearest_code32 (not_isNaN32_of_isFinite32 hy)) ?_
  rw [(scaled32_of_finite hx).2, (scaled32_of_finite hy).2]
  exact roundRatio_scale_mono binary64 (Nat.two_pow_pos _) (by decide +kernel) (by decide +kernel) hle

/-- The response of an encoder on a number is its code. -/
theorem encodeSample_res {x : Word} {nb : BitVec 3} {code : Word → Word} {s t : State} {a : Response}
    (hx : isNaN32 x = false) (h : encodeSample x nb code s = .next t) (hr : t.resp = some a) : a.res = code x := by
  rw [encodeSample_ok hx, next_inj] at h
  subst h
  obtain rfl : _ = a := Option.some.inj hr
  rfl

/-- The code read back from the result word: unsigned at 8 bits. -/
theorem toNat_code8 {n : Int} (h0 : 0 ≤ n) (h : n ≤ 255) : (((BitVec.ofInt 8 n).setWidth 32).toNat : Int) = n := by
  rw [setWidth_ofInt8 h0 h, BitVec.toNat_ofInt]
  omega

/-- As two's complement at 16 bits. -/
theorem toInt_code16 {n : Int} (hlo : -32768 ≤ n) (hhi : n ≤ 32767) :
    (((BitVec.ofInt 16 n).setWidth 32).setWidth 16).toInt = n := by
  rw [BitVec.setWidth_setWidth_of_le _ (by decide), BitVec.setWidth_eq, BitVec.toInt_ofInt]
  exact Int.bmod_eq_of_le (by omega) (by omega)

/-- As two's complement at 32 bits. -/
theorem toInt_code32 {n : Int} (hlo : -2147483648 ≤ n) (hhi : n ≤ 2147483647) : (BitVec.ofInt 32 n).toInt = n := by
  rw [BitVec.toInt_ofInt]
  exact Int.bmod_eq_of_le (by omega) (by omega)

/-- Settles O35: the codes are monotone, and each is read back from the result word at its width. -/
theorem encodersAreMonotone : Obligations.EncodersAreMonotone := by
  unfold Obligations.EncodersAreMonotone
  intro x y s t u a b hle ht hu
  obtain ⟨hx, hy, _⟩ := fle32_iff.mp hle
  refine ⟨fun hex hey => ?_, fun hex hey => ?_, fun hex hey => ?_⟩
  · rw [exec_enc8] at hex hey
    obtain ⟨hx0, hx1⟩ := code8_range hx
    obtain ⟨hy0, hy1⟩ := code8_range hy
    have := code8_mono hle
    rw [encodeSample_res hx hex ht, encodeSample_res hy hey hu, ← Int.ofNat_le, toNat_code8 hx0 hx1, toNat_code8 hy0 hy1]
    exact this
  · rw [exec_enc16] at hex hey
    obtain ⟨hx0, hx1⟩ := code16_range hx
    obtain ⟨hy0, hy1⟩ := code16_range hy
    rw [encodeSample_res hx hex ht, encodeSample_res hy hey hu, toInt_code16 hx0 hx1, toInt_code16 hy0 hy1]
    exact code16_mono hle
  · rw [exec_enc32] at hex hey
    obtain ⟨hx0, hx1⟩ := code32_range hx
    obtain ⟨hy0, hy1⟩ := code32_range hy
    rw [encodeSample_res hx hex ht, encodeSample_res hy hey hu, toInt_code32 hx0 hx1, toInt_code32 hy0 hy1]
    exact code32_mono hle

/-! ### Saturation (42_pcm_encoder.md R127 (d)) -/

/-- Settles O36: from 1.0 up a code is at least that of 1.0, the greatest, and from -1.0 down at most that of -1.0, the least. -/
theorem encodersSaturate : Obligations.EncodersSaturate := by
  unfold Obligations.EncodersSaturate
  intro x s
  obtain ⟨hmin8, _, hmax8⟩ := code8_boundaries
  obtain ⟨_, hmax16⟩ := code16_boundaries
  obtain ⟨hmin32, _, hmax32⟩ := code32_boundaries
  constructor
  · intro hle
    obtain ⟨_, hx, _⟩ := fle32_iff.mp hle
    have h8 : code8 x = 255 := le_antisymm (code8_range hx).2 (hmax8 ▸ code8_mono hle)
    have h16 : code16 x = 32767 := le_antisymm (code16_range hx).2 (hmax16 ▸ code16_mono hle)
    have h32 : code32 x = 2147483647 := le_antisymm (code32_range hx).2 (hmax32 ▸ code32_mono hle)
    exact ⟨exec_enc8_of_code s hx h8, exec_enc16_of_code s hx h16, exec_enc32_of_code s hx h32⟩
  · intro hle
    obtain ⟨hx, _, _⟩ := fle32_iff.mp hle
    have h8 : code8 x = 0 := le_antisymm (hmin8 ▸ code8_mono hle) (code8_range hx).1
    have h16 : code16 x = -32768 := le_antisymm (code16_negOne ▸ code16_mono hle) (code16_range hx).1
    have h32 : code32 x = -2147483648 := le_antisymm (hmin32 ▸ code32_mono hle) (code32_range hx).1
    exact ⟨exec_enc8_of_code s hx h8, exec_enc16_of_code s hx h16, exec_enc32_of_code s hx h32⟩

end Sys2Proof.Machine
end

section
/-! PROOFS. Every sample is finite (60_exceptions.md R152, 41_bandlimited.md R111). A naive sample is one of a phase in range. A term of a
harmonic sum is a sine over a number of at least 1.0, so at most 1.0 in magnitude; after `n` terms the accumulator is at most `n`, since
`n` is a value of the format; and the scale at most doubles it. -/

namespace Sys2Proof.Machine

/-! ### Bounds in magnitude -/

/-- The word is a number of magnitude at most `b`. -/
structure Bounded (b : Nat) (a : Word) : Prop where
  number : isNaN32 a = false
  abs_le : |value32 a| ≤ b * 2 ^ 149

/-- An exact quotient within a value of the format, of either sign, rounds to within it. -/
theorem abs_roundRatio_le {v : Int} {den : Nat} (hd : 0 < den) {c : Word} (hc : isNaN32 c = false)
    (h : |v| ≤ value32 c * den) : |roundRatio binary32 v den| ≤ value32 c := by
  obtain ⟨hlo, hhi⟩ := abs_le.mp h
  have hneg : roundRatio binary32 (-v) den ≤ value32 c := roundRatio_le hd hc (by rw [← value32]; linarith)
  rw [roundRatio_neg hd] at hneg
  exact abs_le.mpr ⟨by linarith, roundRatio_le hd hc hhi⟩

/-- A word within a bound that the format represents exactly is finite. -/
theorem Bounded.finite {b : Nat} {a : Word} (h : Bounded b a) (hb : b ≤ 131071) : isFinite32 a = true := by
  have hle : (b : Int) * 2 ^ 149 ≤ 131071 * 2 ^ 149 := mul_le_mul_of_nonneg_right (by omega) (by positivity)
  exact isFinite32_iff_abs_lt.mpr ((h.abs_le.trans hle).trans_lt (by decide))

theorem Bounded.fneg32 {b : Nat} {a : Word} (h : Bounded b a) : Bounded b (fneg32 a) :=
  ⟨by simpa using h.number, by rw [value32_fneg32, abs_neg]; exact h.abs_le⟩

theorem Bounded.fadd32 {b c : Nat} {x y : Word} (hx : Bounded b x) (hy : Bounded c y) (hle : b + c ≤ 131071) :
    Bounded (b + c) (fadd32 x y) := by
  have hxfin := hx.finite (by omega)
  have hyfin := hy.finite (by omega)
  obtain ⟨hfin, hval⟩ := integersConvertExactly (b + c : Nat) (by omega) (by omega)
  refine ⟨isNaN32_fadd32 hx.number hy.number (.inl hxfin), ?_⟩
  rw [value32_fadd32 hxfin hyfin, ← hval]
  refine abs_roundRatio_le Nat.one_pos (not_isNaN32_of_isFinite32 hfin) ?_
  rw [hval, Nat.cast_one, mul_one, Nat.cast_add, add_mul]
  exact (abs_add_le ..).trans (add_le_add hx.abs_le hy.abs_le)

theorem Bounded.fsub32 {b c : Nat} {x y : Word} (hx : Bounded b x) (hy : Bounded c y) (hle : b + c ≤ 131071) :
    Bounded (b + c) (fsub32 x y) :=
  hx.fadd32 hy.fneg32 hle

theorem Bounded.fmul32 {b c : Nat} {x y : Word} (hx : Bounded b x) (hy : Bounded c y) (hyfin : isFinite32 y = true)
    (hb : b ≤ 131071) (hle : b * c ≤ 131071) : Bounded (b * c) (fmul32 x y) := by
  have hxfin := hx.finite hb
  obtain ⟨hfin, hval⟩ := integersConvertExactly (b * c : Nat) (by omega) (by omega)
  refine ⟨isNaN32_fmul32 hxfin hyfin, ?_⟩
  rw [value32_fmul32 hxfin hyfin, ← hval]
  refine abs_roundRatio_le (Nat.two_pow_pos _) (not_isNaN32_of_isFinite32 hfin) ?_
  have hexact : ((b * c : Nat) : Int) * 2 ^ 149 * (2 ^ 149 : Nat) = b * 2 ^ 149 * (c * 2 ^ 149) := by
    have hring (x y u : Int) : x * y * u * u = x * u * (y * u) := by ring
    rw [Nat.cast_mul, Nat.cast_pow, Nat.cast_ofNat]
    exact hring ..
  rw [hval, hexact, abs_mul]
  exact mul_le_mul hx.abs_le hy.abs_le (abs_nonneg _) ((abs_nonneg _).trans hx.abs_le)

/-- Dividing by a number of at least 1.0 keeps a bound. -/
theorem Bounded.fdiv32 {b : Nat} {x y : Word} (hx : Bounded b x) (hb : b ≤ 131071) (hy : isFinite32 y = true)
    (hone : 2 ^ 149 ≤ value32 y) : Bounded b (fdiv32 x y) := by
  have hxfin := hx.finite hb
  have hpos : 0 < value32 y := lt_of_lt_of_le (by positivity) hone
  have hypos : flt32 fZero y = true := flt32_iff.mpr ⟨by decide, not_isNaN32_of_isFinite32 hy, by rwa [value32_fZero]⟩
  obtain ⟨hfin, hval⟩ := integersConvertExactly b (by omega) (by omega)
  refine ⟨isNaN32_fdiv32 hx.number hy hypos, ?_⟩
  rw [value32_fdiv32 hxfin hy hpos, ← hval]
  refine abs_roundRatio_le (by omega) (not_isNaN32_of_isFinite32 hfin) ?_
  have habs : ((value32 y).natAbs : Int) = value32 y := by omega
  have hunit : |(2 : Int) ^ 149| = 2 ^ 149 := abs_of_pos (by positivity)
  rw [hval, habs, abs_mul, hunit]
  exact mul_le_mul hx.abs_le hone (by positivity) ((abs_nonneg _).trans hx.abs_le)

/-- The sine of a finite word is at most 1.0 in magnitude (00_scope.md R12). -/
theorem bounded_sin32 {x : Word} (hx : isFinite32 x = true) : Bounded 1 (sin32 x) := by
  have h := within_sin32 hx
  obtain ⟨hlo, hhi⟩ := h.value
  have hone : value32 fOne = 2 ^ 149 := by decide
  have hnegOne : value32 fNegOne = -2 ^ 149 := by decide
  exact ⟨h.isNaN32_eq_false, abs_le.mpr ⟨by omega, by omega⟩⟩

/-! ### The terms of the harmonic sums (41_bandlimited.md R107 to R109) -/

/-- A harmonic number of the sums: it is converted exactly, and is at least 1.0. -/
theorem i2f32_harmonic {k : Int} (h1 : 1 ≤ k) (hk : k ≤ 131071) :
    isFinite32 (i2f32 k) = true ∧ value32 (i2f32 k) = k * 2 ^ 149 ∧ 2 ^ 149 ≤ value32 (i2f32 k) := by
  obtain ⟨hfin, hval⟩ := integersConvertExactly k (by omega) hk
  exact ⟨hfin, hval, by omega⟩

/-- The sine's argument of a harmonic is finite: 131071 times a phase below 2π is below 2^20. -/
theorem isFinite32_harmonic_phase {k : Int} {p : Word} (h1 : 1 ≤ k) (hk : k ≤ 131071) (hp : InRange twoPi p) :
    isFinite32 (fmul32 (i2f32 k) p) = true := by
  obtain ⟨hfin, hval, _⟩ := i2f32_harmonic h1 hk
  have hwithin := hp.within (by decide)
  obtain ⟨h0, hlt⟩ := hwithin.value
  have htwoPi : value32 twoPi = 13176795 * 2 ^ 128 := by decide
  have hbound : value32 0x49800000 = 2 ^ 20 * 2 ^ 149 := by decide
  rw [value32_fZero] at h0
  have hprod : value32 (i2f32 k) * value32 p ≤ 131071 * 2 ^ 149 * (13176795 * 2 ^ 128) :=
    mul_le_mul (by omega) (by omega) h0 (by positivity)
  have hnonneg : 0 ≤ value32 (i2f32 k) * value32 p := mul_nonneg (by omega) h0
  have hround : |roundRatio binary32 (value32 (i2f32 k) * value32 p) (2 ^ 149)| ≤ value32 0x49800000 := by
    refine abs_roundRatio_le (Nat.two_pow_pos _) (by decide) ?_
    rw [abs_of_nonneg hnonneg, hbound]
    exact hprod.trans (by norm_num)
  rw [isFinite32_iff_abs_lt, value32_fmul32 hfin hwithin.finite]
  exact hround.trans_lt (by rw [hbound]; decide)

/-- The square of a harmonic number is a finite number of at least 1.0. -/
theorem harmonic_square {k : Int} (h1 : 1 ≤ k) (hk : k ≤ 131071) :
    isFinite32 (fmul32 (i2f32 k) (i2f32 k)) = true ∧ 2 ^ 149 ≤ value32 (fmul32 (i2f32 k) (i2f32 k)) := by
  obtain ⟨hfin, hval, hone⟩ := i2f32_harmonic h1 hk
  have hbound : value32 0x50800000 = 2 ^ 34 * 2 ^ 149 := by decide
  have honeVal : bitsValue binary32 (unpack32 fOne) = 2 ^ 149 := by decide
  have hsq : value32 (i2f32 k) * value32 (i2f32 k) ≤ 131071 * 2 ^ 149 * (131071 * 2 ^ 149) :=
    mul_le_mul (by omega) (by omega) (by omega) (by positivity)
  have hsq' : 2 ^ 149 * 2 ^ 149 ≤ value32 (i2f32 k) * value32 (i2f32 k) := mul_le_mul hone hone (by positivity) (by omega)
  rw [isFinite32_iff_abs_lt, value32_fmul32 hfin hfin]
  constructor
  · have hround : |roundRatio binary32 (value32 (i2f32 k) * value32 (i2f32 k)) (2 ^ 149)| ≤ value32 0x50800000 := by
      refine abs_roundRatio_le (Nat.two_pow_pos _) (by decide) ?_
      rw [abs_of_nonneg (mul_self_nonneg _), hbound]
      exact hsq.trans (by norm_num)
    exact hround.trans_lt (by rw [hbound]; decide)
  · rw [← honeVal]
    exact le_roundRatio (Nat.two_pow_pos _) (by decide) (by rw [honeVal]; exact_mod_cast hsq')

section
variable {p : Word} (hp : InRange twoPi p) {i : Nat} (h1 : 1 ≤ i) (hi : i ≤ 65535)
include hp h1 hi

theorem bounded_sawTerm : Bounded 1 (sawTerm p i) := by
  obtain ⟨hfin, _, hone⟩ := i2f32_harmonic (k := i) (by omega) (by omega)
  exact (bounded_sin32 (isFinite32_harmonic_phase (by omega) (by omega) hp)).fdiv32 (by decide) hfin hone

theorem bounded_squareTerm : Bounded 1 (squareTerm p i) := by
  obtain ⟨hfin, _, hone⟩ := i2f32_harmonic (k := 2 * (i : Int) - 1) (by omega) (by omega)
  exact (bounded_sin32 (isFinite32_harmonic_phase (by omega) (by omega) hp)).fdiv32 (by decide) hfin hone

theorem bounded_triangleTerm : Bounded 1 (triangleTerm p i) := by
  obtain ⟨hfin, hone⟩ := harmonic_square (k := 2 * (i : Int) - 1) (by omega) (by omega)
  exact (bounded_sin32 (isFinite32_harmonic_phase (by omega) (by omega) hp)).fdiv32 (by decide) hfin hone

end

/-! ### The sums (41_bandlimited.md R110, R111) -/

/-- When every term moves the accumulator by at most 1.0, after `n` terms it is at most `n`. -/
theorem bounded_harmonicSum {addTerm : Nat → Word → Word} {n : Nat}
    (hstep : ∀ i acc, i < n → Bounded i acc → Bounded (i + 1) (addTerm (i + 1) acc)) : Bounded n (harmonicSum addTerm n) := by
  induction n with
  | zero => exact harmonicSum_zero addTerm ▸ ⟨by decide, by decide⟩
  | succ n ih =>
    rw [harmonicSum_succ]
    exact hstep n _ (Nat.lt_succ_self n) (ih fun i acc hi => hstep i acc (Nat.lt_succ_of_lt hi))

/-- Scaling an accumulator of at most 65535 by a constant of at most 2.0 leaves it finite. -/
theorem isFinite32_scaled_sum {n : Nat} {acc c : Word} (hacc : Bounded n acc) (hn : n ≤ 65535) (hc : Bounded 2 c) :
    isFinite32 (fmul32 acc c) = true :=
  (hacc.fmul32 hc (hc.finite (by decide)) (by omega) (by omega)).finite (by omega)

section
variable {p : Word} (hp : InRange twoPi p) {n : Nat} (hn : n ≤ 65535)
include hp hn

theorem isFinite32_blSawSample : isFinite32 (blSawSample n p) = true :=
  isFinite32_scaled_sum (bounded_harmonicSum fun i _ hi hacc =>
    hacc.fadd32 (bounded_sawTerm hp (by omega) (by omega)) (by omega)) hn ⟨by decide, by decide⟩

theorem isFinite32_blSquareSample : isFinite32 (blSquareSample n p) = true :=
  isFinite32_scaled_sum (bounded_harmonicSum fun i _ hi hacc =>
    hacc.fadd32 (bounded_squareTerm hp (by omega) (by omega)) (by omega)) hn ⟨by decide, by decide⟩

theorem isFinite32_blTriangleSample : isFinite32 (blTriangleSample n p) = true := by
  refine isFinite32_scaled_sum (bounded_harmonicSum fun i acc hi hacc => ?_) hn ⟨by decide, by decide⟩
  have hterm : Bounded 1 (triangleTerm p (i + 1)) := bounded_triangleTerm hp (by omega) (by omega)
  split
  · exact hacc.fadd32 hterm (by omega)
  · exact hacc.fsub32 hterm (by omega)

end

/-! ### The counts (41_bandlimited.md R101 to R106) -/

theorem harmonicSearch_le {below : Nat → Bool} {left n : Nat} (h : harmonicSearch below left 0 = some n) : n ≤ left := by
  have hspec := harmonicSearch_spec below left 0
  rw [h] at hspec
  obtain ⟨_, hle, _⟩ := hspec
  omega

theorem autohSaw_le {f r : Word} {n : Nat} (h : autohSaw f r = some n) : n ≤ 65535 := by
  unfold autohSaw at h
  split_ifs at h
  · obtain rfl := Option.some.inj h
    omega
  · exact harmonicSearch_le h

theorem autohOdd_le {f r : Word} {n : Nat} (h : autohOdd f r = some n) : n ≤ 65535 := by
  unfold autohOdd at h
  split_ifs at h
  · obtain rfl := Option.some.inj h
    omega
  · obtain ⟨k, hk, rfl⟩ := Option.map_eq_some_iff.mp h
    exact (Nat.sub_le ..).trans (harmonicSearch_le hk)

/-- The count of a well-formed command is at most 65535, explicit or automatic. -/
theorem harmonicCount_le {hc n : Nat} {auto : Option Nat} (hwf : countFits hc = true)
    (hauto : ∀ n, auto = some n → n ≤ 65535) (h : harmonicCount hc auto = some n) : n ≤ 65535 := by
  unfold harmonicCount at h
  split at h
  · obtain rfl := Option.some.inj h
    exact of_decide_eq_true hwf
  · exact hauto n h

/-! ### Every sample -/

/-- The sample of a band-limited command's OK response is that of a phase in range and of its count. -/
theorem advanceBandlimited_sample {pr : Fin 16} {f r : Word} {count : Option Nat} {sample : Nat → Word → Word}
    {s t : State} {a : Response} (h : advanceBandlimited pr f r count sample s = .next t) (hr : t.resp = some a)
    (ha : a.st = 0) : ∃ n p1, count = some n ∧ InRange twoPi p1 ∧ a.res = sample n p1 := by
  have hrange := advanceBandlimited_inRange h hr ha
  rcases advanceBandlimited_cases h with ⟨_, rfl⟩ | ⟨_, _, rfl⟩ | ⟨_, n, p1, hn, _, rfl⟩ | ⟨_, n, _, _, rfl⟩
  · exact absurd ha (not_ok_of_raise hr)
  · exact absurd ha (not_ok_of_raise hr)
  · rw [commit_phase_self] at hrange
    exact ⟨n, p1, hn, hrange, (congrArg Response.res (Option.some.inj hr)).symm⟩
  · cases hr

/-- Settles O58: each sample is that of a phase in range, and for the band-limited commands of a count of at most 65535. -/
theorem everySampleIsFinite : Obligations.EverySampleIsFinite := by
  unfold Obligations.EverySampleIsFinite
  intro i s t a hwf hadv h hr ha
  cases i with
  | advsin pr f r =>
    rw [advance_sample h hr ha]
    exact (within_sin32 ((advance_inRange isFinite32_twoPi isNaN32_radianInc h hr ha).within isFinite32_twoPi).finite).finite
  | advsqr pr f r =>
    rw [advance_sample h hr ha]
    rcases squareSample_eq_or (t.phase pr) with heq | heq <;> rw [heq] <;> decide
  | advsaw pr f r =>
    rw [advance_sample h hr ha]
    exact (within_sawSample (advance_inRange isFinite32_fOne isNaN32_unitInc h hr ha)).finite
  | advtri pr f r =>
    rw [advance_sample h hr ha]
    exact (within_triangleSample (advance_inRange isFinite32_fOne isNaN32_unitInc h hr ha)).finite
  | advblsqr pr hc f r =>
    obtain ⟨n, p1, hn, hp, hres⟩ := advanceBandlimited_sample h hr ha
    exact hres ▸ isFinite32_blSquareSample hp (harmonicCount_le hwf (fun _ => autohOdd_le) hn)
  | advblsaw pr hc f r =>
    obtain ⟨n, p1, hn, hp, hres⟩ := advanceBandlimited_sample h hr ha
    exact hres ▸ isFinite32_blSawSample hp (harmonicCount_le hwf (fun _ => autohSaw_le) hn)
  | advbltri pr hc f r =>
    obtain ⟨n, p1, hn, hp, hres⟩ := advanceBandlimited_sample h hr ha
    exact hres ▸ isFinite32_blTriangleSample hp (harmonicCount_le hwf (fun _ => autohOdd_le) hn)
  | enc8 _ | enc16 _ | enc32 _ | phwr _ _ | phrd _ | rdfs => cases hadv

end Sys2Proof.Machine
end
